-- ==== Sys2Proof/Word.lean ====
section
/-! DEFINITION. The words of the engine: bytes, the 3-bit page register, and the byte of a number at a bit position. -/

namespace Sys2Proof

/-- A byte: every operand, every packet byte, every ROM byte (spec/00_scope.md R12). -/
abbrev Byte := BitVec 8

/-- The width of `CUR_PAGE` (spec/10_state.md R22). -/
abbrev Page := BitVec 3

/-- Byte `k` of a number, byte 0 the least significant. -/
def byteAt (w k : Nat) : Byte := BitVec.ofNat 8 (w >>> (8 * k))

end Sys2Proof
end

