-- ==== Sys2Proof/Syntax.lean ====
section
/-! DEFINITION. The operations of spec/opcode_table.json, one constructor a row, and the units the engine produces: transactions and packets. -/

namespace Sys2Proof

/-- The kind of a transaction (spec/30_encoding.md R68). -/
inductive Kind where
  | command
  | data
  deriving DecidableEq, Repr

/-- A transaction: the logical unit handed to the Framer (spec/00_scope.md R14, spec/30_encoding.md R68). -/
structure Transaction where
  kind : Kind
  address : Byte
  parameters : List Byte
  deriving DecidableEq, Repr

/-- A packet: the two bytes of one transmission, control byte first on the wire (spec/30_encoding.md R66). -/
structure Packet where
  control : Byte
  value : Byte
  deriving DecidableEq, Repr

/-- What the bus transport does with one transmission.
`ok` and `busError` are the two answers of spec/20_memory.md R44 and R45.
`silent` is the transport that has not answered yet and may never do so (spec/40_framer.md R95,
spec/70_reset_and_hazards.md R190, notes/assumptions/5.md). -/
inductive BusAnswer where
  | ok
  | busError
  | silent
  deriving DecidableEq, Repr, Inhabited

/-- One constructor per row of spec/opcode_table.json.
The first seven are the host operations (spec/30_encoding.md R63), then the reserved opcodes (R64).
The rest have no host opcode: the Framer's `write` (spec/40_framer.md R92), the two wire packets
(spec/30_encoding.md R66) and the transactions the engine produces (R69). -/
inductive Instr where
  /-- INIT: format H0, opcode 0x01. -/
  | init
  /-- SET_CURSOR: format H2, opcode 0x02, A = page, B = column. -/
  | setCursor (page column : Byte)
  /-- NEW_LINE: format H0, opcode 0x03. -/
  | newLine
  /-- PUT_CHAR: format H1, opcode 0x04, A = character code. -/
  | putChar (char : Byte)
  /-- PRINT: format HV, opcode 0x05; LEN is the length of the payload. -/
  | print (payload : List Byte)
  /-- FILL: format H1, opcode 0x06, A = pattern. -/
  | fill (pattern : Byte)
  /-- DRAW_BITMAP: format H2, opcode 0x07, A = page, B = column of the start. -/
  | drawBitmap (page column : Byte)
  /-- RESERVED: any opcode byte other than 0x01 to 0x07, consumed alone. -/
  | reserved (opcode : Byte)
  /-- write: the Framer's micro-operation, internal. -/
  | write (kind : Kind) (address : Byte) (parameters : List Byte)
  /-- PKT_COMMAND: the wire packet `[0x00, value]`. -/
  | pktCommand (value : Byte)
  /-- PKT_DATA: the wire packet `[DATA_MARKER, value]`. -/
  | pktData (value : Byte)
  /-- TX_COLUMN_WINDOW: `{Command, OP_COLUMN_WINDOW, [column, 0x7F]}`. -/
  | txColumnWindow (column : Byte)
  /-- TX_PAGE_WINDOW: `{Command, OP_PAGE_WINDOW, [page, 0x07]}`. -/
  | txPageWindow (page : Byte)
  /-- TX_PIXEL_DATA: `{Data, 0x00, [slice]}`. -/
  | txPixelData (slice : Byte)
  /-- TX_INIT_01: display off. -/
  | txInit01
  /-- TX_INIT_02: set offset. -/
  | txInit02
  /-- TX_INIT_03: set start line. -/
  | txInit03
  /-- TX_INIT_04: enable charge pump. -/
  | txInit04
  /-- TX_INIT_05: set addressing mode. -/
  | txInit05
  /-- TX_INIT_06: set contrast. -/
  | txInit06
  /-- TX_INIT_07: enable full display. -/
  | txInit07
  /-- TX_INIT_08: display on. -/
  | txInit08
  /-- TX_INIT_09: disable hardware scroll. -/
  | txInit09
  /-- TX_INIT_10: display on, the second time. -/
  | txInit10
  deriving DecidableEq, Repr

/-- The rows of the host command stream: what the host can issue (spec/30_encoding.md R63, R64). -/
def Instr.isHostCommand : Instr → Bool
  | .init | .setCursor _ _ | .newLine | .putChar _ | .print _ | .fill _ | .drawBitmap _ _ | .reserved _ => true
  | .write _ _ _ | .pktCommand _ | .pktData _ | .txColumnWindow _ | .txPageWindow _ | .txPixelData _ => false
  | .txInit01 | .txInit02 | .txInit03 | .txInit04 | .txInit05 => false
  | .txInit06 | .txInit07 | .txInit08 | .txInit09 | .txInit10 => false

end Sys2Proof
end

