-- ==== Sys2Proof/Config.lean ====
section
/-! DEFINITION. What an instance of the engine fixes: the geometry, the named parameters of spec/00_scope.md R10, their constraints, and the free values. -/

namespace Sys2Proof

/-- `COLUMN_MAX` (spec/00_scope.md R9). -/
def columnMax : Nat := 127

/-- `PAGE_MAX` (spec/00_scope.md R9). -/
def pageMax : Nat := 7

/-- `COLUMN_LENGTH = COLUMN_MAX + 1` (spec/00_scope.md R9). -/
def columnLength : Nat := 128

/-- `PAGE_LENGTH = PAGE_MAX + 1` (spec/00_scope.md R9). -/
def pageLength : Nat := 8

/-- One entry of `INIT_SEQ`: a Command transaction's address and parameters (spec/41_init.md R101). -/
structure InitStep where
  address : Byte
  parameters : List Byte
  deriving DecidableEq, Repr

/-- `INIT_SEQ`: exactly ten steps, under the source's names and in its order (spec/41_init.md R101). -/
structure InitSeq where
  displayOff : InitStep
  setOffset : InitStep
  setStartLine : InitStep
  enableChargePump : InitStep
  setAddressingMode : InitStep
  setContrast : InitStep
  enableFullDisplay : InitStep
  displayOn : InitStep
  disableScroll : InitStep
  displayOnAgain : InitStep
  deriving DecidableEq, Repr

/-- The ten steps in the order INIT sends them (spec/41_init.md R101). -/
def InitSeq.steps (q : InitSeq) : List InitStep :=
  [q.displayOff, q.setOffset, q.setStartLine, q.enableChargePump, q.setAddressingMode,
   q.setContrast, q.enableFullDisplay, q.displayOn, q.disableScroll, q.displayOnAgain]

/-- The named parameters of the model (spec/00_scope.md R10, spec/10_state.md R32).
`font` is the FONT ROM, byte `c*FW + i` is slice `i` of code `c` (spec/20_memory.md R40).
`bitmap` is the BITMAP ROM, byte `r*128 + c` is column `c` of row `r` (spec/20_memory.md R41). -/
structure Config where
  fontWidth : Nat
  font : List Byte
  newline : Byte
  printMax : Nat
  bitmapRows : Nat
  bitmap : List Byte
  dataMarker : Byte
  opColumnWindow : Byte
  opPageWindow : Byte
  initSeq : InitSeq
  cmdAddrFirst : Bool
  deriving DecidableEq, Repr

/-- The control codes 0x00 to 0x1F and 0x7F.
PRESUMED, safe: the set is from general knowledge (spec/20_memory.md R40, notes/assumptions/16.md). -/
def controlCode (c : Nat) : Bool := c ≤ 0x1F || c == 0x7F

/-- The rows of the control codes are blank in the Font Table, that of NEWLINE with them (spec/92_eei_decisions.md D15 and
table of open parameters, spec/20_memory.md R40). -/
def Config.fontBlankControls (g : Config) : Bool :=
  (List.range 128).all fun c => !controlCode c ||
    (List.range g.fontWidth).all fun i => g.font.getD (c * g.fontWidth + i) 0 == 0

/-- The constraints the spec puts on the parameters (spec/00_scope.md R10, spec/92_eei_decisions.md, table of open parameters). -/
def Config.wf (g : Config) : Bool :=
  1 ≤ g.fontWidth && g.fontWidth ≤ 128 &&
  g.font.length == 128 * g.fontWidth && g.fontBlankControls &&
  1 ≤ g.printMax && g.printMax ≤ 255 &&
  g.bitmap.length == g.bitmapRows * 128 &&
  g.dataMarker != 0

/-! The open parameters: the spec names them and gives no value, so nothing in Lean can evaluate them. -/

/-- `FONT_WIDTH - 1`, open within 1 ≤ FW ≤ 128 (spec/00_scope.md R10, notes/assumptions/1.md). -/
opaque Config.fontWidthOpen : Fin 128

/-- The byte of the Font Table at an address, open (spec/20_memory.md R40, notes/assumptions/1.md). -/
opaque Config.fontOpen : Nat → Byte

/-- `BITMAP_ROWS`, open (spec/00_scope.md R10, notes/assumptions/1.md). -/
opaque Config.bitmapRowsOpen : Nat

/-- The byte of the Bitmap ROM at an address, open (spec/20_memory.md R41, notes/assumptions/1.md). -/
opaque Config.bitmapOpen : Nat → Byte

/-- `PRINT_MAX - 1`, open within 1 ≤ PRINT_MAX ≤ 255 (spec/00_scope.md R10, notes/assumptions/1.md). -/
opaque Config.printMaxOpen : Fin 255

/-- The answer of the transport to a transmission for which no answer is scripted: a free value, one per draw
(spec/20_memory.md R45, notes/assumptions/4.md). -/
opaque Config.busAnswer : Nat → BusAnswer

/-- The default bytes of `INIT_SEQ`.
PRESUMED, unsafe: the spec supplies them from general knowledge (spec/41_init.md R101, notes/assumptions/2.md). -/
def InitSeq.default : InitSeq where
  displayOff := ⟨0xAE, []⟩
  setOffset := ⟨0xD3, [0x00]⟩
  setStartLine := ⟨0x40, []⟩
  enableChargePump := ⟨0x8D, [0x14]⟩
  setAddressingMode := ⟨0x20, [0x00]⟩
  setContrast := ⟨0x81, [0x7F]⟩
  enableFullDisplay := ⟨0xA4, []⟩
  displayOn := ⟨0xAF, []⟩
  disableScroll := ⟨0x2E, []⟩
  displayOnAgain := ⟨0xAF, []⟩

/-- The default code of the newline control code.
PRESUMED, unsafe (spec/00_scope.md R10, notes/assumptions/2.md). -/
def Config.newlineDefault : Byte := 0x0A

/-- `FONT_WIDTH` of this instance. -/
def Config.chipFontWidth : Nat := Config.fontWidthOpen.val + 1

/-- The byte of the Font Table of this instance at an address: blank in the row of a control code, else open
(spec/92_eei_decisions.md D15). -/
def Config.chipFontByte (a : Nat) : Byte :=
  if controlCode (a / Config.chipFontWidth) then 0 else Config.fontOpen a

/-- The parameters of this instance: the spec's defaults where it has one, open values elsewhere
(spec/00_scope.md R10; `CMD_ADDR_FIRST = false` is spec/40_framer.md R93). -/
def Config.chip : Config where
  fontWidth := Config.chipFontWidth
  font := (List.range (128 * Config.chipFontWidth)).map Config.chipFontByte
  newline := Config.newlineDefault
  printMax := Config.printMaxOpen.val + 1
  bitmapRows := Config.bitmapRowsOpen
  bitmap := (List.range (Config.bitmapRowsOpen * 128)).map Config.bitmapOpen
  dataMarker := 0x40
  opColumnWindow := 0x21
  opPageWindow := 0x22
  initSeq := InitSeq.default
  cmdAddrFirst := false

end Sys2Proof
end

