-- ==== Sys2Proof/Machine/State.lean ====
section
/-! DEFINITION. The state of the engine as plain data, the reasons a step can stop, and the state after reset. -/

namespace Sys2Proof.Machine

/-- Why a step faults. Safe: the model stops where the spec gives nothing to do. -/
inductive Fault where
  /-- Raised by a host read of a register address 0x4 or above, which does not exist (spec/10_state.md R28). Safe. -/
  | noSuchRegister (address : Nat)
  deriving DecidableEq, Repr

/-- Why a step is refused. -/
inductive Refusal where
  /-- Raised by exec's arm of an instruction without a meaning; no arm does. Safe. -/
  | notModelled (mnemonic : String)
  /-- Raised by `step` when the host writes CMD while the body of an operation runs: "a model gives it no step"
  (spec/70_reset_and_hazards.md R186, spec/93_implementation_defined.md U9). Safe. -/
  | commandWhileBusy
  /-- Raised by `step` when the transport answers and no operation waits on a transmission: a transport answers
  transmissions only (spec/20_memory.md R44, notes/assumptions/5.md). Safe.
One case is the model's choice, and unsafe: the answer, after a reset, to the packet that the reset discarded
(notes/assumptions/25.md). -/
  | unsolicitedAnswer
  deriving DecidableEq, Repr

/-- One thing done at the engine's ports from outside: by the host (spec/70_reset_and_hazards.md R195), or by a
transport that answers late (spec/20_memory.md R44: `send` may take arbitrarily long); and when the next thing is done. -/
inductive HostAction where
  /-- A byte written to the command port, host register 0x0 (spec/10_state.md R27). -/
  | cmd (byte : Byte)
  /-- A read of a host register (spec/10_state.md R28). -/
  | readReg (address : Nat)
  /-- The reset input (spec/70_reset_and_hazards.md R181). -/
  | reset
  /-- The transport answers the transmission in flight, after it let the engine wait (spec/40_framer.md R95,
  notes/assumptions/5.md). -/
  | answer (a : BusAnswer)
  /-- The engine runs this many lines of the operation in progress before the next thing is done at the ports, since
  the host may act at any time (spec/70_reset_and_hazards.md R195, notes/assumptions/6.md). -/
  | elapse (lines : Nat)
  deriving DecidableEq, Repr

/-- The MSG space: (address, byte) cells, addresses strictly rising, no cell equal to `blankByte`. -/
abbrev Memory := List Host.Cell

/-- An operation in progress: the instruction, the registers, the print buffer and the lengths of the traces it started
from, and how many of its lines are complete (spec/70_reset_and_hazards.md R180 "operation in progress", R190, R195,
notes/assumptions/5.md, 6.md). -/
structure Running where
  instr : Instr
  curPage : Page
  curCol : Byte
  status : Byte
  mem : Memory
  issued : Nat
  sent : Nat
  lines : Nat
  deriving DecidableEq, Repr

/-- What a byte of MSG that nothing has written reads as.
DESIGN CHOICE, unsafe: the spec gives no contents (spec/20_memory.md R42, notes/assumptions/13.md). -/
def blankByte : Byte := 0

/-- Everything the spec gives the machine (INVENTORY.md, State). -/
structure State where
  /-- The parameters of the step relation; no step writes them (spec/10_state.md R32, notes/assumptions/1.md). -/
  cfg : Config
  /-- `CUR_PAGE` (spec/10_state.md R22). -/
  curPage : Page
  /-- `CUR_COL` (spec/10_state.md R23). -/
  curCol : Byte
  /-- `STATUS` (spec/10_state.md R25). -/
  status : Byte
  /-- The print buffer MSG (spec/20_memory.md R42). -/
  mem : Memory
  /-- The command decoder: bytes accepted of a command whose last byte has not arrived (spec/30_encoding.md R60). -/
  rx : List Byte
  /-- The packet handed to the transport and not answered (spec/20_memory.md R44, spec/70_reset_and_hazards.md R190). -/
  inFlight : Option Packet
  /-- The operation in progress, while its body waits on that packet or the host acts between two of its lines
  (spec/70_reset_and_hazards.md R180, R190, R195). -/
  running : Option Running
  /-- The T-trace: transactions handed to the Framer, oldest first (spec/00_scope.md R14). -/
  ttrace : List Transaction
  /-- The W-trace: packets handed to `send` with their answers, oldest first (spec/00_scope.md R14). -/
  wtrace : List (Packet × BusAnswer)
  /-- The model's own: what happens at the ports next, in order (notes/assumptions/7.md). -/
  host : List HostAction
  /-- The model's own: register reads and what they returned, oldest first (notes/assumptions/7.md). -/
  readLog : List (Nat × Byte)
  /-- The model's own: scripted answers of the transport to come (notes/assumptions/4.md). -/
  answers : List BusAnswer
  /-- The model's own: how many free answers have been drawn (notes/assumptions/4.md). -/
  draws : Nat
  /-- The model's own: internal micro-operations presented one by one (notes/assumptions/11.md). -/
  pending : List Instr
  deriving DecidableEq, Repr

/-- The machine right after reset (spec/70_reset_and_hazards.md R180, spec/10_state.md R33).
The model's own fields start empty (notes/assumptions/7.md, 4.md, 11.md). -/
def State.reset : State where
  cfg := Config.chip
  curPage := 0
  curCol := 0
  status := 0x00
  mem := []
  rx := []
  inFlight := none
  running := none
  ttrace := []
  wtrace := []
  host := []
  readLog := []
  answers := []
  draws := 0
  pending := []

end Sys2Proof.Machine
end

