-- ==== Sys2Proof/Machine/Flags.lean ====
section
/-! DEFINITION. The flags of STATUS: their places and the ways the rules set and clear them. -/

namespace Sys2Proof.Machine

/-- The named bits of STATUS (spec/10_state.md R25). -/
inductive Flag where
  /-- Bit 0: the operation was abandoned by BusError. -/
  | be
  /-- Bit 1: a `set_cursor` found its operands out of range. -/
  | ign
  /-- Bit 2: a `put_char` received a byte 128 to 255. -/
  | ug
  /-- Bit 3: PRINT was given LEN > PRINT_MAX. -/
  | fo
  /-- Bit 4: the command byte was not one of 0x01 to 0x07. -/
  | ill
  /-- Bit 7: an operation is accepted and has not ended. -/
  | busy
  deriving DecidableEq, Repr

/-- The place of a flag in STATUS (spec/10_state.md R25). -/
def flagBit : Flag → Nat
  | .be => 0
  | .ign => 1
  | .ug => 2
  | .fo => 3
  | .ill => 4
  | .busy => 7

/-- STATUS with only this flag set. -/
def flagMask : Flag → Byte
  | .be => 0x01
  | .ign => 0x02
  | .ug => 0x04
  | .fo => 0x08
  | .ill => 0x10
  | .busy => 0x80

/-- `STATUS.<flag>`. -/
def State.flag (s : State) (f : Flag) : Bool := s.status.getLsbD (flagBit f)

/-- `STATUS.<flag> <- 1`. -/
def State.setFlag (f : Flag) (s : State) : State := { s with status := s.status ||| flagMask f }

/-- `STATUS.<flag> <- 0`. -/
def State.clearFlag (f : Flag) (s : State) : State := { s with status := s.status &&& ~~~ flagMask f }

/-- `STATUS <- v`. -/
def State.setStatus (v : Byte) (s : State) : State := { s with status := v }

/-- What STATUS is when an operation is accepted: all flags clear, BUSY set (spec/10_state.md R26). -/
def acceptedStatus : Byte := 0x80

/-- Bits 6:5 of STATUS are reserved and read as 0 (spec/10_state.md R25). -/
def reservedBitsClear (v : Byte) : Bool := !v.getLsbD 5 && !v.getLsbD 6

end Sys2Proof.Machine
end

