-- ==== Sys2Proof/Machine/Operands.lean ====
section
/-! DEFINITION. What the operands and the parameters compute: range tests, window parameters, page step, wrap test, glyphs, ROM bytes, and the Framer's packets. -/

namespace Sys2Proof.Machine

/-- The range test of `set_cursor`: `p <= 7 and c < 127`, unsigned (spec/42_cursor.md R110, R115). -/
def positionInRange (p c : Byte) : Bool := p.toNat ≤ pageMax && c.toNat < columnMax

/-- A page register as an operand byte: `zext_8(CUR_PAGE)` (spec/42_cursor.md R112). -/
def pageByte (p : Page) : Byte := p.setWidth 8

/-- The page register of an operand byte: `p[2:0]` (spec/42_cursor.md R110). -/
def byteToPage (p : Byte) : Page := p.setWidth 3

/-- The page step: a 3-bit add of 1, 7 wraps to 0 (spec/42_cursor.md R112, R115). -/
def nextPage (p : Page) : Page := p + 1

/-- The wrap test of `put_char`: `zext_9(CUR_COL) + FW > COLUMN_LENGTH`, a sum that cannot wrap (spec/43_text.md R120, R123). -/
def needsWrap (g : Config) (c : Byte) : Bool := columnLength < c.toNat + g.fontWidth

/-- `MemRead(FONT, a, 1)` (spec/20_memory.md R40). A well-formed Config has every byte that is read (notes/assumptions/19.md). -/
def fontByte (g : Config) (a : Nat) : Byte := g.font.getD a 0

/-- `BITMAP[r][c] = MemRead(BITMAP, r*128 + c, 1)` (spec/20_memory.md R41, notes/assumptions/19.md). -/
def bitmapByte (g : Config) (r c : Nat) : Byte := g.bitmap.getD (r * columnLength + c) 0

/-- The characters the Font Table covers: codes 0 to 127 (spec/43_text.md R122). -/
def inFont (b : Byte) : Bool := b.toNat ≤ 127

/-- The FW bytes of `glyph(b)`: the table's for a code 0 to 127, blank otherwise (spec/43_text.md R122). -/
def glyphBytes (g : Config) (b : Byte) : List Byte :=
  if inFont b then (List.range g.fontWidth).map fun i => fontByte g (b.toNat * g.fontWidth + i)
  else List.replicate g.fontWidth 0

/-- The bytes of row `r` of the bitmap, ascending column (spec/44_graphics.md R138). -/
def bitmapRow (g : Config) (r : Nat) : List Byte := (List.range columnLength).map (bitmapByte g r)

/-- The control byte of a kind (spec/40_framer.md R91). -/
def controlByte (g : Config) : Kind → Byte
  | .command => 0x00
  | .data => g.dataMarker

/-- The packets of one transaction, in wire order (spec/40_framer.md R92).
No parameters: the address. Otherwise each parameter by itself, preceded by the address only if
`CMD_ADDR_FIRST` and the kind is Command. -/
def packetsOf (g : Config) (t : Transaction) : List Packet :=
  match t.parameters with
  | [] => [⟨controlByte g t.kind, t.address⟩]
  | ps =>
    (if g.cmdAddrFirst && t.kind == .command then [⟨controlByte g t.kind, t.address⟩] else []) ++
      ps.map fun v => ⟨controlByte g t.kind, v⟩

/-- The column window transaction: `[column, COLUMN_MAX]` (spec/30_encoding.md R69, R70). -/
def columnWindow (g : Config) (column : Byte) : Transaction :=
  ⟨.command, g.opColumnWindow, [column, BitVec.ofNat 8 columnMax]⟩

/-- The page window transaction: `[page, PAGE_MAX]` (spec/30_encoding.md R69, R70). -/
def pageWindow (g : Config) (page : Byte) : Transaction :=
  ⟨.command, g.opPageWindow, [page, BitVec.ofNat 8 pageMax]⟩

/-- The pixel data transaction; its address is unused and fixed to 0x00 (spec/30_encoding.md R69, R71). -/
def pixelData (slice : Byte) : Transaction := ⟨.data, 0x00, [slice]⟩

/-- The transaction of one INIT step (spec/30_encoding.md R69, spec/41_init.md R101). -/
def initTransaction (k : InitStep) : Transaction := ⟨.command, k.address, k.parameters⟩

end Sys2Proof.Machine
end

