-- ==== Sys2Proof/Machine/Ops.lean ====
section
/-! DEFINITION. The shared operations: the print buffer, one transmission, sequencing, the abort on BusError, and the acceptance and end of an operation. -/

namespace Sys2Proof.Machine

/-! ### The print buffer -/

/-- The byte of MSG at an address. -/
def Memory.read : Memory → Nat → Byte
  | [], _ => blankByte
  | (k, v) :: m, a => if k = a then v else Memory.read m a

/-- MSG with one byte written, in canonical form. -/
def Memory.write : Memory → Nat → Byte → Memory
  | [], a, b => if b = blankByte then [] else [(a, b)]
  | (k, v) :: m, a, b =>
    if a < k then (if b = blankByte then (k, v) :: m else (a, b) :: (k, v) :: m)
    else if a = k then (if b = blankByte then m else (a, b) :: m)
    else (k, v) :: Memory.write m a b

/-- The canonical form: addresses strictly rising, no cell equal to what an unlisted address reads as. -/
def Memory.wf : Memory → Bool
  | [] => true
  | (k, v) :: m => v != blankByte && m.all (fun c => k < c.1) && Memory.wf m

/-- Every cell lies below a bound: MSG has PRINT_MAX bytes (spec/20_memory.md R42). -/
def Memory.below (bound : Nat) (m : Memory) : Bool := m.all fun c => c.1 < bound

/-- Stores payload bytes from position `j` on: byte j goes to MSG[j] if j < PRINT_MAX and is dropped otherwise
(spec/20_memory.md R42, spec/43_text.md R125). -/
def storePayload (bound : Nat) : Nat → List Byte → Memory → Memory
  | _, [], m => m
  | j, b :: bs, m => storePayload bound (j + 1) bs (if j < bound then Memory.write m j b else m)

/-- Reception of a message: its bytes into MSG from address 0 (spec/43_text.md R125). -/
def State.receive (payload : List Byte) (s : State) : State :=
  { s with mem := storePayload s.cfg.printMax 0 payload s.mem }

/-! ### The Cursor registers -/

/-- `CUR_PAGE <- p`. -/
def State.setPage (p : Page) (s : State) : State := { s with curPage := p }

/-- `CUR_COL <- c`. -/
def State.setCol (c : Byte) (s : State) : State := { s with curCol := c }

/-! ### The bus -/

/-- The transport's answer to the next transmission: scripted, or else the free value of this draw
(spec/20_memory.md R45, notes/assumptions/4.md). -/
def State.answer (s : State) : BusAnswer :=
  match s.answers with
  | a :: _ => a
  | [] => Config.busAnswer s.draws

/-- The environment after that answer. -/
def State.takeAnswer (s : State) : State :=
  match s.answers with
  | _ :: rest => { s with answers := rest }
  | [] => { s with draws := s.draws + 1 }

/-- An answered transmission enters the W-trace and is no longer in flight. -/
def State.record (p : Packet) (a : BusAnswer) (s : State) : State :=
  { s with wtrace := s.wtrace ++ [(p, a)], inFlight := none }

/-- A transmission the transport has not answered stays in flight (spec/70_reset_and_hazards.md R190). -/
def State.hold (p : Packet) (s : State) : State := { s with inFlight := some p }

/-- A transaction handed to the Framer enters the T-trace (spec/00_scope.md R14). -/
def State.noteTransaction (t : Transaction) (s : State) : State := { s with ttrace := s.ttrace ++ [t] }

/-! ### Sequencing -/

/-- How a piece of an operation ends: it ran to its last line, it was abandoned by BusError
(spec/60_exceptions.md R152), or it waits on a transmission that has no answer yet (spec/70_reset_and_hazards.md R190). -/
inductive Flow where
  | done
  | abandoned
  | waiting
  deriving DecidableEq, Repr

/-- A piece of an operation's body: the state it leaves and how it ended. -/
abbrev Act := State → State × Flow

/-- The next line runs only if the one before ended: BusError abandons every remaining line, at every level
(spec/60_exceptions.md R152, item 2). -/
def andThen (f g : Act) : Act := fun s =>
  match f s with
  | (t, .done) => g t
  | (t, .abandoned) => (t, .abandoned)
  | (t, .waiting) => (t, .waiting)

/-- `send(p)`: one transmission, attempted once, complete before anything else happens
(spec/00_scope.md R13, spec/20_memory.md R44, R50, spec/40_framer.md R95). -/
def send (p : Packet) : Act := fun s =>
  match s.answer with
  | .ok => (s.takeAnswer.record p .ok, .done)
  | .busError => (s.takeAnswer.record p .busError, .abandoned)
  | .silent => (s.takeAnswer.hold p, .waiting)

/-! ### The abort, and the acceptance and end of an operation -/

/-- The abort on BusError: BE set, other flags kept, BUSY cleared, every register write kept
(spec/60_exceptions.md R152, items 3 to 5). It is the block's one abnormal transfer, and nothing returns from it (R160). -/
def State.raiseBusError (s : State) : State := (s.setFlag .be).clearFlag .busy

/-- The acceptance of an operation: `STATUS <- 0x80` (spec/10_state.md R26). -/
def State.accept (s : State) : State := s.setStatus acceptedStatus

/-- The end of a host operation's body: BUSY cleared at its last line, the abort on BusError, BUSY kept while the
transport does not answer (spec/10_state.md R26, spec/60_exceptions.md R152, spec/70_reset_and_hazards.md R190). -/
def endOperation : State × Flow → State
  | (s, .done) => s.clearFlag .busy
  | (s, .abandoned) => s.raiseBusError
  | (s, .waiting) => s.setFlag .busy

/-- The end of an internal micro-operation: it returns to its caller and touches no flag, the abort on BusError
apart (spec/00_scope.md R13, spec/40_framer.md R92, notes/assumptions/11.md). -/
def endMicroOp : State × Flow → State
  | (s, .done) => s
  | (s, .abandoned) => s.raiseBusError
  | (s, .waiting) => s.setFlag .busy

end Sys2Proof.Machine
end

