-- ==== Sys2Proof/Machine/Program.lean ====
section
/-! DEFINITION. The bodies of the operations as programs: their lines, running them to the end, and the states they pass through on the way. -/

namespace Sys2Proof.Machine

/-- What the lines of the rules read. No rule reads STATUS (spec/10_state.md R25) or the answers
(spec/40_framer.md R92). -/
structure View where
  cfg : Config
  curPage : Page
  curCol : Byte
  mem : Memory

def State.view (s : State) : View where
  cfg := s.cfg
  curPage := s.curPage
  curCol := s.curCol
  mem := s.mem

/-- `MSG[j]` (spec/00_scope.md R13). -/
def View.msg (v : View) (j : Nat) : Byte := Memory.read v.mem j

/-- What one line of a rule writes, a transmission apart (spec/00_scope.md R13). -/
inductive Update where
  /-- `CUR_PAGE <- p`. -/
  | page (p : Page)
  /-- `CUR_COL <- c`. -/
  | col (c : Byte)
  /-- `STATUS.<flag> <- 1`. -/
  | flag (f : Flag)
  /-- The reception of a message into MSG (spec/20_memory.md R42). -/
  | receive (payload : List Byte)
  /-- A transaction handed to the Framer (spec/00_scope.md R14). -/
  | issue (t : Transaction)
  deriving DecidableEq, Repr

/-- A register write is effective at once (spec/00_scope.md R13). -/
def Update.apply : Update → State → State
  | .page p, s => s.setPage p
  | .col c, s => s.setCol c
  | .flag f, s => s.setFlag f
  | .receive payload, s => s.receive payload
  | .issue t, s => s.noteTransaction t

/-- A piece of an operation's body, as the pseudocode writes it. -/
inductive Prog where
  /-- No line. -/
  | skip
  /-- One register write. -/
  | line (u : Update)
  /-- `send(p)`. -/
  | send (p : Packet)
  /-- One piece, then another. -/
  | seq (a b : Prog)
  /-- Reads, and the piece that the values read give. -/
  | look (k : View → Prog)

/-- A piece run to its end, as far as the transport lets it. -/
def Prog.run : Prog → Act
  | .skip => fun s => (s, .done)
  | .line u => fun s => (u.apply s, .done)
  | .send p => Sys2Proof.Machine.send p
  | .seq a b => andThen a.run b.run
  | .look k => fun s => (k s.view).run s

/-- The states after each line of a piece that is complete, oldest first; a transmission without an answer is not
complete (spec/70_reset_and_hazards.md R195, "as the pseudocode has left them so far", notes/assumptions/6.md). -/
def Prog.trail : Prog → State → List State
  | .skip, _ => []
  | .line u, s => [u.apply s]
  | .send p, s =>
    match Sys2Proof.Machine.send p s with
    | (t, .done) => [t]
    | (t, .abandoned) => [t]
    | (_, .waiting) => []
  | .seq a b, s =>
    match a.run s with
    | (t, .done) => a.trail s ++ b.trail t
    | (_, .abandoned) => a.trail s
    | (_, .waiting) => a.trail s
  | .look k, s => (k s.view).trail s

/-- A bounded loop over fixed values, in order (spec/10_state.md R21). -/
def forEach {α : Type} (body : α → Prog) : List α → Prog
  | [] => .skip
  | a :: rest => .seq (body a) (forEach body rest)

/-- `write(t)`: the Framer sends the packets of a transaction in order (spec/40_framer.md R92).
It reads and writes no engine register (R90). -/
def write (t : Transaction) : Prog :=
  .seq (.line (.issue t)) (.look fun v => forEach .send (packetsOf v.cfg t))

/-- A host operation: accepted, run to its end, and answered with the state it leaves (spec/00_scope.md R2,
spec/10_state.md R26). The states on the way are `stages`. -/
def hostOperation (body : Prog) (s : State) : Host.Outcome State Fault Refusal :=
  .next (endOperation (body.run s.accept))

/-- An internal micro-operation, run by itself (notes/assumptions/11.md). -/
def microOperation (body : Prog) (s : State) : Host.Outcome State Fault Refusal :=
  .next (endMicroOp (body.run s))

end Sys2Proof.Machine
end

