-- ==== Sys2Proof/Machine/Framer.lean ====
section
/-! DEFINITION. The Transaction Framer's rows: `write`, the two wire packets, and the transactions the engine produces. -/

namespace Sys2Proof.Machine

/-- `write(kind, address, parameters)` (spec/40_framer.md R92). -/
def execWrite (kind : Kind) (address : Byte) (parameters : List Byte) (s : State) : Host.Outcome State Fault Refusal :=
  microOperation (write ⟨kind, address, parameters⟩) s

/-- PKT_COMMAND: one transmission of `[0x00, value]` (spec/30_encoding.md R66, spec/20_memory.md R44). -/
def execPktCommand (value : Byte) (s : State) : Host.Outcome State Fault Refusal :=
  microOperation (.send ⟨controlByte s.cfg .command, value⟩) s

/-- PKT_DATA: one transmission of `[DATA_MARKER, value]` (spec/30_encoding.md R66, R67, spec/20_memory.md R44). -/
def execPktData (value : Byte) (s : State) : Host.Outcome State Fault Refusal :=
  microOperation (.send ⟨controlByte s.cfg .data, value⟩) s

/-- TX_COLUMN_WINDOW (spec/30_encoding.md R69, spec/42_cursor.md R110). -/
def execTxColumnWindow (column : Byte) (s : State) : Host.Outcome State Fault Refusal :=
  microOperation (write (columnWindow s.cfg column)) s

/-- TX_PAGE_WINDOW (spec/30_encoding.md R69, spec/42_cursor.md R110). -/
def execTxPageWindow (page : Byte) (s : State) : Host.Outcome State Fault Refusal :=
  microOperation (write (pageWindow s.cfg page)) s

/-- TX_PIXEL_DATA (spec/30_encoding.md R69, R71). -/
def execTxPixelData (slice : Byte) (s : State) : Host.Outcome State Fault Refusal :=
  microOperation (write (pixelData slice)) s

/-- TX_INIT_01, display off (spec/41_init.md R101). -/
def execTxInit01 (s : State) : Host.Outcome State Fault Refusal :=
  microOperation (write (initTransaction s.cfg.initSeq.displayOff)) s

/-- TX_INIT_02, set offset (spec/41_init.md R101). -/
def execTxInit02 (s : State) : Host.Outcome State Fault Refusal :=
  microOperation (write (initTransaction s.cfg.initSeq.setOffset)) s

/-- TX_INIT_03, set start line (spec/41_init.md R101). -/
def execTxInit03 (s : State) : Host.Outcome State Fault Refusal :=
  microOperation (write (initTransaction s.cfg.initSeq.setStartLine)) s

/-- TX_INIT_04, enable charge pump (spec/41_init.md R101). -/
def execTxInit04 (s : State) : Host.Outcome State Fault Refusal :=
  microOperation (write (initTransaction s.cfg.initSeq.enableChargePump)) s

/-- TX_INIT_05, set addressing mode (spec/41_init.md R101). -/
def execTxInit05 (s : State) : Host.Outcome State Fault Refusal :=
  microOperation (write (initTransaction s.cfg.initSeq.setAddressingMode)) s

/-- TX_INIT_06, set contrast (spec/41_init.md R101). -/
def execTxInit06 (s : State) : Host.Outcome State Fault Refusal :=
  microOperation (write (initTransaction s.cfg.initSeq.setContrast)) s

/-- TX_INIT_07, enable full display (spec/41_init.md R101). -/
def execTxInit07 (s : State) : Host.Outcome State Fault Refusal :=
  microOperation (write (initTransaction s.cfg.initSeq.enableFullDisplay)) s

/-- TX_INIT_08, display on (spec/41_init.md R101). -/
def execTxInit08 (s : State) : Host.Outcome State Fault Refusal :=
  microOperation (write (initTransaction s.cfg.initSeq.displayOn)) s

/-- TX_INIT_09, disable hardware scroll (spec/41_init.md R101). -/
def execTxInit09 (s : State) : Host.Outcome State Fault Refusal :=
  microOperation (write (initTransaction s.cfg.initSeq.disableScroll)) s

/-- TX_INIT_10, display on again (spec/41_init.md R101). -/
def execTxInit10 (s : State) : Host.Outcome State Fault Refusal :=
  microOperation (write (initTransaction s.cfg.initSeq.displayOnAgain)) s

end Sys2Proof.Machine
end

