-- ==== Sys2Proof/Machine/Cursor.lean ====
section
/-! DEFINITION. The cursor operations SET_CURSOR and NEW_LINE and their internal bodies. -/

namespace Sys2Proof.Machine

/-- `CUR_PAGE <- p[2:0]`, then `CUR_COL <- c` (spec/42_cursor.md R110). -/
def placeCursor (p c : Byte) : Prog := .seq (.line (.page (byteToPage p))) (.line (.col c))

/-- `set_cursor(p, c)`: both windows, column first, then the Cursor; out of range only IGN (spec/42_cursor.md R110). -/
def setCursor (p c : Byte) : Prog :=
  if positionInRange p c then
    .look fun v => .seq (write (columnWindow v.cfg c)) (.seq (write (pageWindow v.cfg p)) (placeCursor p c))
  else .line (.flag .ign)

/-- `new_line()`: the page register first, then `set_cursor(page, 0)` (spec/42_cursor.md R112). -/
def newLine : Prog :=
  .seq (.look fun v => .line (.page (nextPage v.curPage))) (.look fun v => setCursor (pageByte v.curPage) 0)

/-- SET_CURSOR (spec/42_cursor.md R111). -/
def execSetCursor (page column : Byte) (s : State) : Host.Outcome State Fault Refusal :=
  hostOperation (setCursor page column) s

/-- NEW_LINE (spec/42_cursor.md R113). -/
def execNewLine (s : State) : Host.Outcome State Fault Refusal := hostOperation newLine s

end Sys2Proof.Machine
end

