-- ==== Sys2Proof/Machine/Graphics.lean ====
section
/-! DEFINITION. The graphics operations FILL and DRAW_BITMAP: raw data sweeps that do not move the Cursor. -/

namespace Sys2Proof.Machine

/-- Raw data transactions, one a byte, in order (spec/44_graphics.md R135, R138). -/
def sweep (slices : List Byte) : Prog := forEach (fun b => write (pixelData b)) slices

/-- How many data transactions FILL sends: COLUMN_LENGTH * PAGE_LENGTH (spec/44_graphics.md R135). -/
def fillCount : Nat := columnLength * pageLength

/-- FILL's body (spec/44_graphics.md R135). -/
def fillBody (pattern : Byte) : Prog := .seq (setCursor 0 0) (sweep (List.replicate fillCount pattern))

/-- One row of the bitmap, then `new_line()` (spec/44_graphics.md R138). -/
def bitmapLine (r : Nat) : Prog := .seq (.look fun v => sweep (bitmapRow v.cfg r)) newLine

/-- DRAW_BITMAP's body: the start may be ignored, the rows are sent all the same (spec/44_graphics.md R138, R140). -/
def drawBitmapBody (page column : Byte) : Prog :=
  .seq (setCursor page column) (.look fun v => forEach bitmapLine (List.range v.cfg.bitmapRows))

/-- FILL (spec/44_graphics.md R135). -/
def execFill (pattern : Byte) (s : State) : Host.Outcome State Fault Refusal := hostOperation (fillBody pattern) s

/-- DRAW_BITMAP (spec/44_graphics.md R138). -/
def execDrawBitmap (page column : Byte) (s : State) : Host.Outcome State Fault Refusal :=
  hostOperation (drawBitmapBody page column) s

end Sys2Proof.Machine
end

