-- ==== Sys2Proof/Machine/Init.lean ====
section
/-! DEFINITION. INIT, the power-on and configuration sequence, and the reserved opcodes. -/

namespace Sys2Proof.Machine

/-- `CUR_PAGE <- 0 ; CUR_COL <- 0` (spec/41_init.md R100). -/
def homeCursor : Prog := .seq (.line (.page 0)) (.line (.col 0))

/-- INIT's body: the Cursor first, then the ten steps (spec/41_init.md R100, R101). -/
def initBody : Prog :=
  .seq homeCursor (.look fun v => forEach (fun k => write (initTransaction k)) v.cfg.initSeq.steps)

/-- INIT (spec/41_init.md R100). -/
def execInit (s : State) : Host.Outcome State Fault Refusal := hostOperation initBody s

/-- A reserved opcode's body: `STATUS.ILL <- 1` (spec/30_encoding.md R64, spec/60_exceptions.md R157). -/
def reservedBody : Prog := .line (.flag .ill)

/-- A reserved opcode: consumed alone, no transmission, the Cursor unchanged, STATUS ends 0x10
(spec/30_encoding.md R64, spec/60_exceptions.md R157). -/
def execReserved (_opcode : Byte) (s : State) : Host.Outcome State Fault Refusal := hostOperation reservedBody s

end Sys2Proof.Machine
end

