-- ==== Sys2Proof/Machine/Text.lean ====
section
/-! DEFINITION. The text operations PUT_CHAR and PRINT: the character-to-bitmap font renderer. -/

namespace Sys2Proof.Machine

/-- `CUR_COL <- CUR_COL + 1` (spec/43_text.md R120). -/
def advanceCol : Prog := .look fun v => .line (.col (v.curCol + 1))

/-- The flag of the glyph lookup: UG for a byte 128 to 255 (spec/43_text.md R122). -/
def noteGlyph (b : Byte) : Prog := if inFont b then .skip else .line (.flag .ug)

/-- One slice: its transmission, then the column (spec/43_text.md R120). -/
def putSlice (slice : Byte) : Prog := .seq (write (pixelData slice)) advanceCol

/-- A glyph: lookup, then its FW slices in order (spec/43_text.md R120, R122). -/
def putGlyph (b : Byte) : Prog := .seq (noteGlyph b) (.look fun v => forEach putSlice (glyphBytes v.cfg b))

/-- `put_char(b)`: the newline test, then the wrap test, then the glyph (spec/43_text.md R120). -/
def putChar (b : Byte) : Prog :=
  .look fun v =>
    if b = v.cfg.newline then newLine
    else if needsWrap v.cfg v.curCol then .seq newLine (putGlyph b)
    else putGlyph b

/-- FO when LEN exceeds PRINT_MAX (spec/43_text.md R125, R126). -/
def noteOverflow (len : Nat) : Prog := .look fun v => if v.cfg.printMax < len then .line (.flag .fo) else .skip

/-- How many bytes PRINT renders: min(LEN, PRINT_MAX) (spec/43_text.md R125). -/
def renderedLength (g : Config) (len : Nat) : Nat := min len g.printMax

/-- The message taken in: its bytes in MSG, then the overflow flag (spec/43_text.md R125, R126). -/
def receiveMessage (payload : List Byte) : Prog := .seq (.line (.receive payload)) (noteOverflow payload.length)

/-- `put_char(MSG[j])` (spec/43_text.md R125). -/
def putStored (j : Nat) : Prog := .look fun v => putChar (v.msg j)

/-- PRINT's body: the message, then `put_char(MSG[j])` in order (spec/43_text.md R125). -/
def printBody (payload : List Byte) : Prog :=
  .seq (receiveMessage payload)
    (.look fun v => forEach putStored (List.range (renderedLength v.cfg payload.length)))

/-- PUT_CHAR (spec/43_text.md R121). -/
def execPutChar (char : Byte) (s : State) : Host.Outcome State Fault Refusal := hostOperation (putChar char) s

/-- PRINT (spec/43_text.md R125). -/
def execPrint (payload : List Byte) (s : State) : Host.Outcome State Fault Refusal :=
  hostOperation (printBody payload) s

end Sys2Proof.Machine
end

