-- ==== Sys2Proof/Machine/Dispatch.lean ====
section
/-! DEFINITION. One arm per constructor of Instr: its meaning. -/

namespace Sys2Proof.Machine

def exec (i : Instr) (s : State) : Host.Outcome State Fault Refusal :=
  match i with
  | .init => Sys2Proof.Machine.execInit s
  | .setCursor page column => Sys2Proof.Machine.execSetCursor page column s
  | .newLine => Sys2Proof.Machine.execNewLine s
  | .putChar char => Sys2Proof.Machine.execPutChar char s
  | .print payload => Sys2Proof.Machine.execPrint payload s
  | .fill pattern => Sys2Proof.Machine.execFill pattern s
  | .drawBitmap page column => Sys2Proof.Machine.execDrawBitmap page column s
  | .reserved opcode => Sys2Proof.Machine.execReserved opcode s
  | .write kind address parameters => Sys2Proof.Machine.execWrite kind address parameters s
  | .pktCommand value => Sys2Proof.Machine.execPktCommand value s
  | .pktData value => Sys2Proof.Machine.execPktData value s
  | .txColumnWindow column => Sys2Proof.Machine.execTxColumnWindow column s
  | .txPageWindow page => Sys2Proof.Machine.execTxPageWindow page s
  | .txPixelData slice => Sys2Proof.Machine.execTxPixelData slice s
  | .txInit01 => Sys2Proof.Machine.execTxInit01 s
  | .txInit02 => Sys2Proof.Machine.execTxInit02 s
  | .txInit03 => Sys2Proof.Machine.execTxInit03 s
  | .txInit04 => Sys2Proof.Machine.execTxInit04 s
  | .txInit05 => Sys2Proof.Machine.execTxInit05 s
  | .txInit06 => Sys2Proof.Machine.execTxInit06 s
  | .txInit07 => Sys2Proof.Machine.execTxInit07 s
  | .txInit08 => Sys2Proof.Machine.execTxInit08 s
  | .txInit09 => Sys2Proof.Machine.execTxInit09 s
  | .txInit10 => Sys2Proof.Machine.execTxInit10 s

end Sys2Proof.Machine
end

