-- ==== Sys2Proof/WellFormed.lean ====
section
/-! DEFINITION. Which terms of Instr stand for words of the encodings. -/

namespace Sys2Proof

/-- An opcode byte is reserved when it is not 0x01 to 0x07 (spec/30_encoding.md R64). -/
def reservedOpcode (op : Byte) : Bool := op.toNat == 0 || 8 ≤ op.toNat

/-- Well-formed instructions.
A PRINT payload has at most 255 bytes, since LEN is one byte (spec/30_encoding.md R65).
A reserved opcode is 0x00 or 0x08 to 0xFF (R64).
The produced windows start at a column 0 to 126 and a page 0 to 7 (R69, R70).
Operand bytes have no reserved values (R64), and the Framer's rule holds for any parameters (spec/40_framer.md R92). -/
def Instr.wellFormed : Instr → Bool
  | .print payload => payload.length ≤ 255
  | .reserved op => reservedOpcode op
  | .txColumnWindow column => column.toNat ≤ 126
  | .txPageWindow page => page.toNat ≤ 7
  | .init | .setCursor _ _ | .newLine | .putChar _ | .fill _ | .drawBitmap _ _ => true
  | .write _ _ _ | .pktCommand _ | .pktData _ | .txPixelData _ => true
  | .txInit01 | .txInit02 | .txInit03 | .txInit04 | .txInit05 => true
  | .txInit06 | .txInit07 | .txInit08 | .txInit09 | .txInit10 => true

end Sys2Proof
end

