-- ==== Sys2Proof/Decode.lean ====
section
/-! DEFINITION. The decoders of the host command stream and of the wire packet, the encoders written from the same tables, and the reading of an opcode-table word. -/

namespace Sys2Proof

/-- Why bytes are not an instruction.
`needMoreBytes`: the last byte of the command has not arrived (spec/30_encoding.md R60, R61).
`notTwoBytes`: a packet is exactly two bytes (spec/30_encoding.md R66).
`unknownControl`: the control byte is neither 0x00 nor `DATA_MARKER` (R66). -/
inductive DecodeError where
  | needMoreBytes
  | notTwoBytes
  | unknownControl
  deriving DecidableEq, Repr

/-- Format H1: one operand byte (spec/30_encoding.md R61). -/
def decodeH1 (make : Byte → Instr) : List Byte → Except DecodeError (Instr × List Byte)
  | a :: rest => .ok (make a, rest)
  | [] => .error .needMoreBytes

/-- Format H2: two operand bytes, A then B (spec/30_encoding.md R61). -/
def decodeH2 (make : Byte → Byte → Instr) : List Byte → Except DecodeError (Instr × List Byte)
  | a :: b :: rest => .ok (make a b, rest)
  | _ => .error .needMoreBytes

/-- Format HV: LEN, then LEN payload bytes whatever PRINT_MAX is (spec/30_encoding.md R61, R65). -/
def decodeHV (make : List Byte → Instr) : List Byte → Except DecodeError (Instr × List Byte)
  | len :: rest =>
    if len.toNat ≤ rest.length then .ok (make (rest.take len.toNat), rest.drop len.toNat)
    else .error .needMoreBytes
  | [] => .error .needMoreBytes

/-- The host command decoder: the first command of a byte stream, and the rest of the stream
(spec/30_encoding.md R60 to R65). Total: a reserved opcode is consumed alone (R64). -/
def decode : List Byte → Except DecodeError (Instr × List Byte)
  | [] => .error .needMoreBytes
  | op :: rest =>
    if op = 0x01 then .ok (.init, rest)
    else if op = 0x02 then decodeH2 .setCursor rest
    else if op = 0x03 then .ok (.newLine, rest)
    else if op = 0x04 then decodeH1 .putChar rest
    else if op = 0x05 then decodeHV .print rest
    else if op = 0x06 then decodeH1 .fill rest
    else if op = 0x07 then decodeH2 .drawBitmap rest
    else .ok (.reserved op, rest)

/-- The payload bytes of a PRINT among the bytes accepted so far: those after the opcode 0x05 and LEN (spec/30_encoding.md R61). -/
def payloadSoFar : List Byte → List Byte
  | op :: _ :: rest => if op = 0x05 then rest else []
  | _ => []

/-- The wire packet decoder: the kind is read from the first byte (spec/30_encoding.md R66, R67). -/
def decodePacket (marker : Byte) : List Byte → Except DecodeError Instr
  | [control, value] =>
    if control = 0x00 then .ok (.pktCommand value)
    else if control = marker then .ok (.pktData value)
    else .error .unknownControl
  | _ => .error .notTwoBytes

/-- The bytes the host writes to CMD for a command (spec/30_encoding.md R61, R63).
The internal rows have no host encoding: the empty list. -/
def encode : Instr → List Byte
  | .init => [0x01]
  | .setCursor page column => [0x02, page, column]
  | .newLine => [0x03]
  | .putChar char => [0x04, char]
  | .print payload => 0x05 :: BitVec.ofNat 8 payload.length :: payload
  | .fill pattern => [0x06, pattern]
  | .drawBitmap page column => [0x07, page, column]
  | .reserved op => [op]
  | .write _ _ _ | .pktCommand _ | .pktData _ | .txColumnWindow _ | .txPageWindow _ | .txPixelData _ => []
  | .txInit01 | .txInit02 | .txInit03 | .txInit04 | .txInit05 => []
  | .txInit06 | .txInit07 | .txInit08 | .txInit09 | .txInit10 => []

/-- The two bytes of a wire packet, control byte first (spec/30_encoding.md R66). Empty for what is not a packet. -/
def encodePacket (marker : Byte) : Instr → List Byte
  | .pktCommand value => [0x00, value]
  | .pktData value => [marker, value]
  | .init | .setCursor _ _ | .newLine | .putChar _ | .print _ | .fill _ | .drawBitmap _ _ | .reserved _ => []
  | .write _ _ _ | .txColumnWindow _ | .txPageWindow _ | .txPixelData _ => []
  | .txInit01 | .txInit02 | .txInit03 | .txInit04 | .txInit05 => []
  | .txInit06 | .txInit07 | .txInit08 | .txInit09 | .txInit10 => []

/-- The first bytes of a host command from a table word: byte 0 is bits 7..0, later bytes count on, and the bytes
above `nbits` are zero, as many as the longest command needs, a PRINT whose LEN is byte 1 (notes/assumptions/12.md). -/
def tableBytes (nbits w : Nat) : List Byte :=
  (List.range (nbits / 8)).map (byteAt w) ++ List.replicate (2 + (byteAt w 1).toNat) 0

/-- The two bytes of a packet from a table word.
The table writes a packet with byte 0 as the high byte (spec/opcode_table.json, note of PKT_COMMAND). -/
def tablePacket (w : Nat) : List Byte := [byteAt w 1, byteAt w 0]

/-- A table word of 16 bits is a wire packet, the only row with fixed bits 15..8, unless its bits 7..0 are the opcode
of a host command that has a second byte and fixed bits in the first only: PUT_CHAR, PRINT, FILL.
Any other width is the start of a host command (notes/assumptions/12.md). -/
def tableWordIsPacket (nbits w : Nat) : Bool :=
  nbits == 16 && byteAt w 0 != 0x04 && byteAt w 0 != 0x05 && byteAt w 0 != 0x06

/-- The bytes of the host command a table word starts, less those beyond the command. -/
def tableCommand (nbits w : Nat) : List Byte :=
  match decode (tableBytes nbits w) with
  | .ok (_, rest) => (tableBytes nbits w).take ((tableBytes nbits w).length - rest.length)
  | .error _ => []

/-- The instruction the decoders read from a table word (notes/assumptions/12.md). -/
def decodeTableWord (nbits w : Nat) : Option Instr :=
  if tableWordIsPacket nbits w then
    match decodePacket Config.chip.dataMarker (tablePacket w) with
    | .ok i => some i
    | .error _ => none
  else
    match decode (tableBytes nbits w) with
    | .ok (i, _) => some i
    | .error _ => none

end Sys2Proof
end

