-- ==== Sys2Proof/Machine/Stages.lean ====
section
/-! DEFINITION. The states an operation passes through, line by line, from its acceptance to its end. -/

namespace Sys2Proof.Machine

/-- The body of an instruction, the one its meaning runs. -/
def bodyOf : Instr → Prog
  | .init => initBody
  | .setCursor page column => setCursor page column
  | .newLine => newLine
  | .putChar char => putChar char
  | .print payload => printBody payload
  | .fill pattern => fillBody pattern
  | .drawBitmap page column => drawBitmapBody page column
  | .reserved _ => reservedBody
  | .write kind address parameters => write ⟨kind, address, parameters⟩
  | .pktCommand value => .look fun v => .send ⟨controlByte v.cfg .command, value⟩
  | .pktData value => .look fun v => .send ⟨controlByte v.cfg .data, value⟩
  | .txColumnWindow column => .look fun v => write (columnWindow v.cfg column)
  | .txPageWindow page => .look fun v => write (pageWindow v.cfg page)
  | .txPixelData slice => write (pixelData slice)
  | .txInit01 => .look fun v => write (initTransaction v.cfg.initSeq.displayOff)
  | .txInit02 => .look fun v => write (initTransaction v.cfg.initSeq.setOffset)
  | .txInit03 => .look fun v => write (initTransaction v.cfg.initSeq.setStartLine)
  | .txInit04 => .look fun v => write (initTransaction v.cfg.initSeq.enableChargePump)
  | .txInit05 => .look fun v => write (initTransaction v.cfg.initSeq.setAddressingMode)
  | .txInit06 => .look fun v => write (initTransaction v.cfg.initSeq.setContrast)
  | .txInit07 => .look fun v => write (initTransaction v.cfg.initSeq.enableFullDisplay)
  | .txInit08 => .look fun v => write (initTransaction v.cfg.initSeq.displayOn)
  | .txInit09 => .look fun v => write (initTransaction v.cfg.initSeq.disableScroll)
  | .txInit10 => .look fun v => write (initTransaction v.cfg.initSeq.displayOnAgain)

/-- The state in which an instruction's body starts: a host operation is accepted first (spec/10_state.md R26). -/
def bodyStart (i : Instr) (s : State) : State := if i.isHostCommand then s.accept else s

/-- The last lines of an instruction, after its body: BUSY cleared (spec/10_state.md R26); or the abort, BE set and then
BUSY cleared (spec/60_exceptions.md R152, item 4); or the transmission that holds the body
(spec/70_reset_and_hazards.md R190). -/
def endStages (host : Bool) : State × Flow → List State
  | (t, .done) => if host then [t.clearFlag .busy] else []
  | (t, .abandoned) => [t.setFlag .be, t.raiseBusError]
  | (t, .waiting) => [t.setFlag .busy]

/-- The states an instruction passes through from a state: its start, the state after each of its lines, and its end,
which is the state `exec` answers (spec/70_reset_and_hazards.md R195: "mid-operation values are as the pseudocode has left
them so far", notes/assumptions/6.md). -/
def stages (i : Instr) (s : State) : List State :=
  bodyStart i s :: ((bodyOf i).trail (bodyStart i s) ++ endStages i.isHostCommand ((bodyOf i).run (bodyStart i s)))

end Sys2Proof.Machine
end

