-- ==== Sys2Proof/Machine/Port.lean ====
section
/-! DEFINITION. The host's ports: the command stream, the register reads, the reset input, and what the next step has to do. -/

namespace Sys2Proof.Machine

/-- A host read of a register (spec/10_state.md R28): CMD reads 0x00, CUR_PAGE is zero-extended, and addresses
0x4 and above do not exist. -/
def readRegister (s : State) : Nat → Option Byte
  | 0 => some 0x00
  | 1 => some s.status
  | 2 => some (pageByte s.curPage)
  | 3 => some s.curCol
  | _ => none

/-- The reset input (spec/70_reset_and_hazards.md R180, R181): the operation and the packet in flight are discarded,
nothing is transmitted; the environment and the logs of the run are not the engine's and stay (notes/assumptions/14.md).
A transport may still answer that packet: see `idleEvent` and `busyEvent` (notes/assumptions/25.md). -/
def State.resetInput (s : State) : State :=
  { State.reset with
    cfg := s.cfg, ttrace := s.ttrace, wtrace := s.wtrace, host := s.host, readLog := s.readLog,
    answers := s.answers, draws := s.draws }

/-! ### Operations in progress -/

/-- An instruction that started in a state and has completed some of its lines, as the operation in progress. -/
def startedIn (i : Instr) (t : State) (lines : Nat) : Running where
  instr := i
  curPage := t.curPage
  curCol := t.curCol
  status := t.status
  mem := t.mem
  issued := t.ttrace.length
  sent := t.wtrace.length
  lines := lines

/-- The operation in progress, noted when its body waits and forgotten when it has ended: `t` is the state it started
from, `u` the state it stands in (spec/70_reset_and_hazards.md R180, R190).
The transmission that holds it is not complete, so its complete lines are one fewer than its stages. -/
def noteRunning (i : Instr) (t u : State) : State :=
  match u.inFlight with
  | none => { u with running := none }
  | some _ => { u with running := some (startedIn i t ((stages i t).length - 1)) }

/-- Where an instruction stands that runs from `t` and would end, or wait, in `u`: there, if nothing is done at the
ports before; else after the lines that have elapsed, if they are not all (spec/70_reset_and_hazards.md R195,
notes/assumptions/6.md). -/
def goOn (i : Instr) (limit : Option Nat) (t u : State) : State :=
  match limit with
  | none => noteRunning i t u
  | some n =>
    match (stages i t).drop n with
    | v :: _ :: _ => { v with running := some (startedIn i t n) }
    | [_] => noteRunning i t u
    | [] => noteRunning i t u

/-- The state from which an operation in progress goes on, with a late answer or none.
A body is a function of the state it started from and of the answers, so going on is running it from its start with
the answers it has had and then the late one (notes/assumptions/5.md, 6.md). -/
def State.replay (r : Running) (late : List BusAnswer) (s : State) : State :=
  { s with
    curPage := r.curPage
    curCol := r.curCol
    status := r.status
    mem := r.mem
    inFlight := none
    running := none
    ttrace := s.ttrace.take r.issued
    wtrace := s.wtrace.take r.sent
    answers := (s.wtrace.drop r.sent).map Prod.snd ++ late ++ s.answers }

/-! ### What the next step does -/

/-- The command bytes at the head of the host's actions, and what the host does after them. -/
def leadingBytes : List HostAction → List Byte × List HostAction
  | .cmd b :: rest => (b :: (leadingBytes rest).1, (leadingBytes rest).2)
  | .readReg a :: rest => ([], .readReg a :: rest)
  | .reset :: rest => ([], .reset :: rest)
  | .answer a :: rest => ([], .answer a :: rest)
  | .elapse n :: rest => ([], .elapse n :: rest)
  | [] => ([], [])

/-- How many lines elapse before the next thing is done at the ports, if that is said, and what is done then. -/
def takeElapse : List HostAction → Option Nat × List HostAction
  | .elapse n :: rest => (some n, rest)
  | .cmd b :: rest => (none, .cmd b :: rest)
  | .readReg a :: rest => (none, .readReg a :: rest)
  | .reset :: rest => (none, .reset :: rest)
  | .answer a :: rest => (none, .answer a :: rest)
  | [] => (none, [])

/-- Bytes of a command whose last byte has not arrived are accepted: BUSY is 1 from the first of them
(spec/10_state.md R26, spec/70_reset_and_hazards.md R186), and payload bytes go to MSG as they arrive (spec/20_memory.md R42). -/
def State.acceptBytes (bytes : List Byte) (s : State) : State :=
  ({ s with rx := bytes }.accept).receive (payloadSoFar bytes)

/-- What the next step does: run an instruction in a state, to its end or for a number of lines, move to a state, stop. -/
inductive Event where
  | run (i : Instr) (limit : Option Nat) (s : State)
  | settle (s : State)
  | fault (r : Fault)
  | refuse (r : Refusal)
  deriving DecidableEq, Repr

/-- An instruction starts, and runs to its end or for the lines that elapse before the next thing is done. -/
def startRun (i : Instr) (s : State) : Event :=
  .run i (takeElapse s.host).1 { s with host := (takeElapse s.host).2 }

/-- The operation in progress goes on, to its end or for the further lines that elapse. -/
def resumeRun (r : Running) (late : List BusAnswer) (s : State) : Event :=
  .run r.instr ((takeElapse s.host).1.map (r.lines + ·)) ({ s with host := (takeElapse s.host).2 }.replay r late)

/-- A register read by the host: its value is returned and nothing else changes (spec/20_memory.md R48). -/
def hostRead (a : Nat) (s : State) : Event :=
  match readRegister s a with
  | some v => .settle { s with readLog := s.readLog ++ [(a, v)] }
  | none => .fault (.noSuchRegister a)

/-- The command stream: the bytes kept and those just written.
A complete command leaves the stream and runs; an incomplete one is accepted and waits (spec/30_encoding.md R60). -/
def fetchCommand (s : State) : Event :=
  match decode (s.rx ++ (leadingBytes s.host).1) with
  | .ok (i, rest) => startRun i { s with rx := [], host := rest.map .cmd ++ (leadingBytes s.host).2 }
  | .error _ => .settle (State.acceptBytes (s.rx ++ (leadingBytes s.host).1) { s with host := (leadingBytes s.host).2 })

/-- A late answer: the operation in progress goes on (spec/20_memory.md R44, R45). -/
def lateAnswer (a : BusAnswer) (s : State) : Event :=
  match s.running with
  | some r => resumeRun r [a] s
  | none => .refuse .unsolicitedAnswer

/-- The next action while no body runs; without one the engine idles, and time that passes changes nothing.
An answer of the transport is refused. After a reset this holds also for the answer to the packet that the reset
discarded, of which the spec says nothing (spec/70_reset_and_hazards.md R181).
DESIGN CHOICE, unsafe (notes/assumptions/25.md). -/
def idleEvent (s : State) : Event :=
  match s.host with
  | [] => .settle s
  | .reset :: rest => .settle ({ s with host := rest }.resetInput)
  | .readReg a :: rest => hostRead a { s with host := rest }
  | .cmd _ :: _ => fetchCommand s
  | .answer _ :: _ => .refuse .unsolicitedAnswer
  | .elapse _ :: rest => .settle { s with host := rest }

/-- The next action while a body waits on the transport: reads, reset, and the transport's answer
(spec/70_reset_and_hazards.md R186, R190, R195); time that passes changes nothing.
An answer goes to the packet in flight. It is never taken for one to a packet that an earlier reset discarded, of which
the spec says nothing (spec/70_reset_and_hazards.md R181).
DESIGN CHOICE, unsafe (notes/assumptions/25.md). -/
def busyEvent (s : State) : Event :=
  match s.host with
  | [] => .settle s
  | .reset :: rest => .settle ({ s with host := rest }.resetInput)
  | .readReg a :: rest => hostRead a { s with host := rest }
  | .cmd _ :: _ => .refuse .commandWhileBusy
  | .answer a :: rest => lateAnswer a { s with host := rest }
  | .elapse _ :: rest => .settle { s with host := rest }

/-- The next action between two lines of the operation in progress: reads and reset, at any time
(spec/70_reset_and_hazards.md R186, R195, notes/assumptions/6.md); without one the operation goes on, to its end or for
the further lines that elapse. No transmission is unanswered here, so an answer of the transport is refused. -/
def betweenLinesEvent (r : Running) (s : State) : Event :=
  match s.host with
  | [] => resumeRun r [] s
  | .reset :: rest => .settle ({ s with host := rest }.resetInput)
  | .readReg a :: rest => hostRead a { s with host := rest }
  | .cmd _ :: _ => .refuse .commandWhileBusy
  | .answer _ :: _ => .refuse .unsolicitedAnswer
  | .elapse _ :: _ => resumeRun r [] s

/-- What the next step does. A body that waits comes first, then one between two of its lines, then an internal
micro-operation that is presented (notes/assumptions/11.md), then the host. -/
def nextEvent (s : State) : Event :=
  match s.inFlight with
  | some _ => busyEvent s
  | none =>
    match s.running with
    | some r => betweenLinesEvent r s
    | none =>
      match s.pending with
      | i :: rest => startRun i { s with pending := rest }
      | [] => idleEvent s

/-- The state with a table word's instruction where the next step fetches: a packet as a pending micro-operation,
a host command at the head of the command stream (notes/assumptions/12.md). -/
def State.placeTableWord (s : State) (nbits w : Nat) : State :=
  if tableWordIsPacket nbits w then
    { s with inFlight := none, running := none, pending := (decodeTableWord nbits w).toList ++ s.pending }
  else
    { s with inFlight := none, running := none, pending := [], rx := [], host := (tableCommand nbits w).map .cmd ++ s.host }

end Sys2Proof.Machine
end

