-- ==== Sys2Proof/Machine/Step.lean ====
section
/-! DEFINITION. One step of the machine: the next event, and the instruction it runs if it runs one. -/

namespace Sys2Proof.Machine

/-- One step: an instruction runs in the state the event gives, to its end or for the lines that elapse, and if it has
not ended then it is noted as the operation in progress (notes/assumptions/5.md, 6.md, 7.md). -/
def step (s : State) : Host.Outcome State Fault Refusal :=
  match nextEvent s with
  | .run i limit t =>
    match exec i t with
    | .next u => .next (goOn i limit t u)
    | .fault r => .fault r
    | .refused r => .refused r
  | .settle t => .next t
  | .fault r => .fault r
  | .refuse r => .refused r

/-- The state whose next step fetches and runs the instruction of a table word (notes/assumptions/12.md). -/
def State.withFetchWord (s : State) (nbits w : Nat) : State := s.placeTableWord nbits w

end Sys2Proof.Machine
end

