-- ==== Sys2Proof/Safety.lean ====
section
/-! DEFINITION. What counts as a sound state and a fair environment, in the terms the statements use. -/

namespace Sys2Proof.Machine

/-- The Cursor is in its legal range; the page register cannot leave it (spec/10_state.md R24). -/
def State.cursorLegal (s : State) : Prop := s.curPage.toNat ≤ pageMax ∧ s.curCol.toNat ≤ columnLength

/-- The print buffer is in canonical form and lies in its PRINT_MAX bytes (spec/20_memory.md R42, spec/43_text.md R126). -/
def State.bufferLegal (s : State) : Prop := Memory.wf s.mem = true ∧ Memory.below s.cfg.printMax s.mem = true

/-- What the operation in progress started from is legal (spec/10_state.md R24, spec/20_memory.md R42). -/
def State.startLegal (s : State) : Prop :=
  ∀ r, s.running = some r → r.curCol.toNat ≤ columnLength ∧ reservedBitsClear r.status = true ∧
    Memory.wf r.mem = true ∧ Memory.below s.cfg.printMax r.mem = true

/-- The parameters are well formed, the Cursor is legal, the reserved STATUS bits read 0, the print buffer is legal, and
so is what the operation in progress started from. -/
def State.registersLegal (s : State) : Prop :=
  s.cfg.wf = true ∧ s.cursorLegal ∧ reservedBitsClear s.status = true ∧ s.bufferLegal ∧ s.startLegal

/-- The ports are consistent: no micro-operation is presented from outside an operation, BUSY says that a command is
being received or an operation is in progress, never both, the bytes received are no whole command, a transmission is
unanswered only while an operation is in progress, and that is one the host issued
(spec/10_state.md R25, R26, spec/30_encoding.md R60, spec/70_reset_and_hazards.md R186, R190, R193). -/
def State.portsConsistent (s : State) : Prop :=
  s.pending = [] ∧
  (s.flag .busy = true ↔ s.rx ≠ [] ∨ s.running ≠ none) ∧
  (s.rx = [] ∨ s.running = none) ∧
  decode s.rx = .error .needMoreBytes ∧
  (s.inFlight ≠ none → s.running ≠ none) ∧
  ∀ r, s.running = some r → r.instr.isHostCommand = true

/-- The first `n` transmissions from here are answered ok. -/
def State.answersOk (s : State) (n : Nat) (rest : List BusAnswer) : Prop :=
  s.answers = List.replicate n .ok ++ rest

/-- Transmission `n` (from 0) is the first from here that is not answered ok, and it is answered BusError. -/
def State.failsAt (s : State) (n : Nat) (rest : List BusAnswer) : Prop :=
  s.answers = List.replicate n .ok ++ .busError :: rest

/-- Packets with the answer ok, as they stand in the W-trace. -/
def answered (ps : List Packet) : List (Packet × BusAnswer) := ps.map fun p => (p, .ok)

/-- The state after transactions `txs` were handed to the Framer and `es` were transmitted, with `rest` the answers
still to come. -/
def State.sent (s : State) (txs : List Transaction) (es : List (Packet × BusAnswer)) (rest : List BusAnswer) : State :=
  { s with ttrace := s.ttrace ++ txs, wtrace := s.wtrace ++ es, answers := rest, inFlight := none }

/-- The entries of a transmission sequence whose packet `n` (from 0) fails: those before it answered ok, then it,
and nothing after it (spec/60_exceptions.md R159). -/
def failedAt (ps : List Packet) (n : Nat) : List (Packet × BusAnswer) :=
  answered (ps.take n) ++ ((ps.drop n).take 1).map fun p => (p, .busError)

/-- The transactions begun when packet `n` (from 0) of their wire form fails: those before the failing packet's, and
the failing packet's own (spec/60_exceptions.md R152). -/
def begunAt (g : Config) : List Transaction → Nat → List Transaction
  | [], _ => []
  | t :: ts, n =>
    if n < (packetsOf g t).length then [t] else t :: begunAt g ts (n - (packetsOf g t).length)

/-- The two window transactions of `set_cursor(p, c)`, column first (spec/42_cursor.md R110). -/
def windowTransactions (g : Config) (p c : Byte) : List Transaction :=
  [⟨.command, g.opColumnWindow, [c, 0x7F]⟩, ⟨.command, g.opPageWindow, [p, 0x07]⟩]

/-- Their packets: `[00 c] [00 7F] [00 p] [00 07]`, each pair preceded by its opcode only with `CMD_ADDR_FIRST`
(spec/42_cursor.md R110, spec/95_test_vectors.md C1v and C2v). -/
def windowPackets (g : Config) (p c : Byte) : List Packet :=
  if g.cmdAddrFirst then
    [⟨0x00, g.opColumnWindow⟩, ⟨0x00, c⟩, ⟨0x00, 0x7F⟩, ⟨0x00, g.opPageWindow⟩, ⟨0x00, p⟩, ⟨0x00, 0x07⟩]
  else [⟨0x00, c⟩, ⟨0x00, 0x7F⟩, ⟨0x00, p⟩, ⟨0x00, 0x07⟩]

/-- The data transactions of some column-slice bytes, one each (spec/30_encoding.md R69). -/
def dataTransactions (slices : List Byte) : List Transaction := slices.map fun b => ⟨.data, 0x00, [b]⟩

/-- Their packets: `[DATA_MARKER b]` each (spec/30_encoding.md R66). -/
def dataPackets (g : Config) (slices : List Byte) : List Packet := slices.map fun b => ⟨g.dataMarker, b⟩

/-- The 128 bytes of row `r`: column `c` is byte `r*128 + c` of the Bitmap ROM (spec/20_memory.md R41, R46 d).
Written from the rule; no meaning runs it. -/
def romRow (g : Config) (r : Nat) : List Byte := (List.range 128).map fun c => g.bitmap.getD (r * 128 + c) 0

/-- The transactions of the bitmap's rows `rows` when the Cursor is on page `start` and the rows drawn before are as
many as the row's number: a row's data, then a new line (spec/44_graphics.md R138). -/
def bitmapTransactions (g : Config) (start : Page) (rows : List Nat) : List Transaction :=
  rows.flatMap fun r =>
    dataTransactions (romRow g r) ++ windowTransactions g (pageByte (start + BitVec.ofNat 3 (r + 1))) 0

/-- Their packets (spec/44_graphics.md R138). -/
def bitmapPackets (g : Config) (start : Page) (rows : List Nat) : List Packet :=
  rows.flatMap fun r =>
    dataPackets g (romRow g r) ++ windowPackets g (pageByte (start + BitVec.ofNat 3 (r + 1))) 0

/-- Instructions one after another, stopping at the first that does not answer a next state. -/
def execAll : List Instr → State → Host.Outcome State Fault Refusal
  | [], s => .next s
  | i :: is, s =>
    match exec i s with
    | .next t => execAll is t
    | .fault r => .fault r
    | .refused r => .refused r

/-- The flags a host operation may set (spec/41_init.md R100, spec/42_cursor.md R111, R113, spec/43_text.md R121, R125,
spec/44_graphics.md R135, R138, spec/30_encoding.md R64). The internal rows only abort (spec/40_framer.md R92). -/
def flagsOf : Instr → Byte
  | .init | .newLine | .fill _ => 0x01
  | .setCursor _ _ | .drawBitmap _ _ => 0x03
  | .putChar _ => 0x05
  | .print _ => 0x0D
  | .reserved _ => 0x10
  | .write _ _ _ | .pktCommand _ | .pktData _ | .txColumnWindow _ | .txPageWindow _ | .txPixelData _ => 0x01
  | .txInit01 | .txInit02 | .txInit03 | .txInit04 | .txInit05 => 0x01
  | .txInit06 | .txInit07 | .txInit08 | .txInit09 | .txInit10 => 0x01

/-- A window transaction: a column window from a column up to 126 to 0x7F, or a page window from a page up to 7 to 0x07
(spec/30_encoding.md R69, R70). -/
def isWindow (g : Config) (t : Transaction) : Prop :=
  (∃ column : Byte, column.toNat ≤ 126 ∧ t = ⟨.command, g.opColumnWindow, [column, 0x7F]⟩) ∨
    ∃ page : Byte, page.toNat ≤ 7 ∧ t = ⟨.command, g.opPageWindow, [page, 0x07]⟩

/-- A pixel data transaction (spec/30_encoding.md R69). -/
def isPixelData (t : Transaction) : Prop := ∃ slice, t = ⟨.data, 0x00, [slice]⟩

/-- An init step transaction (spec/30_encoding.md R69). -/
def isInitStep (g : Config) (t : Transaction) : Prop :=
  ∃ k ∈ g.initSeq.steps, t = ⟨.command, k.address, k.parameters⟩

/-- Which transactions an instruction issues: of the four shapes, but for the Framer's own row; a window transaction
that is run by itself carries its operand (spec/30_encoding.md R69, "issued by", R70, through the call graph of
spec/45_other_classes.md R142). -/
def issues (g : Config) : Instr → Transaction → Prop
  | .init, t => isInitStep g t
  | .setCursor _ _, t | .newLine, t => isWindow g t
  | .putChar _, t | .print _, t | .fill _, t | .drawBitmap _ _, t => isWindow g t ∨ isPixelData t
  | .reserved _, _ => False
  | .write kind address parameters, t => t = ⟨kind, address, parameters⟩
  | .pktCommand _, _ | .pktData _, _ => False
  | .txColumnWindow column, t => t = ⟨.command, g.opColumnWindow, [column, 0x7F]⟩
  | .txPageWindow page, t => t = ⟨.command, g.opPageWindow, [page, 0x07]⟩
  | .txPixelData slice, t => t = ⟨.data, 0x00, [slice]⟩
  | .txInit01, t | .txInit02, t | .txInit03, t | .txInit04, t | .txInit05, t => isInitStep g t
  | .txInit06, t | .txInit07, t | .txInit08, t | .txInit09, t | .txInit10, t => isInitStep g t

/-- The most transactions an instruction issues (spec/70_reset_and_hazards.md R194). -/
def maxTransactions (g : Config) : Instr → Nat
  | .init => 10
  | .setCursor _ _ | .newLine => 2
  | .putChar _ => 2 + g.fontWidth
  | .print payload => min payload.length g.printMax * (2 + g.fontWidth)
  | .fill _ => 2 + 1024
  | .drawBitmap _ _ => 2 + g.bitmapRows * (128 + 2)
  | .reserved _ => 0
  | .pktCommand _ | .pktData _ => 0
  | .write _ _ _ | .txColumnWindow _ | .txPageWindow _ | .txPixelData _ => 1
  | .txInit01 | .txInit02 | .txInit03 | .txInit04 | .txInit05 => 1
  | .txInit06 | .txInit07 | .txInit08 | .txInit09 | .txInit10 => 1

/-- The most transmissions an instruction makes with `CMD_ADDR_FIRST = false` (spec/70_reset_and_hazards.md R194). -/
def maxTransmissions (g : Config) : Instr → Nat
  | .init => (g.initSeq.steps.map fun k => max 1 k.parameters.length).sum
  | .setCursor _ _ | .newLine => 4
  | .putChar _ => 4 + g.fontWidth
  | .print payload => min payload.length g.printMax * (4 + g.fontWidth)
  | .fill _ => 4 + 1024
  | .drawBitmap _ _ => 4 + g.bitmapRows * (128 + 4)
  | .reserved _ => 0
  | .pktCommand _ | .pktData _ | .txPixelData _ => 1
  | .write _ _ parameters => max 1 parameters.length
  | .txColumnWindow _ | .txPageWindow _ => 2
  | .txInit01 => max 1 g.initSeq.displayOff.parameters.length
  | .txInit02 => max 1 g.initSeq.setOffset.parameters.length
  | .txInit03 => max 1 g.initSeq.setStartLine.parameters.length
  | .txInit04 => max 1 g.initSeq.enableChargePump.parameters.length
  | .txInit05 => max 1 g.initSeq.setAddressingMode.parameters.length
  | .txInit06 => max 1 g.initSeq.setContrast.parameters.length
  | .txInit07 => max 1 g.initSeq.enableFullDisplay.parameters.length
  | .txInit08 => max 1 g.initSeq.displayOn.parameters.length
  | .txInit09 => max 1 g.initSeq.disableScroll.parameters.length
  | .txInit10 => max 1 g.initSeq.displayOnAgain.parameters.length

/-- The host does not write CMD next (the action after the bytes of one burst). -/
def noByteNext (after : List HostAction) : Prop := (leadingBytes after).1 = []

end Sys2Proof.Machine
end

