-- ==== Sys2Proof/Certificates/Slice0/Obligations.lean ====
section
/-! DEFINITION. The statements for the provers, by family: encodings, Framer, INIT, cursor, text, graphics, reserved opcodes, the whole machine. -/

open Sys2Proof Sys2Proof.Machine

/-! ### Encodings -/

/-- The words of spec/30_encoding.md R61 and R63 decode to the operations they stand for. -/
def Obligations.OpcodeMapDecodes : Prop :=
  decode [0x01] = .ok (.init, []) ∧
  decode [0x02, 0x02, 0x0A] = .ok (.setCursor 0x02 0x0A, []) ∧
  decode [0x03] = .ok (.newLine, []) ∧
  decode [0x04, 0x41] = .ok (.putChar 0x41, []) ∧
  decode [0x05, 0x03, 0x41, 0x0A, 0x42] = .ok (.print [0x41, 0x0A, 0x42], []) ∧
  decode [0x06, 0xFF] = .ok (.fill 0xFF, []) ∧
  decode [0x07, 0x01, 0x00] = .ok (.drawBitmap 0x01 0x00, []) ∧
  decode [0x00] = .ok (.reserved 0x00, []) ∧
  decode [0x08] = .ok (.reserved 0x08, [])

/-- Decode after encode is the identity on every well-formed host command, whatever follows it in the stream
(spec/30_encoding.md R60 to R65). -/
def Obligations.HostCommandDecodeEncode : Prop :=
  ∀ (i : Instr) (rest : List Byte), i.isHostCommand = true → i.wellFormed = true →
    decode (encode i ++ rest) = .ok (i, rest)

/-- What the decoder reads is a well-formed host command, and the bytes it took are that command's encoding
(spec/30_encoding.md R61, R65). -/
def Obligations.HostCommandEncodeDecode : Prop :=
  ∀ (bytes : List Byte) (i : Instr) (rest : List Byte), decode bytes = .ok (i, rest) →
    i.isHostCommand = true ∧ i.wellFormed = true ∧ bytes = encode i ++ rest

/-- A packet's kind and value are read back from its two bytes when the marker is not 0x00 (spec/30_encoding.md R66, R67). -/
def Obligations.PacketDecodeEncode : Prop :=
  ∀ (marker value : Byte), marker ≠ 0x00 →
    decodePacket marker (encodePacket marker (.pktCommand value)) = .ok (.pktCommand value) ∧
    decodePacket marker (encodePacket marker (.pktData value)) = .ok (.pktData value)

/-! ### The Transaction Framer -/

/-- R91: 0x00 for Command, DATA_MARKER for Data, the same for every packet of one transaction. -/
def Obligations.ControlByteOfEveryPacket : Prop :=
  ∀ (g : Config) (t : Transaction) (p : Packet), p ∈ packetsOf g t →
    p.control = match t.kind with
      | .command => 0x00
      | .data => g.dataMarker

/-- R93: the number of transmissions of one transaction with every `send` answered ok, and the switch of this hardware. -/
def Obligations.TransmissionCount : Prop :=
  State.reset.cfg.cmdAddrFirst = false ∧
  ∀ (s : State) (kind : Kind) (address : Byte) (parameters : List Byte) (rest : List BusAnswer),
    s.answersOk (max 1 parameters.length +
      if s.cfg.cmdAddrFirst = true ∧ kind = .command ∧ 1 ≤ parameters.length then 1 else 0) rest →
    ∃ t, exec (.write kind address parameters) s = .next t ∧ t.answers = rest ∧
      t.wtrace.length = s.wtrace.length + (max 1 parameters.length +
        if s.cfg.cmdAddrFirst = true ∧ kind = .command ∧ 1 ≤ parameters.length then 1 else 0)

/-- R92: `write` with every packet answered ok sends exactly the packets of the rule, in order, and changes nothing but the
traces and the answers to come; when packet `n` is the first to fail, nothing is sent after it, no retry, and the abort
sets BE. -/
def Obligations.WriteSendsItsPackets : Prop :=
  (∀ (s : State) (kind : Kind) (address : Byte) (parameters : List Byte) (rest : List BusAnswer) (control : Byte)
    (packets : List Packet),
    control = (match kind with
      | .command => 0x00
      | .data => s.cfg.dataMarker) →
    packets = (if parameters = [] then [⟨control, address⟩]
      else (if s.cfg.cmdAddrFirst = true ∧ kind = .command then [⟨control, address⟩] else []) ++
        parameters.map fun v => ⟨control, v⟩) →
    s.answersOk packets.length rest →
    exec (.write kind address parameters) s =
      .next (s.sent [⟨kind, address, parameters⟩] (answered packets) rest)) ∧
  (∀ (s : State) (kind : Kind) (address : Byte) (parameters : List Byte) (n : Nat) (rest : List BusAnswer),
    n < (packetsOf s.cfg ⟨kind, address, parameters⟩).length → s.failsAt n rest →
    exec (.write kind address parameters) s =
      .next { s.sent [⟨kind, address, parameters⟩] (failedAt (packetsOf s.cfg ⟨kind, address, parameters⟩) n) rest with
        status := (s.status ||| 0x01) &&& 0x7F })

/-- One packet is one transmission of its two bytes, answered ok or BusError (spec/30_encoding.md R66, spec/20_memory.md R44).
That a packet runs by itself, and aborts as an operation does, is the model's choice (notes/assumptions/11.md). -/
def Obligations.PacketCompletesOrAborts : Prop :=
  ∀ (s : State) (value : Byte) (rest : List BusAnswer),
    (s.answers = .ok :: rest →
      exec (.pktCommand value) s = .next (s.sent [] [(⟨0x00, value⟩, .ok)] rest) ∧
      exec (.pktData value) s = .next (s.sent [] [(⟨s.cfg.dataMarker, value⟩, .ok)] rest)) ∧
    (s.answers = .busError :: rest →
      exec (.pktCommand value) s =
        .next { s.sent [] [(⟨0x00, value⟩, .busError)] rest with status := (s.status ||| 0x01) &&& 0x7F } ∧
      exec (.pktData value) s =
        .next { s.sent [] [(⟨s.cfg.dataMarker, value⟩, .busError)] rest with status := (s.status ||| 0x01) &&& 0x7F })

/-- The window and pixel transactions of spec/30_encoding.md R69, every packet answered ok.
That a transaction runs by itself is the model's choice (notes/assumptions/11.md). -/
def Obligations.WindowAndPixelTransactionsComplete : Prop :=
  ∀ (s : State) (b : Byte) (rest : List BusAnswer),
    (s.answersOk (if s.cfg.cmdAddrFirst then 3 else 2) rest →
      exec (.txColumnWindow b) s = .next (s.sent [⟨.command, s.cfg.opColumnWindow, [b, 0x7F]⟩]
        (answered ((if s.cfg.cmdAddrFirst then [⟨0x00, s.cfg.opColumnWindow⟩] else []) ++ [⟨0x00, b⟩, ⟨0x00, 0x7F⟩])) rest) ∧
      exec (.txPageWindow b) s = .next (s.sent [⟨.command, s.cfg.opPageWindow, [b, 0x07]⟩]
        (answered ((if s.cfg.cmdAddrFirst then [⟨0x00, s.cfg.opPageWindow⟩] else []) ++ [⟨0x00, b⟩, ⟨0x00, 0x07⟩])) rest)) ∧
    (s.answersOk 1 rest →
      exec (.txPixelData b) s = .next (s.sent [⟨.data, 0x00, [b]⟩] (answered [⟨s.cfg.dataMarker, b⟩]) rest))

/-- The ten init transactions, each its own step of INIT_SEQ, every packet answered ok (spec/41_init.md R101).
That a transaction runs by itself is the model's choice (notes/assumptions/11.md). -/
def Obligations.InitStepTransactionsComplete : Prop :=
  ∀ (s : State) (i : Instr) (k : InitStep) (rest : List BusAnswer),
    (i, k) ∈ [(.txInit01, s.cfg.initSeq.displayOff), (.txInit02, s.cfg.initSeq.setOffset),
      (.txInit03, s.cfg.initSeq.setStartLine), (.txInit04, s.cfg.initSeq.enableChargePump),
      (.txInit05, s.cfg.initSeq.setAddressingMode), (.txInit06, s.cfg.initSeq.setContrast),
      (.txInit07, s.cfg.initSeq.enableFullDisplay), (.txInit08, s.cfg.initSeq.displayOn),
      (.txInit09, s.cfg.initSeq.disableScroll), (.txInit10, s.cfg.initSeq.displayOnAgain)] →
    s.answersOk (packetsOf s.cfg ⟨.command, k.address, k.parameters⟩).length rest →
    exec i s = .next (s.sent [⟨.command, k.address, k.parameters⟩]
      (answered (packetsOf s.cfg ⟨.command, k.address, k.parameters⟩)) rest)

/-- The frame of the sixteen internal rows, whatever the transport answers: the Cursor, the parameters, the print
buffer, the command decoder and the host's side are unchanged, and STATUS is unchanged but for the abort (BE set, BUSY
cleared) or, while the transport does not answer, BUSY set (spec/40_framer.md R90, spec/10_state.md R30; the model's choice
for a row run by itself, notes/assumptions/11.md). -/
def Obligations.FramerRowsFrame : Prop :=
  ∀ (i : Instr) (s t : State), i.isHostCommand = false → exec i s = .next t →
    t.curPage = s.curPage ∧ t.curCol = s.curCol ∧ t.cfg = s.cfg ∧ (∀ a, Memory.read t.mem a = Memory.read s.mem a) ∧
    t.rx = s.rx ∧ t.host = s.host ∧ t.readLog = s.readLog ∧ t.pending = s.pending ∧ t.running = s.running ∧
    (t.status = s.status ∨ t.status = (s.status ||| 0x01) &&& 0x7F ∨
      (t.inFlight ≠ none ∧ t.status = s.status ||| 0x80))

/-! ### INIT -/

/-- R100: INIT's encoding; with every packet answered ok the Cursor is (0,0), the ten transactions of INIT_SEQ in order
and nothing else, STATUS 0x00; when packet `n` is the first to fail, no further transmission, the Cursor is (0,0) all the
same, STATUS 0x01. Every other field is unchanged. -/
def Obligations.InitRunsItsSequence : Prop :=
  (∀ rest, decode (0x01 :: rest) = .ok (.init, rest)) ∧
  (∀ (s : State) (rest : List BusAnswer) (txs : List Transaction),
    txs = s.cfg.initSeq.steps.map (fun k => ⟨.command, k.address, k.parameters⟩) →
    s.answersOk (txs.flatMap (packetsOf s.cfg)).length rest →
    txs.length = 10 ∧
    exec .init s = .next { s.sent txs (answered (txs.flatMap (packetsOf s.cfg))) rest with
      curPage := 0, curCol := 0, status := 0x00 }) ∧
  (∀ (s : State) (n : Nat) (rest : List BusAnswer) (txs : List Transaction),
    txs = s.cfg.initSeq.steps.map (fun k => ⟨.command, k.address, k.parameters⟩) →
    n < (txs.flatMap (packetsOf s.cfg)).length → s.failsAt n rest →
    exec .init s = .next { s.sent (begunAt s.cfg txs n) (failedAt (txs.flatMap (packetsOf s.cfg)) n) rest with
      curPage := 0, curCol := 0, status := 0x01 })

/-! ### The cursor operations -/

/-- R110, R111: SET_CURSOR's encoding; in range with every packet answered ok, both windows, column first, then the
Cursor, STATUS 0x00; out of range, no transmission, the Cursor unchanged, STATUS 0x02; when packet `n` is the first to
fail, the Cursor keeps its old value, STATUS 0x01. -/
def Obligations.SetCursorSetsOrIgnores : Prop :=
  (∀ p c rest, decode (0x02 :: p :: c :: rest) = .ok (.setCursor p c, rest)) ∧
  (∀ (s : State) (p c : Byte) (rest : List BusAnswer), p.toNat ≤ 7 → c.toNat ≤ 126 →
    s.answersOk (windowPackets s.cfg p c).length rest →
    exec (.setCursor p c) s =
      .next { s.sent (windowTransactions s.cfg p c) (answered (windowPackets s.cfg p c)) rest with
        curPage := BitVec.ofNat 3 p.toNat, curCol := c, status := 0x00 }) ∧
  (∀ (s : State) (p c : Byte), 7 < p.toNat ∨ 126 < c.toNat →
    exec (.setCursor p c) s = .next { s with status := 0x02 }) ∧
  (∀ (s : State) (p c : Byte) (n : Nat) (rest : List BusAnswer), p.toNat ≤ 7 → c.toNat ≤ 126 →
    n < (windowPackets s.cfg p c).length → s.failsAt n rest →
    exec (.setCursor p c) s =
      .next { s.sent (begunAt s.cfg (windowTransactions s.cfg p c) n) (failedAt (windowPackets s.cfg p c) n) rest with
        status := 0x01 })

/-- R112, R113: NEW_LINE's encoding; with every packet answered ok, the next page modulo 8 and column 0, STATUS 0x00; when
packet `n` is the first to fail, the page is already incremented, the column unchanged, STATUS 0x01. -/
def Obligations.NewLineStartsTheNextPage : Prop :=
  (∀ rest, decode (0x03 :: rest) = .ok (.newLine, rest)) ∧
  (∀ (s : State) (rest : List BusAnswer) (page : Byte), page = BitVec.ofNat 8 ((s.curPage.toNat + 1) % 8) →
    s.answersOk (windowPackets s.cfg page 0).length rest →
    exec .newLine s =
      .next { s.sent (windowTransactions s.cfg page 0) (answered (windowPackets s.cfg page 0)) rest with
        curPage := BitVec.ofNat 3 ((s.curPage.toNat + 1) % 8), curCol := 0, status := 0x00 }) ∧
  (∀ (s : State) (n : Nat) (rest : List BusAnswer) (page : Byte), page = BitVec.ofNat 8 ((s.curPage.toNat + 1) % 8) →
    n < (windowPackets s.cfg page 0).length → s.failsAt n rest →
    exec .newLine s =
      .next { s.sent (begunAt s.cfg (windowTransactions s.cfg page 0) n) (failedAt (windowPackets s.cfg page 0) n) rest with
        curPage := BitVec.ofNat 3 ((s.curPage.toNat + 1) % 8), status := 0x01 })

/-- Eight NEW_LINE operations with all answers ok end at the original page and column 0 (spec/42_cursor.md R114, derived
there from R112). -/
def Obligations.NewLineEightTimes : Prop :=
  ∀ (s : State) (rest : List BusAnswer), s.answersOk (8 * if s.cfg.cmdAddrFirst then 6 else 4) rest →
    ∃ t, execAll (List.replicate 8 .newLine) s = .next t ∧ t.curPage = s.curPage ∧ t.curCol = 0

/-! ### The text operations -/

/-- PUT_CHAR of the newline code is exactly NEW_LINE, whatever the transport answers: no glyph (spec/43_text.md R120). -/
def Obligations.PutCharNewlineIsNewLine : Prop :=
  ∀ (s : State), exec (.putChar s.cfg.newline) s = exec .newLine s ∧ ∃ t, exec (.putChar s.cfg.newline) s = .next t

/-- PUT_CHAR of a glyph that fits, every packet answered ok: FW data transactions and nothing else, slice `i` being byte
`b*FW + i` of the Font Table for a code up to 127 and 0x00 otherwise, in ascending order; the column advanced by FW, UG for
a byte 128 to 255 (spec/43_text.md R120, R122, R124, spec/20_memory.md R40, R46 c). A Font Table without that byte, which
no well-formed configuration has, reads 0x00 there: the model's choice (notes/assumptions/19.md). -/
def Obligations.PutCharFits : Prop :=
  ∀ (s : State) (b : Byte) (slices : List Byte) (rest : List BusAnswer), b ≠ s.cfg.newline → 1 ≤ s.cfg.fontWidth →
    slices = (List.range s.cfg.fontWidth).map (fun i =>
      if b.toNat ≤ 127 then s.cfg.font.getD (b.toNat * s.cfg.fontWidth + i) 0 else 0x00) →
    s.curCol.toNat + s.cfg.fontWidth ≤ 128 → s.answersOk s.cfg.fontWidth rest →
    exec (.putChar b) s =
      .next { s.sent (dataTransactions slices) (answered (dataPackets s.cfg slices)) rest with
        curCol := BitVec.ofNat 8 (s.curCol.toNat + s.cfg.fontWidth),
        status := if 128 ≤ b.toNat then 0x04 else 0x00 }

/-- PUT_CHAR of a glyph that does not fit, every packet answered ok: one new line, then the glyph; the Cursor ends at
the next page modulo 8 and column FW (spec/43_text.md R120, R122, R124, spec/20_memory.md R40; a byte beyond the Font
Table: notes/assumptions/19.md). -/
def Obligations.PutCharPreWraps : Prop :=
  ∀ (s : State) (b : Byte) (slices : List Byte) (rest : List BusAnswer) (page : Byte), b ≠ s.cfg.newline →
    1 ≤ s.cfg.fontWidth →
    slices = (List.range s.cfg.fontWidth).map (fun i =>
      if b.toNat ≤ 127 then s.cfg.font.getD (b.toNat * s.cfg.fontWidth + i) 0 else 0x00) →
    128 < s.curCol.toNat + s.cfg.fontWidth → page = BitVec.ofNat 8 ((s.curPage.toNat + 1) % 8) →
    s.answersOk ((windowPackets s.cfg page 0).length + s.cfg.fontWidth) rest →
    exec (.putChar b) s =
      .next { s.sent (windowTransactions s.cfg page 0 ++ dataTransactions slices)
          (answered (windowPackets s.cfg page 0 ++ dataPackets s.cfg slices)) rest with
        curPage := BitVec.ofNat 3 ((s.curPage.toNat + 1) % 8),
        curCol := BitVec.ofNat 8 s.cfg.fontWidth,
        status := if 128 ≤ b.toNat then 0x04 else 0x00 }

/-- PUT_CHAR whose slice `i` fails: the column has advanced by exactly `i` from where the glyph started, after the new
line if one was due, and the slices sent are the glyph's first `i + 1` (spec/43_text.md R120, R122, spec/20_memory.md R40,
spec/60_exceptions.md R153; a byte beyond the Font Table: notes/assumptions/19.md). -/
def Obligations.PutCharAbortAtSlice : Prop :=
  ∀ (s : State) (b : Byte) (slices : List Byte) (i : Nat) (rest : List BusAnswer) (page : Byte), b ≠ s.cfg.newline →
    i < s.cfg.fontWidth →
    slices = (List.range s.cfg.fontWidth).map (fun j =>
      if b.toNat ≤ 127 then s.cfg.font.getD (b.toNat * s.cfg.fontWidth + j) 0 else 0x00) →
    page = BitVec.ofNat 8 ((s.curPage.toNat + 1) % 8) →
    if s.curCol.toNat + s.cfg.fontWidth ≤ 128 then
      s.failsAt i rest →
      exec (.putChar b) s =
        .next { s.sent (dataTransactions (slices.take (i + 1)))
            (failedAt (dataPackets s.cfg slices) i) rest with
          curCol := BitVec.ofNat 8 (s.curCol.toNat + i),
          status := if 128 ≤ b.toNat then 0x05 else 0x01 }
    else
      s.failsAt ((windowPackets s.cfg page 0).length + i) rest →
      exec (.putChar b) s =
        .next { s.sent (windowTransactions s.cfg page 0 ++ dataTransactions (slices.take (i + 1)))
            (answered (windowPackets s.cfg page 0) ++ failedAt (dataPackets s.cfg slices) i) rest with
          curPage := BitVec.ofNat 3 ((s.curPage.toNat + 1) % 8),
          curCol := BitVec.ofNat 8 i,
          status := if 128 ≤ b.toNat then 0x05 else 0x01 }

/-- PUT_CHAR whose packet `n` of the pre-wrap fails: the page is incremented, the column is the old one, no slice is
sent and UG is not set (spec/43_text.md R120, spec/60_exceptions.md R153, R158). -/
def Obligations.PutCharAbortInPreWrap : Prop :=
  ∀ (s : State) (b : Byte) (n : Nat) (rest : List BusAnswer) (page : Byte), b ≠ s.cfg.newline →
    128 < s.curCol.toNat + s.cfg.fontWidth → page = BitVec.ofNat 8 ((s.curPage.toNat + 1) % 8) →
    n < (windowPackets s.cfg page 0).length → s.failsAt n rest →
    exec (.putChar b) s =
      .next { s.sent (begunAt s.cfg (windowTransactions s.cfg page 0) n) (failedAt (windowPackets s.cfg page 0) n) rest with
        curPage := BitVec.ofNat 3 ((s.curPage.toNat + 1) % 8), status := 0x01 }

/-- PRINT of no bytes sends nothing and moves nothing; STATUS ends 0x00 (spec/43_text.md R125, corner case a). -/
def Obligations.PrintOfNothing : Prop :=
  ∀ (s : State), exec (.print []) s = .next { s with status := 0x00 }

/-- PRINT renders the first PRINT_MAX payload bytes by `put_char`, in order, from the accepted state with the message
in MSG and FO as LEN says, whatever the transport answers (spec/43_text.md R125, spec/20_memory.md R42). -/
def Obligations.PrintRendersPayloadInOrder : Prop :=
  ∀ (s : State) (payload : List Byte), Memory.wf s.mem = true →
    exec (.print payload) s = .next (endOperation ((forEach putChar (payload.take s.cfg.printMax)).run
      { s with
        mem := storePayload s.cfg.printMax 0 payload s.mem
        status := if s.cfg.printMax < payload.length then 0x88 else 0x80 }))

/-- PRINT of a message that fits the line, has no newline and no more than PRINT_MAX bytes, every packet answered ok:
the glyphs one after another, each its Font Table bytes or blank, the column advanced by FW a character, UG if a byte is
128 to 255 (spec/43_text.md R122, R124, R125, spec/20_memory.md R40, R42; a byte beyond the Font Table:
notes/assumptions/19.md). -/
def Obligations.PrintOnOneLine : Prop :=
  ∀ (s : State) (payload slices : List Byte) (rest : List BusAnswer), Memory.wf s.mem = true → s.inFlight = none →
    slices = payload.flatMap (fun b => (List.range s.cfg.fontWidth).map fun i =>
      if b.toNat ≤ 127 then s.cfg.font.getD (b.toNat * s.cfg.fontWidth + i) 0 else 0x00) →
    payload.length ≤ s.cfg.printMax → 1 ≤ s.cfg.fontWidth → (∀ b ∈ payload, b ≠ s.cfg.newline) →
    s.curCol.toNat + payload.length * s.cfg.fontWidth ≤ 128 → s.answersOk (payload.length * s.cfg.fontWidth) rest →
    exec (.print payload) s =
      .next { s.sent (dataTransactions slices)
          (answered (dataPackets s.cfg slices)) rest with
        mem := storePayload s.cfg.printMax 0 payload s.mem
        curCol := BitVec.ofNat 8 (s.curCol.toNat + payload.length * s.cfg.fontWidth)
        status := if payload.any (fun b => 128 ≤ b.toNat) then 0x04 else 0x00 }

/-- A PRINT within PRINT_MAX that ends without BusError has the T-trace, the W-trace and the Cursor of its bytes as
PUT_CHAR operations, which then all complete (spec/43_text.md R127). -/
def Obligations.PrintEqualsPutChars : Prop :=
  ∀ (s t : State) (payload : List Byte), Memory.wf s.mem = true → payload.length ≤ s.cfg.printMax →
    s.inFlight = none → exec (.print payload) s = .next t → t.flag .be = false → t.inFlight = none →
    ∃ u, execAll (payload.map .putChar) s = .next u ∧ u.ttrace = t.ttrace ∧ u.wtrace = t.wtrace ∧
      u.curPage = t.curPage ∧ u.curCol = t.curCol

/-- R126: an over-long message is truncated: PRINT of it is PRINT of its first PRINT_MAX bytes with FO set, whatever
the transport answers, and nothing is written beyond MSG[PRINT_MAX - 1]. -/
def Obligations.PrintTruncatesAndSetsOverflow : Prop :=
  ∀ (s : State) (payload : List Byte), s.cfg.printMax < payload.length →
    ∃ t, exec (.print (payload.take s.cfg.printMax)) s = .next t ∧ t.flag .fo = false ∧
      exec (.print payload) s = .next (t.setFlag .fo) ∧
      ∀ a, s.cfg.printMax ≤ a → Memory.read t.mem a = Memory.read s.mem a

/-- What PRINT leaves in MSG, whatever the transport answers: payload byte `j` at address `j` below PRINT_MAX, and
every other byte as before (spec/20_memory.md R42). -/
def Obligations.PrintStoresMessage : Prop :=
  ∀ (s t : State) (payload : List Byte), Memory.wf s.mem = true → exec (.print payload) s = .next t →
    (∀ j b, payload[j]? = some b → j < s.cfg.printMax → Memory.read t.mem j = b) ∧
    (∀ a, ¬ (a < payload.length ∧ a < s.cfg.printMax) → Memory.read t.mem a = Memory.read s.mem a)

/-! ### The graphics operations -/

/-- R135: FILL's encoding; with every packet answered ok, the windows of (0,0), then 1024 data transactions of the pattern,
the Cursor at (0,0), STATUS 0x00; when packet `n` is the first to fail, no further transmission, the Cursor unchanged if
it is a window packet and (0,0) in the sweep, STATUS 0x01. -/
def Obligations.FillSweepsTheDisplay : Prop :=
  (∀ pattern rest, decode (0x06 :: pattern :: rest) = .ok (.fill pattern, rest)) ∧
  (∀ (s : State) (pattern : Byte) (rest : List BusAnswer),
    s.answersOk ((windowPackets s.cfg 0 0).length + 1024) rest →
    exec (.fill pattern) s =
      .next { s.sent (windowTransactions s.cfg 0 0 ++ dataTransactions (List.replicate 1024 pattern))
          (answered (windowPackets s.cfg 0 0 ++ dataPackets s.cfg (List.replicate 1024 pattern))) rest with
        curPage := 0, curCol := 0, status := 0x00 }) ∧
  (∀ (s : State) (pattern : Byte) (n : Nat) (rest : List BusAnswer) (txs : List Transaction) (packets : List Packet),
    txs = windowTransactions s.cfg 0 0 ++ dataTransactions (List.replicate 1024 pattern) →
    packets = windowPackets s.cfg 0 0 ++ dataPackets s.cfg (List.replicate 1024 pattern) →
    n < packets.length → s.failsAt n rest →
    exec (.fill pattern) s =
      .next { s.sent (begunAt s.cfg txs n) (failedAt packets n) rest with
        curPage := if n < (windowPackets s.cfg 0 0).length then s.curPage else 0,
        curCol := if n < (windowPackets s.cfg 0 0).length then s.curCol else 0,
        status := 0x01 })

/-- The counts of FILL, all answers ok, and when the N-th transmission is the first to fail (spec/44_graphics.md R136,
derived there from R135 and spec/40_framer.md R93). -/
def Obligations.FillCounts : Prop :=
  ∀ (s : State) (pattern : Byte) (rest : List BusAnswer),
    (s.answersOk (if s.cfg.cmdAddrFirst then 1030 else 1028) rest →
      ∃ t txs packets, exec (.fill pattern) s = .next t ∧ t.ttrace = s.ttrace ++ txs ∧
        t.wtrace = s.wtrace ++ packets ∧
        (txs.filter fun x => x.kind = .command).length = 2 ∧ (txs.filter fun x => x.kind = .data).length = 1024 ∧
        packets.length = if s.cfg.cmdAddrFirst then 1030 else 1028) ∧
    ∀ N, 1 ≤ N → N ≤ (if s.cfg.cmdAddrFirst then 1030 else 1028) → s.failsAt (N - 1) rest →
      ∃ t packets, exec (.fill pattern) s = .next t ∧ t.wtrace = s.wtrace ++ packets ∧ packets.length = N ∧
        (packets.filter fun e => e.2 = .ok).length = N - 1 ∧ t.status = 0x01

/-- DRAW_BITMAP from a start in range, every packet answered ok: the windows of the start, each row's 128 bytes and a
new line, the Cursor BITMAP_ROWS pages below the start at column 0; the data transaction of column `c` of row `r`, which
is number `r*128 + c` of them, carries byte `r*128 + c` of the Bitmap ROM (spec/44_graphics.md R138, spec/20_memory.md R41,
R46 d). A Bitmap ROM without that byte, which no well-formed configuration has, reads 0x00 there: the model's choice
(notes/assumptions/19.md). -/
def Obligations.DrawBitmapCompletes : Prop :=
  ∀ (s t : State) (p c : Byte) (rest : List BusAnswer) (start : Page), p.toNat ≤ 7 → c.toNat ≤ 126 →
    start = BitVec.ofNat 3 p.toNat →
    s.answersOk ((windowPackets s.cfg p c).length +
      (bitmapPackets s.cfg start (List.range s.cfg.bitmapRows)).length) rest →
    t = { s.sent (windowTransactions s.cfg p c ++ bitmapTransactions s.cfg start (List.range s.cfg.bitmapRows))
          (answered (windowPackets s.cfg p c ++ bitmapPackets s.cfg start (List.range s.cfg.bitmapRows))) rest with
        curPage := BitVec.ofNat 3 ((p.toNat + s.cfg.bitmapRows) % 8),
        curCol := if s.cfg.bitmapRows = 0 then c else 0,
        status := 0x00 } →
    exec (.drawBitmap p c) s = .next t ∧
    ∀ row column : Nat, row < s.cfg.bitmapRows → column < 128 →
      ((t.ttrace.drop s.ttrace.length).filter fun x => x.kind = .data)[row * 128 + column]? =
        some ⟨.data, 0x00, [s.cfg.bitmap.getD (row * 128 + column) 0]⟩

/-- DRAW_BITMAP from a start out of range, every packet answered ok: IGN, and the rows are sent all the same, from the
page the Cursor has, with the same bytes of the Bitmap ROM (spec/44_graphics.md R138, R140, spec/20_memory.md R41; a byte
beyond the ROM: notes/assumptions/19.md). -/
def Obligations.DrawBitmapWithRejectedStart : Prop :=
  ∀ (s : State) (p c : Byte) (rest : List BusAnswer), 7 < p.toNat ∨ 126 < c.toNat → s.inFlight = none →
    s.answersOk (bitmapPackets s.cfg s.curPage (List.range s.cfg.bitmapRows)).length rest →
    exec (.drawBitmap p c) s =
      .next { s.sent (bitmapTransactions s.cfg s.curPage (List.range s.cfg.bitmapRows))
          (answered (bitmapPackets s.cfg s.curPage (List.range s.cfg.bitmapRows))) rest with
        curPage := BitVec.ofNat 3 ((s.curPage.toNat + s.cfg.bitmapRows) % 8),
        curCol := if s.cfg.bitmapRows = 0 then s.curCol else 0,
        status := 0x02 }

/-- The counts of DRAW_BITMAP, all answers ok, start accepted or rejected, with `CMD_ADDR_FIRST = false`
(spec/44_graphics.md R139, derived there from R138 and spec/40_framer.md R93). -/
def Obligations.DrawBitmapCounts : Prop :=
  ∀ (s : State) (p c : Byte) (rest : List BusAnswer) (windows : Nat), s.cfg.cmdAddrFirst = false →
    windows = (if p.toNat ≤ 7 ∧ c.toNat ≤ 126 then 2 else 0) →
    s.answersOk (2 * windows + s.cfg.bitmapRows * (128 + 4)) rest →
    ∃ t txs packets, exec (.drawBitmap p c) s = .next t ∧ t.ttrace = s.ttrace ++ txs ∧
      t.wtrace = s.wtrace ++ packets ∧
      (txs.filter fun x => x.kind = .command).length = windows + 2 * s.cfg.bitmapRows ∧
      (txs.filter fun x => x.kind = .data).length = 128 * s.cfg.bitmapRows ∧
      packets.length = 2 * windows + s.cfg.bitmapRows * (128 + 4)

/-- DRAW_BITMAP with `CMD_ADDR_FIRST = false`, one packet failing. In the start's windows: the Cursor is unchanged.
In packet `k` of row `r` and its new line: the page counts the rows and new lines begun, from the start's page or, if the
start was ignored, from the old one; the column is 0 after row 0, and in row 0 the start's or, if ignored, the old one
(spec/44_graphics.md R138, spec/20_memory.md R41, spec/60_exceptions.md R153; a byte beyond the ROM:
notes/assumptions/19.md). -/
def Obligations.DrawBitmapAbortsAtFirstBusError : Prop :=
  ∀ (s : State) (p c : Byte) (rest : List BusAnswer), s.cfg.cmdAddrFirst = false →
    (∀ n, p.toNat ≤ 7 → c.toNat ≤ 126 → n < 4 → s.failsAt n rest →
      exec (.drawBitmap p c) s =
        .next { s.sent (begunAt s.cfg (windowTransactions s.cfg p c) n) (failedAt (windowPackets s.cfg p c) n) rest with
          status := 0x01 }) ∧
    ∀ (r k start page : Nat) (column : Byte) (windows : List Packet), r < s.cfg.bitmapRows → k < 132 →
      (if p.toNat ≤ 7 ∧ c.toNat ≤ 126 then start = p.toNat ∧ column = c ∧ windows = windowPackets s.cfg p c
        else start = s.curPage.toNat ∧ column = s.curCol ∧ windows = []) →
      page = start + r + (if k < 128 then 0 else 1) →
      s.failsAt (windows.length + r * 132 + k) rest →
      ∃ t, exec (.drawBitmap p c) s = .next t ∧
        t.status = (if p.toNat ≤ 7 ∧ c.toNat ≤ 126 then 0x01 else 0x03) ∧
        t.curPage = BitVec.ofNat 3 (page % 8) ∧ t.curCol = (if r = 0 then column else 0) ∧
        t.wtrace = s.wtrace ++ failedAt (windows ++
          bitmapPackets s.cfg (BitVec.ofNat 3 start) (List.range s.cfg.bitmapRows)) (windows.length + r * 132 + k)

/-! ### Reserved opcodes -/

/-- R157: a reserved opcode byte is consumed alone, nothing else happens, STATUS ends 0x10. -/
def Obligations.ReservedOpcodeOnlySetsIllegal : Prop :=
  ∀ (op : Byte), op.toNat = 0 ∨ 8 ≤ op.toNat →
    (∀ rest, decode (op :: rest) = .ok (.reserved op, rest)) ∧
    ∀ s : State, exec (.reserved op) s = .next { s with status := 0x10 }

/-! ### The whole machine -/

/-- The state after reset, of a run and by the reset input: the decoder waits for an opcode byte, no operation is in
progress, no transmission in flight; the W-trace of a run starts empty, the reset input transmits nothing and leaves the
ROMs (spec/70_reset_and_hazards.md R180, spec/10_state.md R33). That the W-trace of the run so far stays as it is at a
reset input is the model's choice (notes/assumptions/14.md). -/
def Obligations.ResetState : Prop :=
  (State.reset.curPage = 0 ∧ State.reset.curCol = 0 ∧ State.reset.status = 0x00 ∧ State.reset.rx = [] ∧
    State.reset.running = none ∧ State.reset.inFlight = none ∧ State.reset.wtrace = []) ∧
  ∀ s : State, s.resetInput.curPage = 0 ∧ s.resetInput.curCol = 0 ∧ s.resetInput.status = 0x00 ∧ s.resetInput.rx = [] ∧
    s.resetInput.running = none ∧ s.resetInput.inFlight = none ∧ s.resetInput.wtrace = s.wtrace ∧
    s.resetInput.cfg.font = s.cfg.font ∧ s.resetInput.cfg.bitmap = s.cfg.bitmap

/-- The reset input, at any time, between two lines of an operation too: the registers and the decoder as after reset,
the operation and the packet in flight
discarded, nothing transmitted, the parameters kept (spec/70_reset_and_hazards.md R180, R181; what the run's logs keep is the model's
choice, notes/assumptions/14.md). -/
def Obligations.ResetInputAtAnyTime : Prop :=
  ∀ (s : State) (after : List HostAction), s.host = .reset :: after →
    s.pending = [] ∨ s.inFlight ≠ none ∨ s.running ≠ none →
    ∃ t, step s = .next t ∧ t.curPage = 0 ∧ t.curCol = 0 ∧ t.status = 0x00 ∧ t.rx = [] ∧ t.inFlight = none ∧
      t.running = none ∧ t.pending = [] ∧ t.wtrace = s.wtrace ∧ t.ttrace = s.ttrace ∧ t.cfg = s.cfg ∧ t.host = after ∧
      t.answers = s.answers

/-- A step runs the decoded instruction. When the bytes received and the bytes the host writes next are together one
command, the step is its meaning, in the state whose decoder is empty and whose host has gone on; a micro-operation
that is presented runs first (spec/30_encoding.md R60). Around `exec` the step only notes where the operation in progress
stands, which changes nothing when none waits and nothing is done at the ports before its end
(spec/70_reset_and_hazards.md R180, R195). -/
def Obligations.StepRunsDecodedInstruction : Prop :=
  (∀ (s t : State) (i : Instr) (bytes : List Byte) (after : List HostAction), s.inFlight = none → s.running = none →
    s.pending = [] → bytes ≠ [] → s.host = bytes.map .cmd ++ after → decode (s.rx ++ bytes) = .ok (i, []) →
    t = { s with rx := [], host := (takeElapse after).2 } →
    ∃ u, exec i t = .next u ∧ step s = .next (goOn i (takeElapse after).1 t u) ∧
      ((takeElapse after).1 = none → u.inFlight = none → step s = exec i t)) ∧
  ∀ (s t : State) (i : Instr) (more : List Instr), s.inFlight = none → s.running = none → s.pending = i :: more →
    t = { s with pending := more, host := (takeElapse s.host).2 } →
    ∃ u, exec i t = .next u ∧ step s = .next (goOn i (takeElapse s.host).1 t u) ∧
      ((takeElapse s.host).1 = none → u.inFlight = none → step s = exec i t)

/-- When a command is complete and `n` of its lines elapse before the next thing is done at the ports, the step stands at
stage `n` of the operation, with no transmission unanswered and the host's next action at hand: a register read
(HostReadsRegisters) or the reset input (ResetInputAtAnyTime), for which the operation in progress is no hindrance
(spec/70_reset_and_hazards.md R195; how a moment is given is the model's choice, notes/assumptions/6.md). -/
def Obligations.OperationStandsBetweenLines : Prop :=
  ∀ (s t v : State) (i : Instr) (bytes : List Byte) (n : Nat) (after : List HostAction), s.inFlight = none →
    s.running = none → s.pending = [] → bytes ≠ [] → s.host = bytes.map .cmd ++ .elapse n :: after →
    decode (s.rx ++ bytes) = .ok (i, []) → t = { s with rx := [], host := after } →
    (stages i t)[n]? = some v → n + 1 < (stages i t).length →
    step s = .next { v with running := some (startedIn i t n) } ∧ v.inFlight = none ∧ v.host = after

/-- The stages of a host operation start at its acceptance and end where `exec` ends it; BUSY is 1 at every stage before
the last (spec/10_state.md R26, spec/70_reset_and_hazards.md R193, R195; what a stage is, is the model's choice,
notes/assumptions/6.md). -/
def Obligations.StagesLeadFromAcceptanceToEnd : Prop :=
  ∀ (i : Instr) (s : State), i.isHostCommand = true →
    (stages i s).head? = some { s with status := 0x80 } ∧
    (∃ u, exec i s = .next u ∧ (stages i s).getLast? = some u) ∧
    ∀ v ∈ (stages i s).dropLast, v.flag .busy = true

/-- Mid-operation values (spec/70_reset_and_hazards.md R195, "as the pseudocode has left them so far"). What one line is,
and so which moments there are, is the model's choice (notes/assumptions/6.md): among them the moment between the two
writes of INIT's one line `CUR_PAGE <- 0 ; CUR_COL <- 0`, and the moments before and after a flag is set.
A rejected SET_CURSOR passes through STATUS 0x82; an accepted one, every packet answered ok, through the new page with the
old column, and through the old Cursor before that; NEW_LINE and INIT write the page first; a reserved opcode passes
through STATUS 0x90. STATUS is 0x80 from acceptance, with the flags the rules set, and BUSY is cleared at the end
(spec/10_state.md R25, R26, spec/42_cursor.md R110, R111, R112, R113, spec/41_init.md R100, spec/30_encoding.md R64). -/
def Obligations.CursorStagesLineByLine : Prop :=
  (∀ (s : State) (p c : Byte), 7 < p.toNat ∨ 126 < c.toNat →
    stages (.setCursor p c) s = [{ s with status := 0x80 }, { s with status := 0x82 }, { s with status := 0x02 }]) ∧
  (∀ (s u : State) (p c : Byte) (rest : List BusAnswer), p.toNat ≤ 7 → c.toNat ≤ 126 →
    s.answersOk (windowPackets s.cfg p c).length rest →
    u = s.sent (windowTransactions s.cfg p c) (answered (windowPackets s.cfg p c)) rest →
    ∃ before, stages (.setCursor p c) s = before ++
        [{ u with curPage := BitVec.ofNat 3 p.toNat, status := 0x80 },
          { u with curPage := BitVec.ofNat 3 p.toNat, curCol := c, status := 0x80 },
          { u with curPage := BitVec.ofNat 3 p.toNat, curCol := c, status := 0x00 }] ∧
      ∀ v ∈ before, v.curPage = s.curPage ∧ v.curCol = s.curCol ∧ v.status = 0x80) ∧
  (∀ s : State, (stages .newLine s)[1]? =
    some { s with curPage := BitVec.ofNat 3 ((s.curPage.toNat + 1) % 8), status := 0x80 }) ∧
  (∀ s : State, (stages .init s)[1]? = some { s with curPage := 0, status := 0x80 } ∧
    (stages .init s)[2]? = some { s with curPage := 0, curCol := 0, status := 0x80 }) ∧
  ∀ (s : State) (op : Byte), stages (.reserved op) s =
    [{ s with status := 0x80 }, { s with status := 0x90 }, { s with status := 0x10 }]

/-- From each stage of an instruction to each later one the traces only grow: what was handed to the Framer or answered
stays (spec/20_memory.md R50; what a stage is, is the model's choice, notes/assumptions/6.md). -/
def Obligations.StagesOnlyAddToTraces : Prop :=
  ∀ (i : Instr) (s : State), (stages i s).Pairwise fun v w => v.wtrace <+: w.wtrace ∧ v.ttrace <+: w.ttrace

/-- What the host reads between two lines changes nothing: an operation that stood at stage `n`, with registers read there
or not, goes on to the end, or to the later stage, it would have had without (spec/20_memory.md R48,
spec/70_reset_and_hazards.md R195; how a moment is given is the model's choice, notes/assumptions/6.md). -/
def Obligations.PauseChangesNothing : Prop :=
  ∀ (i : Instr) (s t v : State) (n : Nat) (next : List HostAction) (reads : List (Nat × Byte)), s.inFlight = none →
    s.running = none → (stages i s)[n]? = some v → n + 1 < (stages i s).length →
    next = [] ∨ (∃ m after, next = .elapse m :: after) →
    t = { s with host := (takeElapse next).2, readLog := reads } →
    ∃ u, exec i t = .next u ∧
      step { v with running := some (startedIn i s n), host := next, readLog := reads } =
        .next (goOn i ((takeElapse next).1.map (n + ·)) t u)

/-- Bytes of a command whose last byte has not arrived are kept, STATUS is 0x80 from the first of them, and payload
bytes of a PRINT go to MSG, which the model does when they arrive (notes/assumptions/17.md) (spec/10_state.md R26, spec/70_reset_and_hazards.md R186, spec/20_memory.md R42). -/
def Obligations.IncompleteCommandWaits : Prop :=
  ∀ (s : State) (bytes : List Byte) (after : List HostAction) (e : DecodeError), s.inFlight = none →
    s.running = none → s.pending = [] → bytes ≠ [] → s.host = bytes.map .cmd ++ after → noByteNext after → decode (s.rx ++ bytes) = .error e →
    step s = .next { s with
      rx := s.rx ++ bytes
      host := after
      status := 0x80
      mem := storePayload s.cfg.printMax 0 (payloadSoFar (s.rx ++ bytes)) s.mem }

/-- The host register map: CMD reads 0x00, STATUS, CUR_PAGE zero-extended, CUR_COL; a read changes nothing else, at any
time, between two lines of an operation too; addresses 0x4 and above do not exist, and the model faults there (notes/assumptions/9.md) (spec/10_state.md R27, R28, spec/20_memory.md R48, spec/70_reset_and_hazards.md R195). -/
def Obligations.HostReadsRegisters : Prop :=
  ∀ (s : State) (a : Nat) (after : List HostAction), s.host = .readReg a :: after →
    s.pending = [] ∨ s.inFlight ≠ none ∨ s.running ≠ none →
    step s = match a with
      | 0 => .next { s with host := after, readLog := s.readLog ++ [(0, 0x00)] }
      | 1 => .next { s with host := after, readLog := s.readLog ++ [(1, s.status)] }
      | 2 => .next { s with host := after, readLog := s.readLog ++ [(2, BitVec.ofNat 8 s.curPage.toNat)] }
      | 3 => .next { s with host := after, readLog := s.readLog ++ [(3, s.curCol)] }
      | _ => .fault (.noSuchRegister a)

/-- While a transmission is unanswered the operation does not end: with nothing done at the ports, or only time passing,
nothing changes. A byte written to CMD has no step then, nor between two lines of an operation. While no transmission is
unanswered an answer of the transport has none either (spec/70_reset_and_hazards.md R186, R190, spec/20_memory.md R44; the
model's names for the stops are notes/assumptions/5.md and 8.md, and that the answer to a packet that a reset discarded is
refused too is its choice, notes/assumptions/25.md). -/
def Obligations.UnansweredTransmissionHoldsTheEngine : Prop :=
  (∀ (s : State), s.inFlight ≠ none →
    (s.host = [] → step s = .next s) ∧
    (∀ n after, s.host = .elapse n :: after → step s = .next { s with host := after }) ∧
    ∀ b after, s.host = .cmd b :: after → step s = .refused .commandWhileBusy) ∧
  (∀ (s : State) (b : Byte) (after : List HostAction), s.running ≠ none →
    s.host = .cmd b :: after → step s = .refused .commandWhileBusy) ∧
  ∀ (s : State) (a : BusAnswer) (after : List HostAction), s.inFlight = none → s.running ≠ none ∨ s.pending = [] →
    s.host = .answer a :: after → step s = .refused .unsolicitedAnswer

/-- A late answer acts as a prompt one. When an operation waits on a transmission and the transport then answers `a`,
the step ends, or stands at the stage, where the operation would have from its start with `a` in the place of the silence
(spec/20_memory.md R44, spec/70_reset_and_hazards.md R190; how a late answer is given is the model's choice,
notes/assumptions/5.md, 6.md). -/
def Obligations.LateAnswerActsAsPrompt : Prop :=
  ∀ (s t u : State) (i : Instr) (past rest : List BusAnswer) (a : BusAnswer) (after : List HostAction),
    s.inFlight = none → s.running = none → s.answers = past ++ .silent :: rest → exec i s = .next u →
    u.inFlight ≠ none → u.answers = rest →
    t = { s with answers := past ++ a :: rest, host := (takeElapse after).2 } →
    ∃ v, exec i t = .next v ∧
      step { noteRunning i s u with host := .answer a :: after } =
        .next (goOn i ((takeElapse after).1.map ((stages i s).length - 1 + ·)) t v)

/-- With a late answer an operation goes on from where it stood: what it had issued and transmitted stays
(spec/20_memory.md R50). -/
def Obligations.LateAnswerOnlyAdds : Prop :=
  ∀ (s u v : State) (i : Instr) (past rest : List BusAnswer) (a : BusAnswer),
    s.inFlight = none → s.answers = past ++ .silent :: rest → exec i s = .next u →
    u.inFlight ≠ none → u.answers = rest → exec i { s with answers := past ++ a :: rest } = .next v →
    u.wtrace <+: v.wtrace ∧ u.ttrace <+: v.ttrace

/-- The Cursor invariant of spec/10_state.md R24 (derived there), for every step from every state that meets it: the
Cursor stays in its range; with it the
reserved STATUS bits stay 0 and the print buffer stays in canonical form within its PRINT_MAX bytes, here and in what
an operation in progress started from. -/
def Obligations.StepKeepsRegistersLegal : Prop :=
  ∀ (s t : State), s.registersLegal → step s = .next t → t.registersLegal

/-- BUSY is 1 exactly while a command is being received or an operation is in progress, never both, a transmission is
unanswered only while an operation of the host is in progress, and no micro-operation appears from anywhere (the list of
presented ones is the model's own, notes/assumptions/11.md): kept by every step
(spec/10_state.md R25, R26, spec/70_reset_and_hazards.md R180, R186, R193). -/
def Obligations.StepKeepsPortsConsistent : Prop :=
  ∀ (s t : State), s.portsConsistent → step s = .next t → t.portsConsistent

/-- The state after reset meets both invariants. -/
def Obligations.ResetMeetsInvariants : Prop := State.reset.registersLegal ∧ State.reset.portsConsistent

/-- The ROMs and every other parameter are constants: no step changes them (spec/20_memory.md R40, R41, spec/10_state.md R32). -/
def Obligations.StepKeepsParameters : Prop :=
  ∀ (s t : State), step s = .next t → t.cfg = s.cfg

/-- Every step that does not go on with an operation in progress only adds to the end of the traces and of the read
log: nothing sent is reordered, dropped or undone (spec/20_memory.md R50). Of a step that goes on with one, LateAnswerOnlyAdds,
StagesOnlyAddToTraces and PauseChangesNothing say the same. That the reset input too keeps the W-trace, the T-trace and the
read log of the run so far is the model's choice, which no rule of the spec states (DESIGN CHOICE, notes/assumptions/14.md);
the read log is the model's own record (notes/assumptions/7.md). -/
def Obligations.StepExtendsTraces : Prop :=
  ∀ (s t : State),
    (s.running = none ∨ (s.inFlight ≠ none ∧ ∀ a after, s.host ≠ .answer a :: after) ∨
      (∃ a after, s.host = .readReg a :: after) ∨ ∃ after, s.host = .reset :: after) →
    step s = .next t → s.wtrace <+: t.wtrace ∧ s.ttrace <+: t.ttrace ∧ s.readLog <+: t.readLog

/-- What a host operation puts on the wire is the Framer's expansion of its transactions, in order: all of it if the
operation ends; up to and including the failing packet, which is then the last and the only one not answered ok, if
it aborts; up to the packet in flight, with BUSY still 1, if the transport does not answer
(spec/00_scope.md R14, spec/60_exceptions.md R152, R159, spec/70_reset_and_hazards.md R190). -/
def Obligations.WireTraceIsFramerExpansion : Prop :=
  ∀ (i : Instr) (s t : State), i.isHostCommand = true → s.inFlight = none → exec i s = .next t →
    ∃ txs, t.ttrace = s.ttrace ++ txs ∧
      ((t.flag .be = false ∧ t.flag .busy = false ∧ t.inFlight = none ∧
          t.wtrace = s.wtrace ++ answered (txs.flatMap (packetsOf s.cfg))) ∨
       (t.flag .be = true ∧ t.flag .busy = false ∧ t.inFlight = none ∧
          ∃ before tx sent p, txs = before ++ [tx] ∧ sent ++ [p] <+: packetsOf s.cfg tx ∧
            t.wtrace = s.wtrace ++ answered (before.flatMap (packetsOf s.cfg) ++ sent) ++ [(p, .busError)]) ∨
       (t.flag .be = false ∧ t.flag .busy = true ∧
          ∃ before tx sent p, txs = before ++ [tx] ∧ sent ++ [p] <+: packetsOf s.cfg tx ∧
            t.inFlight = some p ∧ t.wtrace = s.wtrace ++ answered (before.flatMap (packetsOf s.cfg) ++ sent)))

/-- R69: which transactions an instruction issues; a host operation issues none but the four shapes, each only by the
operations the rule names, and no window that starts beyond column 126 or page 7 (spec/30_encoding.md R70,
spec/70_reset_and_hazards.md R189, spec/93_implementation_defined.md U3). -/
def Obligations.TransactionsHaveProducedShapes : Prop :=
  ∀ (i : Instr) (s t : State), exec i s = .next t →
    ∃ txs, t.ttrace = s.ttrace ++ txs ∧ ∀ x ∈ txs, issues s.cfg i x

/-- The frame of the eight host operations, whatever the transport answers: the parameters, the command decoder and
the host's side are unchanged, and so is every byte of MSG but those a PRINT stores (spec/10_state.md R30, R32,
spec/20_memory.md R42); only PRINT, PUT_CHAR, INIT, SET_CURSOR, NEW_LINE, FILL and DRAW_BITMAP may move the Cursor. -/
def Obligations.HostOperationFrame : Prop :=
  ∀ (i : Instr) (s t : State), i.isHostCommand = true → exec i s = .next t →
    t.cfg = s.cfg ∧ t.rx = s.rx ∧ t.host = s.host ∧ t.readLog = s.readLog ∧ t.pending = s.pending ∧
    t.running = s.running ∧
    (∀ op, i = .reserved op → t.curPage = s.curPage ∧ t.curCol = s.curCol) ∧
    ∀ a, (∀ payload, i = .print payload → ¬ (a < payload.length ∧ a < s.cfg.printMax)) →
      Memory.read t.mem a = Memory.read s.mem a

/-- STATUS after a host operation: only the flags of that operation can be set, whatever was set before, and BUSY is 1
only if a transmission is unanswered (spec/10_state.md R25, R26, spec/60_exceptions.md R150). -/
def Obligations.FlagsArePerOperation : Prop :=
  ∀ (i : Instr) (s t : State), i.isHostCommand = true → s.inFlight = none → exec i s = .next t →
    t.status &&& ~~~ (flagsOf i ||| 0x80) = 0 ∧ (t.flag .busy = true ↔ t.inFlight ≠ none)

/-- The flags never change what a host operation does (spec/10_state.md R25). -/
def Obligations.HostOperationIgnoresStatus : Prop :=
  ∀ (i : Instr) (s : State) (v : Byte), i.isHostCommand = true → exec i { s with status := v } = exec i s

/-- No operation issues more transactions or, with `CMD_ADDR_FIRST = false`, makes more transmissions than its bound, and
every operation ends, or waits on the transport, in its step (spec/70_reset_and_hazards.md R194, derived there). -/
def Obligations.OperationsAreBounded : Prop :=
  ∀ (i : Instr) (s : State), ∃ t, exec i s = .next t ∧
    t.ttrace.length ≤ s.ttrace.length + maxTransactions s.cfg i ∧
    (s.cfg.cmdAddrFirst = false → t.wtrace.length ≤ s.wtrace.length + maxTransmissions s.cfg i)
end

