-- ==== Sys2Proof/Laws/State.lean ====
section
/-! SUPPORT. What each update of State does to each field, so that no proof unfolds an update. -/

namespace Sys2Proof.Machine

/-- The state after the lookup of a glyph: UG for a byte outside the font (spec/43_text.md R122). -/
def State.afterGlyph (b : Byte) (s : State) : State := if inFont b then s else s.setFlag .ug

/-- The state after a message is taken in: its bytes in MSG, FO if there are too many (spec/43_text.md R125, R126). -/
def State.afterMessage (bs : List Byte) (s : State) : State :=
  if s.cfg.printMax < bs.length then (s.receive bs).setFlag .fo else s.receive bs

variable (s : State)

/-! ### setFlag -/

@[simp] theorem State.setFlag_cfg (f : Flag) : (State.setFlag f s).cfg = s.cfg := rfl
@[simp] theorem State.setFlag_curPage (f : Flag) : (State.setFlag f s).curPage = s.curPage := rfl
@[simp] theorem State.setFlag_curCol (f : Flag) : (State.setFlag f s).curCol = s.curCol := rfl
@[simp] theorem State.setFlag_status (f : Flag) : (State.setFlag f s).status = s.status ||| flagMask f := rfl
@[simp] theorem State.setFlag_mem (f : Flag) : (State.setFlag f s).mem = s.mem := rfl
@[simp] theorem State.setFlag_rx (f : Flag) : (State.setFlag f s).rx = s.rx := rfl
@[simp] theorem State.setFlag_inFlight (f : Flag) : (State.setFlag f s).inFlight = s.inFlight := rfl
@[simp] theorem State.setFlag_running (f : Flag) : (State.setFlag f s).running = s.running := rfl
@[simp] theorem State.setFlag_ttrace (f : Flag) : (State.setFlag f s).ttrace = s.ttrace := rfl
@[simp] theorem State.setFlag_wtrace (f : Flag) : (State.setFlag f s).wtrace = s.wtrace := rfl
@[simp] theorem State.setFlag_host (f : Flag) : (State.setFlag f s).host = s.host := rfl
@[simp] theorem State.setFlag_readLog (f : Flag) : (State.setFlag f s).readLog = s.readLog := rfl
@[simp] theorem State.setFlag_answers (f : Flag) : (State.setFlag f s).answers = s.answers := rfl
@[simp] theorem State.setFlag_draws (f : Flag) : (State.setFlag f s).draws = s.draws := rfl
@[simp] theorem State.setFlag_pending (f : Flag) : (State.setFlag f s).pending = s.pending := rfl

/-! ### clearFlag -/

@[simp] theorem State.clearFlag_cfg (f : Flag) : (State.clearFlag f s).cfg = s.cfg := rfl
@[simp] theorem State.clearFlag_curPage (f : Flag) : (State.clearFlag f s).curPage = s.curPage := rfl
@[simp] theorem State.clearFlag_curCol (f : Flag) : (State.clearFlag f s).curCol = s.curCol := rfl
@[simp] theorem State.clearFlag_status (f : Flag) : (State.clearFlag f s).status = s.status &&& ~~~ flagMask f := rfl
@[simp] theorem State.clearFlag_mem (f : Flag) : (State.clearFlag f s).mem = s.mem := rfl
@[simp] theorem State.clearFlag_rx (f : Flag) : (State.clearFlag f s).rx = s.rx := rfl
@[simp] theorem State.clearFlag_inFlight (f : Flag) : (State.clearFlag f s).inFlight = s.inFlight := rfl
@[simp] theorem State.clearFlag_running (f : Flag) : (State.clearFlag f s).running = s.running := rfl
@[simp] theorem State.clearFlag_ttrace (f : Flag) : (State.clearFlag f s).ttrace = s.ttrace := rfl
@[simp] theorem State.clearFlag_wtrace (f : Flag) : (State.clearFlag f s).wtrace = s.wtrace := rfl
@[simp] theorem State.clearFlag_host (f : Flag) : (State.clearFlag f s).host = s.host := rfl
@[simp] theorem State.clearFlag_readLog (f : Flag) : (State.clearFlag f s).readLog = s.readLog := rfl
@[simp] theorem State.clearFlag_answers (f : Flag) : (State.clearFlag f s).answers = s.answers := rfl
@[simp] theorem State.clearFlag_draws (f : Flag) : (State.clearFlag f s).draws = s.draws := rfl
@[simp] theorem State.clearFlag_pending (f : Flag) : (State.clearFlag f s).pending = s.pending := rfl

/-! ### setStatus -/

@[simp] theorem State.setStatus_cfg (v : Byte) : (State.setStatus v s).cfg = s.cfg := rfl
@[simp] theorem State.setStatus_curPage (v : Byte) : (State.setStatus v s).curPage = s.curPage := rfl
@[simp] theorem State.setStatus_curCol (v : Byte) : (State.setStatus v s).curCol = s.curCol := rfl
@[simp] theorem State.setStatus_status (v : Byte) : (State.setStatus v s).status = v := rfl
@[simp] theorem State.setStatus_mem (v : Byte) : (State.setStatus v s).mem = s.mem := rfl
@[simp] theorem State.setStatus_rx (v : Byte) : (State.setStatus v s).rx = s.rx := rfl
@[simp] theorem State.setStatus_inFlight (v : Byte) : (State.setStatus v s).inFlight = s.inFlight := rfl
@[simp] theorem State.setStatus_running (v : Byte) : (State.setStatus v s).running = s.running := rfl
@[simp] theorem State.setStatus_ttrace (v : Byte) : (State.setStatus v s).ttrace = s.ttrace := rfl
@[simp] theorem State.setStatus_wtrace (v : Byte) : (State.setStatus v s).wtrace = s.wtrace := rfl
@[simp] theorem State.setStatus_host (v : Byte) : (State.setStatus v s).host = s.host := rfl
@[simp] theorem State.setStatus_readLog (v : Byte) : (State.setStatus v s).readLog = s.readLog := rfl
@[simp] theorem State.setStatus_answers (v : Byte) : (State.setStatus v s).answers = s.answers := rfl
@[simp] theorem State.setStatus_draws (v : Byte) : (State.setStatus v s).draws = s.draws := rfl
@[simp] theorem State.setStatus_pending (v : Byte) : (State.setStatus v s).pending = s.pending := rfl

/-! ### accept -/

@[simp] theorem State.accept_cfg : (State.accept s).cfg = s.cfg := rfl
@[simp] theorem State.accept_curPage : (State.accept s).curPage = s.curPage := rfl
@[simp] theorem State.accept_curCol : (State.accept s).curCol = s.curCol := rfl
@[simp] theorem State.accept_status : (State.accept s).status = acceptedStatus := rfl
@[simp] theorem State.accept_mem : (State.accept s).mem = s.mem := rfl
@[simp] theorem State.accept_rx : (State.accept s).rx = s.rx := rfl
@[simp] theorem State.accept_inFlight : (State.accept s).inFlight = s.inFlight := rfl
@[simp] theorem State.accept_running : (State.accept s).running = s.running := rfl
@[simp] theorem State.accept_ttrace : (State.accept s).ttrace = s.ttrace := rfl
@[simp] theorem State.accept_wtrace : (State.accept s).wtrace = s.wtrace := rfl
@[simp] theorem State.accept_host : (State.accept s).host = s.host := rfl
@[simp] theorem State.accept_readLog : (State.accept s).readLog = s.readLog := rfl
@[simp] theorem State.accept_answers : (State.accept s).answers = s.answers := rfl
@[simp] theorem State.accept_draws : (State.accept s).draws = s.draws := rfl
@[simp] theorem State.accept_pending : (State.accept s).pending = s.pending := rfl

/-! ### raiseBusError -/

@[simp] theorem State.raiseBusError_cfg : (State.raiseBusError s).cfg = s.cfg := rfl
@[simp] theorem State.raiseBusError_curPage : (State.raiseBusError s).curPage = s.curPage := rfl
@[simp] theorem State.raiseBusError_curCol : (State.raiseBusError s).curCol = s.curCol := rfl
@[simp] theorem State.raiseBusError_status : (State.raiseBusError s).status = (s.status ||| flagMask .be) &&& ~~~ flagMask .busy := rfl
@[simp] theorem State.raiseBusError_mem : (State.raiseBusError s).mem = s.mem := rfl
@[simp] theorem State.raiseBusError_rx : (State.raiseBusError s).rx = s.rx := rfl
@[simp] theorem State.raiseBusError_inFlight : (State.raiseBusError s).inFlight = s.inFlight := rfl
@[simp] theorem State.raiseBusError_running : (State.raiseBusError s).running = s.running := rfl
@[simp] theorem State.raiseBusError_ttrace : (State.raiseBusError s).ttrace = s.ttrace := rfl
@[simp] theorem State.raiseBusError_wtrace : (State.raiseBusError s).wtrace = s.wtrace := rfl
@[simp] theorem State.raiseBusError_host : (State.raiseBusError s).host = s.host := rfl
@[simp] theorem State.raiseBusError_readLog : (State.raiseBusError s).readLog = s.readLog := rfl
@[simp] theorem State.raiseBusError_answers : (State.raiseBusError s).answers = s.answers := rfl
@[simp] theorem State.raiseBusError_draws : (State.raiseBusError s).draws = s.draws := rfl
@[simp] theorem State.raiseBusError_pending : (State.raiseBusError s).pending = s.pending := rfl

/-! ### setPage -/

@[simp] theorem State.setPage_cfg (p : Page) : (State.setPage p s).cfg = s.cfg := rfl
@[simp] theorem State.setPage_curPage (p : Page) : (State.setPage p s).curPage = p := rfl
@[simp] theorem State.setPage_curCol (p : Page) : (State.setPage p s).curCol = s.curCol := rfl
@[simp] theorem State.setPage_status (p : Page) : (State.setPage p s).status = s.status := rfl
@[simp] theorem State.setPage_mem (p : Page) : (State.setPage p s).mem = s.mem := rfl
@[simp] theorem State.setPage_rx (p : Page) : (State.setPage p s).rx = s.rx := rfl
@[simp] theorem State.setPage_inFlight (p : Page) : (State.setPage p s).inFlight = s.inFlight := rfl
@[simp] theorem State.setPage_running (p : Page) : (State.setPage p s).running = s.running := rfl
@[simp] theorem State.setPage_ttrace (p : Page) : (State.setPage p s).ttrace = s.ttrace := rfl
@[simp] theorem State.setPage_wtrace (p : Page) : (State.setPage p s).wtrace = s.wtrace := rfl
@[simp] theorem State.setPage_host (p : Page) : (State.setPage p s).host = s.host := rfl
@[simp] theorem State.setPage_readLog (p : Page) : (State.setPage p s).readLog = s.readLog := rfl
@[simp] theorem State.setPage_answers (p : Page) : (State.setPage p s).answers = s.answers := rfl
@[simp] theorem State.setPage_draws (p : Page) : (State.setPage p s).draws = s.draws := rfl
@[simp] theorem State.setPage_pending (p : Page) : (State.setPage p s).pending = s.pending := rfl

/-! ### setCol -/

@[simp] theorem State.setCol_cfg (c : Byte) : (State.setCol c s).cfg = s.cfg := rfl
@[simp] theorem State.setCol_curPage (c : Byte) : (State.setCol c s).curPage = s.curPage := rfl
@[simp] theorem State.setCol_curCol (c : Byte) : (State.setCol c s).curCol = c := rfl
@[simp] theorem State.setCol_status (c : Byte) : (State.setCol c s).status = s.status := rfl
@[simp] theorem State.setCol_mem (c : Byte) : (State.setCol c s).mem = s.mem := rfl
@[simp] theorem State.setCol_rx (c : Byte) : (State.setCol c s).rx = s.rx := rfl
@[simp] theorem State.setCol_inFlight (c : Byte) : (State.setCol c s).inFlight = s.inFlight := rfl
@[simp] theorem State.setCol_running (c : Byte) : (State.setCol c s).running = s.running := rfl
@[simp] theorem State.setCol_ttrace (c : Byte) : (State.setCol c s).ttrace = s.ttrace := rfl
@[simp] theorem State.setCol_wtrace (c : Byte) : (State.setCol c s).wtrace = s.wtrace := rfl
@[simp] theorem State.setCol_host (c : Byte) : (State.setCol c s).host = s.host := rfl
@[simp] theorem State.setCol_readLog (c : Byte) : (State.setCol c s).readLog = s.readLog := rfl
@[simp] theorem State.setCol_answers (c : Byte) : (State.setCol c s).answers = s.answers := rfl
@[simp] theorem State.setCol_draws (c : Byte) : (State.setCol c s).draws = s.draws := rfl
@[simp] theorem State.setCol_pending (c : Byte) : (State.setCol c s).pending = s.pending := rfl

/-! ### receive -/

@[simp] theorem State.receive_cfg (bs : List Byte) : (State.receive bs s).cfg = s.cfg := rfl
@[simp] theorem State.receive_curPage (bs : List Byte) : (State.receive bs s).curPage = s.curPage := rfl
@[simp] theorem State.receive_curCol (bs : List Byte) : (State.receive bs s).curCol = s.curCol := rfl
@[simp] theorem State.receive_status (bs : List Byte) : (State.receive bs s).status = s.status := rfl
@[simp] theorem State.receive_mem (bs : List Byte) : (State.receive bs s).mem = storePayload s.cfg.printMax 0 bs s.mem := rfl
@[simp] theorem State.receive_rx (bs : List Byte) : (State.receive bs s).rx = s.rx := rfl
@[simp] theorem State.receive_inFlight (bs : List Byte) : (State.receive bs s).inFlight = s.inFlight := rfl
@[simp] theorem State.receive_running (bs : List Byte) : (State.receive bs s).running = s.running := rfl
@[simp] theorem State.receive_ttrace (bs : List Byte) : (State.receive bs s).ttrace = s.ttrace := rfl
@[simp] theorem State.receive_wtrace (bs : List Byte) : (State.receive bs s).wtrace = s.wtrace := rfl
@[simp] theorem State.receive_host (bs : List Byte) : (State.receive bs s).host = s.host := rfl
@[simp] theorem State.receive_readLog (bs : List Byte) : (State.receive bs s).readLog = s.readLog := rfl
@[simp] theorem State.receive_answers (bs : List Byte) : (State.receive bs s).answers = s.answers := rfl
@[simp] theorem State.receive_draws (bs : List Byte) : (State.receive bs s).draws = s.draws := rfl
@[simp] theorem State.receive_pending (bs : List Byte) : (State.receive bs s).pending = s.pending := rfl

/-! ### noteTransaction -/

@[simp] theorem State.noteTransaction_cfg (t : Transaction) : (State.noteTransaction t s).cfg = s.cfg := rfl
@[simp] theorem State.noteTransaction_curPage (t : Transaction) : (State.noteTransaction t s).curPage = s.curPage := rfl
@[simp] theorem State.noteTransaction_curCol (t : Transaction) : (State.noteTransaction t s).curCol = s.curCol := rfl
@[simp] theorem State.noteTransaction_status (t : Transaction) : (State.noteTransaction t s).status = s.status := rfl
@[simp] theorem State.noteTransaction_mem (t : Transaction) : (State.noteTransaction t s).mem = s.mem := rfl
@[simp] theorem State.noteTransaction_rx (t : Transaction) : (State.noteTransaction t s).rx = s.rx := rfl
@[simp] theorem State.noteTransaction_inFlight (t : Transaction) : (State.noteTransaction t s).inFlight = s.inFlight := rfl
@[simp] theorem State.noteTransaction_running (t : Transaction) : (State.noteTransaction t s).running = s.running := rfl
@[simp] theorem State.noteTransaction_ttrace (t : Transaction) : (State.noteTransaction t s).ttrace = s.ttrace ++ [t] := rfl
@[simp] theorem State.noteTransaction_wtrace (t : Transaction) : (State.noteTransaction t s).wtrace = s.wtrace := rfl
@[simp] theorem State.noteTransaction_host (t : Transaction) : (State.noteTransaction t s).host = s.host := rfl
@[simp] theorem State.noteTransaction_readLog (t : Transaction) : (State.noteTransaction t s).readLog = s.readLog := rfl
@[simp] theorem State.noteTransaction_answers (t : Transaction) : (State.noteTransaction t s).answers = s.answers := rfl
@[simp] theorem State.noteTransaction_draws (t : Transaction) : (State.noteTransaction t s).draws = s.draws := rfl
@[simp] theorem State.noteTransaction_pending (t : Transaction) : (State.noteTransaction t s).pending = s.pending := rfl

/-! ### record -/

@[simp] theorem State.record_cfg (p : Packet) (a : BusAnswer) : (State.record p a s).cfg = s.cfg := rfl
@[simp] theorem State.record_curPage (p : Packet) (a : BusAnswer) : (State.record p a s).curPage = s.curPage := rfl
@[simp] theorem State.record_curCol (p : Packet) (a : BusAnswer) : (State.record p a s).curCol = s.curCol := rfl
@[simp] theorem State.record_status (p : Packet) (a : BusAnswer) : (State.record p a s).status = s.status := rfl
@[simp] theorem State.record_mem (p : Packet) (a : BusAnswer) : (State.record p a s).mem = s.mem := rfl
@[simp] theorem State.record_rx (p : Packet) (a : BusAnswer) : (State.record p a s).rx = s.rx := rfl
@[simp] theorem State.record_inFlight (p : Packet) (a : BusAnswer) : (State.record p a s).inFlight = none := rfl
@[simp] theorem State.record_running (p : Packet) (a : BusAnswer) : (State.record p a s).running = s.running := rfl
@[simp] theorem State.record_ttrace (p : Packet) (a : BusAnswer) : (State.record p a s).ttrace = s.ttrace := rfl
@[simp] theorem State.record_wtrace (p : Packet) (a : BusAnswer) : (State.record p a s).wtrace = s.wtrace ++ [(p, a)] := rfl
@[simp] theorem State.record_host (p : Packet) (a : BusAnswer) : (State.record p a s).host = s.host := rfl
@[simp] theorem State.record_readLog (p : Packet) (a : BusAnswer) : (State.record p a s).readLog = s.readLog := rfl
@[simp] theorem State.record_answers (p : Packet) (a : BusAnswer) : (State.record p a s).answers = s.answers := rfl
@[simp] theorem State.record_draws (p : Packet) (a : BusAnswer) : (State.record p a s).draws = s.draws := rfl
@[simp] theorem State.record_pending (p : Packet) (a : BusAnswer) : (State.record p a s).pending = s.pending := rfl

/-! ### hold -/

@[simp] theorem State.hold_cfg (p : Packet) : (State.hold p s).cfg = s.cfg := rfl
@[simp] theorem State.hold_curPage (p : Packet) : (State.hold p s).curPage = s.curPage := rfl
@[simp] theorem State.hold_curCol (p : Packet) : (State.hold p s).curCol = s.curCol := rfl
@[simp] theorem State.hold_status (p : Packet) : (State.hold p s).status = s.status := rfl
@[simp] theorem State.hold_mem (p : Packet) : (State.hold p s).mem = s.mem := rfl
@[simp] theorem State.hold_rx (p : Packet) : (State.hold p s).rx = s.rx := rfl
@[simp] theorem State.hold_inFlight (p : Packet) : (State.hold p s).inFlight = some p := rfl
@[simp] theorem State.hold_running (p : Packet) : (State.hold p s).running = s.running := rfl
@[simp] theorem State.hold_ttrace (p : Packet) : (State.hold p s).ttrace = s.ttrace := rfl
@[simp] theorem State.hold_wtrace (p : Packet) : (State.hold p s).wtrace = s.wtrace := rfl
@[simp] theorem State.hold_host (p : Packet) : (State.hold p s).host = s.host := rfl
@[simp] theorem State.hold_readLog (p : Packet) : (State.hold p s).readLog = s.readLog := rfl
@[simp] theorem State.hold_answers (p : Packet) : (State.hold p s).answers = s.answers := rfl
@[simp] theorem State.hold_draws (p : Packet) : (State.hold p s).draws = s.draws := rfl
@[simp] theorem State.hold_pending (p : Packet) : (State.hold p s).pending = s.pending := rfl

/-! ### afterGlyph -/

@[simp] theorem State.afterGlyph_cfg (b : Byte) : (State.afterGlyph b s).cfg = s.cfg := by
  unfold State.afterGlyph; split <;> rfl
@[simp] theorem State.afterGlyph_curPage (b : Byte) : (State.afterGlyph b s).curPage = s.curPage := by
  unfold State.afterGlyph; split <;> rfl
@[simp] theorem State.afterGlyph_curCol (b : Byte) : (State.afterGlyph b s).curCol = s.curCol := by
  unfold State.afterGlyph; split <;> rfl
@[simp] theorem State.afterGlyph_status (b : Byte) : (State.afterGlyph b s).status = if inFont b then s.status else s.status ||| flagMask .ug := by
  unfold State.afterGlyph; split <;> rfl
@[simp] theorem State.afterGlyph_mem (b : Byte) : (State.afterGlyph b s).mem = s.mem := by
  unfold State.afterGlyph; split <;> rfl
@[simp] theorem State.afterGlyph_rx (b : Byte) : (State.afterGlyph b s).rx = s.rx := by
  unfold State.afterGlyph; split <;> rfl
@[simp] theorem State.afterGlyph_inFlight (b : Byte) : (State.afterGlyph b s).inFlight = s.inFlight := by
  unfold State.afterGlyph; split <;> rfl
@[simp] theorem State.afterGlyph_running (b : Byte) : (State.afterGlyph b s).running = s.running := by
  unfold State.afterGlyph; split <;> rfl
@[simp] theorem State.afterGlyph_ttrace (b : Byte) : (State.afterGlyph b s).ttrace = s.ttrace := by
  unfold State.afterGlyph; split <;> rfl
@[simp] theorem State.afterGlyph_wtrace (b : Byte) : (State.afterGlyph b s).wtrace = s.wtrace := by
  unfold State.afterGlyph; split <;> rfl
@[simp] theorem State.afterGlyph_host (b : Byte) : (State.afterGlyph b s).host = s.host := by
  unfold State.afterGlyph; split <;> rfl
@[simp] theorem State.afterGlyph_readLog (b : Byte) : (State.afterGlyph b s).readLog = s.readLog := by
  unfold State.afterGlyph; split <;> rfl
@[simp] theorem State.afterGlyph_answers (b : Byte) : (State.afterGlyph b s).answers = s.answers := by
  unfold State.afterGlyph; split <;> rfl
@[simp] theorem State.afterGlyph_draws (b : Byte) : (State.afterGlyph b s).draws = s.draws := by
  unfold State.afterGlyph; split <;> rfl
@[simp] theorem State.afterGlyph_pending (b : Byte) : (State.afterGlyph b s).pending = s.pending := by
  unfold State.afterGlyph; split <;> rfl

/-! ### afterMessage -/

@[simp] theorem State.afterMessage_cfg (bs : List Byte) : (State.afterMessage bs s).cfg = s.cfg := by
  unfold State.afterMessage; split <;> rfl
@[simp] theorem State.afterMessage_curPage (bs : List Byte) : (State.afterMessage bs s).curPage = s.curPage := by
  unfold State.afterMessage; split <;> rfl
@[simp] theorem State.afterMessage_curCol (bs : List Byte) : (State.afterMessage bs s).curCol = s.curCol := by
  unfold State.afterMessage; split <;> rfl
@[simp] theorem State.afterMessage_status (bs : List Byte) : (State.afterMessage bs s).status = if s.cfg.printMax < bs.length then s.status ||| flagMask .fo else s.status := by
  unfold State.afterMessage; split <;> rfl
@[simp] theorem State.afterMessage_mem (bs : List Byte) : (State.afterMessage bs s).mem = storePayload s.cfg.printMax 0 bs s.mem := by
  unfold State.afterMessage; split <;> rfl
@[simp] theorem State.afterMessage_rx (bs : List Byte) : (State.afterMessage bs s).rx = s.rx := by
  unfold State.afterMessage; split <;> rfl
@[simp] theorem State.afterMessage_inFlight (bs : List Byte) : (State.afterMessage bs s).inFlight = s.inFlight := by
  unfold State.afterMessage; split <;> rfl
@[simp] theorem State.afterMessage_running (bs : List Byte) : (State.afterMessage bs s).running = s.running := by
  unfold State.afterMessage; split <;> rfl
@[simp] theorem State.afterMessage_ttrace (bs : List Byte) : (State.afterMessage bs s).ttrace = s.ttrace := by
  unfold State.afterMessage; split <;> rfl
@[simp] theorem State.afterMessage_wtrace (bs : List Byte) : (State.afterMessage bs s).wtrace = s.wtrace := by
  unfold State.afterMessage; split <;> rfl
@[simp] theorem State.afterMessage_host (bs : List Byte) : (State.afterMessage bs s).host = s.host := by
  unfold State.afterMessage; split <;> rfl
@[simp] theorem State.afterMessage_readLog (bs : List Byte) : (State.afterMessage bs s).readLog = s.readLog := by
  unfold State.afterMessage; split <;> rfl
@[simp] theorem State.afterMessage_answers (bs : List Byte) : (State.afterMessage bs s).answers = s.answers := by
  unfold State.afterMessage; split <;> rfl
@[simp] theorem State.afterMessage_draws (bs : List Byte) : (State.afterMessage bs s).draws = s.draws := by
  unfold State.afterMessage; split <;> rfl
@[simp] theorem State.afterMessage_pending (bs : List Byte) : (State.afterMessage bs s).pending = s.pending := by
  unfold State.afterMessage; split <;> rfl

/-! ### takeAnswer -/

@[simp] theorem State.takeAnswer_cfg : (State.takeAnswer s).cfg = s.cfg := by
  unfold State.takeAnswer; split <;> rfl
@[simp] theorem State.takeAnswer_curPage : (State.takeAnswer s).curPage = s.curPage := by
  unfold State.takeAnswer; split <;> rfl
@[simp] theorem State.takeAnswer_curCol : (State.takeAnswer s).curCol = s.curCol := by
  unfold State.takeAnswer; split <;> rfl
@[simp] theorem State.takeAnswer_status : (State.takeAnswer s).status = s.status := by
  unfold State.takeAnswer; split <;> rfl
@[simp] theorem State.takeAnswer_mem : (State.takeAnswer s).mem = s.mem := by
  unfold State.takeAnswer; split <;> rfl
@[simp] theorem State.takeAnswer_rx : (State.takeAnswer s).rx = s.rx := by
  unfold State.takeAnswer; split <;> rfl
@[simp] theorem State.takeAnswer_inFlight : (State.takeAnswer s).inFlight = s.inFlight := by
  unfold State.takeAnswer; split <;> rfl
@[simp] theorem State.takeAnswer_running : (State.takeAnswer s).running = s.running := by
  unfold State.takeAnswer; split <;> rfl
@[simp] theorem State.takeAnswer_ttrace : (State.takeAnswer s).ttrace = s.ttrace := by
  unfold State.takeAnswer; split <;> rfl
@[simp] theorem State.takeAnswer_wtrace : (State.takeAnswer s).wtrace = s.wtrace := by
  unfold State.takeAnswer; split <;> rfl
@[simp] theorem State.takeAnswer_host : (State.takeAnswer s).host = s.host := by
  unfold State.takeAnswer; split <;> rfl
@[simp] theorem State.takeAnswer_readLog : (State.takeAnswer s).readLog = s.readLog := by
  unfold State.takeAnswer; split <;> rfl
@[simp] theorem State.takeAnswer_pending : (State.takeAnswer s).pending = s.pending := by
  unfold State.takeAnswer; split <;> rfl

end Sys2Proof.Machine
end

