-- ==== Sys2Proof/Laws/Programs.lean ====
section
/-! SUPPORT. The equations of the programs: what running each piece is, one equation a definition, so that no proof unfolds one. -/

namespace Sys2Proof.Machine

/-! ### What a line reads -/

@[simp] theorem State.view_cfg (s : State) : s.view.cfg = s.cfg := rfl

@[simp] theorem State.view_curPage (s : State) : s.view.curPage = s.curPage := rfl

@[simp] theorem State.view_curCol (s : State) : s.view.curCol = s.curCol := rfl

@[simp] theorem State.view_mem (s : State) : s.view.mem = s.mem := rfl

/-! ### The constructors -/

theorem Prog.run_skip (s : State) : Prog.skip.run s = (s, .done) := rfl

theorem Prog.run_line (u : Update) (s : State) : (Prog.line u).run s = (u.apply s, .done) := rfl

theorem Prog.run_send (p : Packet) : (Prog.send p).run = Machine.send p := rfl

theorem Prog.run_seq (a b : Prog) : (Prog.seq a b).run = andThen a.run b.run := rfl

theorem Prog.run_look (k : View → Prog) (s : State) : (Prog.look k).run s = (k s.view).run s := rfl

/-! ### Sequencing -/

theorem andThen_done {f g : Act} {s t : State} (h : f s = (t, .done)) : andThen f g s = g t := by
  simp [andThen, h]

theorem andThen_abandoned {f g : Act} {s t : State} (h : f s = (t, .abandoned)) :
    andThen f g s = (t, .abandoned) := by
  simp [andThen, h]

theorem andThen_waiting {f g : Act} {s t : State} (h : f s = (t, .waiting)) :
    andThen f g s = (t, .waiting) := by
  simp [andThen, h]

theorem andThen_assoc (f g h : Act) : andThen (andThen f g) h = andThen f (andThen g h) := by
  funext s
  simp only [andThen]
  rcases f s with ⟨t, _ | _ | _⟩ <;> rfl

theorem forEach_nil {α : Type} (body : α → Prog) (s : State) : (forEach body []).run s = (s, .done) := rfl

theorem forEach_cons {α : Type} (body : α → Prog) (a : α) (l : List α) :
    (forEach body (a :: l)).run = andThen (body a).run (forEach body l).run := rfl

theorem sends_cons (p : Packet) (ps : List Packet) :
    (forEach Prog.send (p :: ps)).run = andThen (Machine.send p) (forEach Prog.send ps).run := rfl

theorem forEach_append {α : Type} (body : α → Prog) (l m : List α) :
    (forEach body (l ++ m)).run = andThen (forEach body l).run (forEach body m).run := by
  induction l with
  | nil => rfl
  | cons a l ih => rw [List.cons_append, forEach_cons, ih, forEach_cons, andThen_assoc]

/-- A loop over values is a loop over what they give. -/
theorem forEach_map {α β : Type} (body : β → Prog) (f : α → β) (l : List α) :
    forEach body (l.map f) = forEach (fun a => body (f a)) l := by
  induction l with
  | nil => rfl
  | cons a l ih => rw [List.map_cons, forEach, forEach, ih]

/-! ### The pieces -/

theorem write_run (t : Transaction) (s : State) :
    (write t).run s = (forEach .send (packetsOf s.cfg t)).run (s.noteTransaction t) := rfl

theorem homeCursor_run (s : State) : homeCursor.run s = ((s.setPage 0).setCol 0, .done) := rfl

theorem initBody_run (s : State) : initBody.run s =
    (forEach (fun k => write (initTransaction k)) s.cfg.initSeq.steps).run ((s.setPage 0).setCol 0) := rfl

theorem placeCursor_run (p c : Byte) (s : State) :
    (placeCursor p c).run s = ((s.setPage (byteToPage p)).setCol c, .done) := rfl

theorem setCursor_inRange {p c : Byte} (h : positionInRange p c = true) (s : State) : (setCursor p c).run s =
    andThen (write (columnWindow s.cfg c)).run (andThen (write (pageWindow s.cfg p)).run (placeCursor p c).run) s := by
  rw [setCursor, if_pos h]; rfl

theorem setCursor_outOfRange {p c : Byte} (h : positionInRange p c = false) (s : State) :
    (setCursor p c).run s = (s.setFlag .ign, .done) := by
  rw [setCursor, if_neg (by simp [h])]; rfl

theorem newLine_run (s : State) : newLine.run s =
    (setCursor (pageByte (nextPage s.curPage)) 0).run (s.setPage (nextPage s.curPage)) := rfl

theorem advanceCol_run (s : State) : advanceCol.run s = (s.setCol (s.curCol + 1), .done) := rfl

theorem noteGlyph_run (b : Byte) (s : State) : (noteGlyph b).run s = (s.afterGlyph b, .done) := by
  unfold noteGlyph State.afterGlyph; split <;> rfl

theorem putSlice_run (b : Byte) : (putSlice b).run = andThen (write (pixelData b)).run advanceCol.run := rfl

theorem putGlyph_run (b : Byte) (s : State) :
    (putGlyph b).run s = (forEach putSlice (glyphBytes s.cfg b)).run (s.afterGlyph b) := by
  rw [putGlyph, Prog.run_seq, andThen_done (noteGlyph_run b s), Prog.run_look, State.view_cfg, State.afterGlyph_cfg]

theorem putChar_run (b : Byte) (s : State) : (putChar b).run s =
    if b = s.cfg.newline then newLine.run s
    else if needsWrap s.cfg s.curCol then andThen newLine.run (putGlyph b).run s
    else (putGlyph b).run s := by
  rw [putChar, Prog.run_look, State.view_cfg, State.view_curCol]
  split
  · rfl
  · split <;> rfl

theorem noteOverflow_run (len : Nat) (s : State) :
    (noteOverflow len).run s = (if s.cfg.printMax < len then s.setFlag .fo else s, .done) := by
  rw [noteOverflow, Prog.run_look, State.view_cfg]
  split <;> rfl

theorem receiveMessage_run (payload : List Byte) (s : State) :
    (receiveMessage payload).run s = (s.afterMessage payload, .done) := by
  rw [receiveMessage, Prog.run_seq, andThen_done (t := s.receive payload) rfl, noteOverflow_run]
  rfl

theorem putStored_run (j : Nat) (s : State) : (putStored j).run s = (putChar (Memory.read s.mem j)).run s := rfl

theorem printBody_run (payload : List Byte) (s : State) : (printBody payload).run s =
    (forEach putStored (List.range (renderedLength s.cfg payload.length))).run (s.afterMessage payload) := by
  rw [printBody, Prog.run_seq, andThen_done (receiveMessage_run payload s), Prog.run_look, State.view_cfg,
    State.afterMessage_cfg]

theorem fillBody_run (b : Byte) : (fillBody b).run =
    andThen (setCursor 0 0).run (sweep (List.replicate fillCount b)).run := by rw [fillBody, Prog.run_seq]

theorem bitmapLine_run (r : Nat) (s : State) :
    (bitmapLine r).run s = andThen (sweep (bitmapRow s.cfg r)).run newLine.run s := by
  simp only [bitmapLine, Prog.run_seq, andThen, Prog.run_look, State.view_cfg]

theorem drawBitmapBody_run (p c : Byte) : (drawBitmapBody p c).run =
    andThen (setCursor p c).run fun t => (forEach bitmapLine (List.range t.cfg.bitmapRows)).run t := rfl

theorem reservedBody_run (s : State) : reservedBody.run s = (s.setFlag .ill, .done) := rfl

/-! ### Every instruction -/

/-- What a state and a way to end become at an instruction's end. -/
def endOf (i : Instr) (r : State × Flow) : State := if i.isHostCommand then endOperation r else endMicroOp r

/-- Every instruction is its body, run from its start and ended (spec/00_scope.md R2). -/
theorem exec_eq (i : Instr) (s : State) : exec i s = .next (endOf i ((bodyOf i).run (bodyStart i s))) := by
  cases i <;> rfl

end Sys2Proof.Machine
end

