-- ==== Sys2Proof/Laws/Bus.lean ====
section
/-! SUPPORT. What one transmission and one transaction do: the result under scripted answers, and once for all what they leave alone. -/

namespace Sys2Proof.Machine

/-! ### The entries of the traces -/

@[simp] theorem answered_nil : answered [] = [] := rfl

@[simp] theorem answered_append (ps qs : List Packet) : answered (ps ++ qs) = answered ps ++ answered qs :=
  List.map_append

theorem failedAt_zero (p : Packet) (ps : List Packet) : failedAt (p :: ps) 0 = [(p, .busError)] := rfl

theorem failedAt_succ (p : Packet) (ps : List Packet) (n : Nat) :
    failedAt (p :: ps) (n + 1) = (p, .ok) :: failedAt ps n := rfl

theorem failedAt_eq {ps : List Packet} {n : Nat} (h : n < ps.length) :
    failedAt ps n = answered (ps.take n) ++ [(ps[n], .busError)] := by
  rw [failedAt, List.drop_eq_getElem_cons h]
  rfl

/-- A failure inside the first part of a sequence does not see the second. -/
theorem failedAt_append_left {ps : List Packet} (qs : List Packet) {n : Nat} (h : n < ps.length) :
    failedAt (ps ++ qs) n = failedAt ps n := by
  rw [failedAt_eq h, failedAt_eq (by simp; omega), List.take_append_of_le_length (by omega),
    List.getElem_append_left h]

/-- A failure in the second part of a sequence comes after the whole first part. -/
theorem failedAt_append_right (ps : List Packet) {qs : List Packet} {n : Nat} (h : n < qs.length) :
    failedAt (ps ++ qs) (ps.length + n) = answered ps ++ failedAt qs n := by
  rw [failedAt_eq h, failedAt_eq (by simp; omega)]
  simp [List.take_append, List.take_of_length_le]

@[simp] theorem State.sent_sent (s : State) (t u : List Transaction) (d e : List (Packet × BusAnswer))
    (r q : List BusAnswer) : (s.sent t d r).sent u e q = s.sent (t ++ u) (d ++ e) q := by
  simp [State.sent]

@[simp] theorem State.sent_cfg (s : State) (t : List Transaction) (e : List (Packet × BusAnswer)) (r : List BusAnswer) :
    (s.sent t e r).cfg = s.cfg := rfl

@[simp] theorem State.sent_curPage (s : State) (t : List Transaction) (e : List (Packet × BusAnswer)) (r : List BusAnswer) :
    (s.sent t e r).curPage = s.curPage := rfl

@[simp] theorem State.sent_curCol (s : State) (t : List Transaction) (e : List (Packet × BusAnswer)) (r : List BusAnswer) :
    (s.sent t e r).curCol = s.curCol := rfl

@[simp] theorem State.sent_answers (s : State) (t : List Transaction) (e : List (Packet × BusAnswer)) (r : List BusAnswer) :
    (s.sent t e r).answers = r := rfl

@[simp] theorem State.sent_mem (s : State) (t : List Transaction) (e : List (Packet × BusAnswer)) (r : List BusAnswer) :
    (s.sent t e r).mem = s.mem := rfl

/-! ### Scripted answers -/

theorem answersOk_zero {s : State} {rest : List BusAnswer} : s.answersOk 0 rest ↔ s.answers = rest := by
  simp [State.answersOk]

/-- The answers to a sequence of `m + n` transmissions are those to the first `m`, then those to the rest. -/
theorem replicate_ok_add (m n : Nat) (rest : List BusAnswer) :
    List.replicate (m + n) BusAnswer.ok ++ rest = List.replicate m .ok ++ (List.replicate n .ok ++ rest) := by
  rw [List.replicate_add, List.append_assoc]

/-! ### One transmission -/

theorem send_ok {p : Packet} {s : State} {rest : List BusAnswer} (h : s.answers = .ok :: rest) :
    send p s = (s.sent [] [(p, .ok)] rest, .done) := by
  simp [send, State.answer, State.takeAnswer, h, State.record, State.sent]

theorem send_busError {p : Packet} {s : State} {rest : List BusAnswer} (h : s.answers = .busError :: rest) :
    send p s = (s.sent [] [(p, .busError)] rest, .abandoned) := by
  simp [send, State.answer, State.takeAnswer, h, State.record, State.sent]

theorem send_silent {p : Packet} {s : State} {rest : List BusAnswer} (h : s.answers = .silent :: rest) :
    send p s = ({ s with answers := rest, inFlight := some p }, .waiting) := by
  simp [send, State.answer, State.takeAnswer, h, State.hold]

/-- A sequence of transmissions answered ok. -/
theorem sendAll_ok {ps : List Packet} (hne : ps ≠ []) {rest : List BusAnswer} :
    ∀ {s : State}, s.answersOk ps.length rest →
      (forEach .send ps).run s = (s.sent [] (answered ps) rest, .done) := by
  induction ps with
  | nil => exact absurd rfl hne
  | cons p ps ih =>
    intro s h
    have h' : s.answers = .ok :: (List.replicate ps.length .ok ++ rest) := by
      simpa [State.answersOk, List.replicate_succ] using h
    rw [sends_cons, andThen_done (send_ok h')]
    cases ps with
    | nil => simp [forEach_nil, answered]
    | cons q qs =>
      rw [ih (by simp) (by simp [State.answersOk])]
      simp [answered]

/-- A sequence of transmissions whose transmission `n` fails stops there (spec/40_framer.md R92, R95). -/
theorem sendAll_fails {ps : List Packet} {rest : List BusAnswer} :
    ∀ {n : Nat} {s : State}, n < ps.length → s.failsAt n rest →
      (forEach .send ps).run s = (s.sent [] (failedAt ps n) rest, .abandoned) := by
  induction ps with
  | nil => intro n s hn; simp at hn
  | cons p ps ih =>
    intro n s hn h
    cases n with
    | zero =>
      rw [sends_cons, andThen_abandoned (send_busError (rest := rest) (by simpa [State.failsAt] using h))]
      simp [failedAt_zero]
    | succ n =>
      have h' : s.answers = .ok :: (List.replicate n .ok ++ .busError :: rest) := by
        simpa [State.failsAt, List.replicate_succ] using h
      rw [sends_cons, andThen_done (send_ok h'), ih (n := n) (by simpa using hn) (by simp [State.failsAt])]
      simp [failedAt_succ]

/-! ### One transaction -/

theorem packetsOf_ne_nil (g : Config) (t : Transaction) : packetsOf g t ≠ [] := by
  unfold packetsOf
  split <;> simp_all

/-- A transaction all of whose packets are answered ok (spec/40_framer.md R92). -/
theorem write_ok {t : Transaction} {s : State} {rest : List BusAnswer}
    (h : s.answersOk (packetsOf s.cfg t).length rest) :
    (write t).run s = (s.sent [t] (answered (packetsOf s.cfg t)) rest, .done) := by
  rw [write_run, sendAll_ok (packetsOf_ne_nil _ _) (rest := rest) (by simpa [State.answersOk] using h)]
  simp [State.sent, State.noteTransaction]

/-- A transaction whose packet `n` fails (spec/40_framer.md R92, spec/60_exceptions.md R152). -/
theorem write_fails {t : Transaction} {s : State} {n : Nat} {rest : List BusAnswer}
    (hn : n < (packetsOf s.cfg t).length) (h : s.failsAt n rest) :
    (write t).run s = (s.sent [t] (failedAt (packetsOf s.cfg t) n) rest, .abandoned) := by
  rw [write_run, sendAll_fails hn (rest := rest) (by simpa [State.failsAt] using h)]
  simp [State.sent, State.noteTransaction]

/-- A sequence of transactions all of whose packets are answered ok. -/
theorem writeAll_ok {ts : List Transaction} (hne : ts ≠ []) {rest : List BusAnswer} :
    ∀ {s : State}, s.answersOk (ts.flatMap (packetsOf s.cfg)).length rest →
      (forEach write ts).run s = (s.sent ts (answered (ts.flatMap (packetsOf s.cfg))) rest, .done) := by
  induction ts with
  | nil => exact absurd rfl hne
  | cons t ts ih =>
    intro s h
    have h' : s.answersOk (packetsOf s.cfg t).length
        (List.replicate (ts.flatMap (packetsOf s.cfg)).length .ok ++ rest) := by
      rw [State.answersOk] at h ⊢
      rw [h, List.flatMap_cons, List.length_append, replicate_ok_add]
    rw [forEach_cons, andThen_done (write_ok h')]
    cases ts with
    | nil => simp [forEach_nil]
    | cons u us =>
      rw [ih (by simp) (by rfl)]
      simp only [State.sent_sent, State.sent_cfg, List.flatMap_cons, answered_append, List.singleton_append]

/-! ### What holds of every answer -/

/-- A relation between the state before a piece of an operation and the piece's result that holds of nothing done,
and carries over a second piece. -/
structure Composes (R : State → State × Flow → Prop) : Prop where
  refl : ∀ s, R s (s, .done)
  comp : ∀ {s t r}, R s (t, .done) → R t r → R s r

theorem Composes.andThen {R : State → State × Flow → Prop} (hR : Composes R) {f g : Act} {s : State}
    (hf : R s (f s)) (hg : ∀ t, R s (t, .done) → R t (g t)) : R s (andThen f g s) := by
  simp only [Machine.andThen]
  rcases h : f s with ⟨t, _ | _ | _⟩ <;> rw [h] at hf
  · exact hR.comp hf (hg t hf)
  · exact hf
  · exact hf

theorem Composes.forEach {R : State → State × Flow → Prop} (hR : Composes R) {α : Type} {body : α → Prog} :
    ∀ {l : List α}, (∀ a ∈ l, ∀ s, R s ((body a).run s)) → ∀ s, R s ((forEach body l).run s) := by
  intro l
  induction l with
  | nil => exact fun _ s => hR.refl s
  | cons a l ih =>
    intro hb s
    exact hR.andThen (hb a (by simp) s) fun t _ => ih (fun b hb' => hb b (by simp [hb'])) t

/-- Everything a piece of an operation leaves alone but the Cursor, STATUS, the traces and the bus. -/
structure Frame (s t : State) : Prop where
  cfg : t.cfg = s.cfg
  mem : t.mem = s.mem
  rx : t.rx = s.rx
  host : t.host = s.host
  readLog : t.readLog = s.readLog
  pending : t.pending = s.pending
  running : t.running = s.running

theorem Frame.refl (s : State) : Frame s s := ⟨rfl, rfl, rfl, rfl, rfl, rfl, rfl⟩

theorem Frame.trans {s t u : State} (h : Frame s t) (k : Frame t u) : Frame s u :=
  ⟨k.cfg.trans h.cfg, k.mem.trans h.mem, k.rx.trans h.rx, k.host.trans h.host, k.readLog.trans h.readLog,
   k.pending.trans h.pending, k.running.trans h.running⟩

theorem frame_composes : Composes fun s r => Frame s r.1 := ⟨Frame.refl, Frame.trans⟩

/-- The engine registers, which the Framer never reads or writes (spec/40_framer.md R90). -/
structure SameRegisters (s t : State) : Prop where
  curPage : t.curPage = s.curPage
  curCol : t.curCol = s.curCol
  status : t.status = s.status

theorem SameRegisters.refl (s : State) : SameRegisters s s := ⟨rfl, rfl, rfl⟩

theorem SameRegisters.trans {s t u : State} (h : SameRegisters s t) (k : SameRegisters t u) : SameRegisters s u :=
  ⟨k.curPage.trans h.curPage, k.curCol.trans h.curCol, k.status.trans h.status⟩

theorem framer_composes : Composes fun s r => Frame s r.1 ∧ SameRegisters s r.1 :=
  ⟨fun s => ⟨.refl s, .refl s⟩, fun h k => ⟨h.1.trans k.1, h.2.trans k.2⟩⟩

theorem send_frame (p : Packet) (s : State) : Frame s (send p s).1 ∧ SameRegisters s (send p s).1 := by
  unfold send
  split <;> exact ⟨⟨by simp, by simp, by simp, by simp, by simp, by simp, by simp⟩, ⟨by simp, by simp, by simp⟩⟩

theorem sendAll_frame (ps : List Packet) (s : State) :
    Frame s ((forEach .send ps).run s).1 ∧ SameRegisters s ((forEach .send ps).run s).1 :=
  framer_composes.forEach (body := .send) (fun p _ s => send_frame p s) s

/-- The Framer reads and writes no engine register (spec/40_framer.md R90). -/
theorem write_frame (t : Transaction) (s : State) : Frame s ((write t).run s).1 ∧ SameRegisters s ((write t).run s).1 := by
  obtain ⟨h, k⟩ := sendAll_frame (packetsOf s.cfg t) (s.noteTransaction t)
  exact ⟨⟨h.cfg, h.mem, h.rx, h.host, h.readLog, h.pending, h.running⟩, ⟨k.curPage, k.curCol, k.status⟩⟩

end Sys2Proof.Machine
end

