-- ==== Sys2Proof/Laws/Memory.lean ====
section
/-! SUPPORT. The laws of the print buffer: read after write, the canonical form, the bound, and what reception leaves. -/

namespace Sys2Proof.Machine

theorem Memory.wf_cons {k : Nat} {v : Byte} {m : Memory} :
    Memory.wf ((k, v) :: m) = true ↔ v ≠ blankByte ∧ (∀ c ∈ m, k < c.1) ∧ Memory.wf m = true := by
  simp [Memory.wf, and_assoc]

/-- An address below every cell reads as an unlisted one. -/
theorem Memory.read_unlisted {m : Memory} {a : Nat} (h : ∀ c ∈ m, a < c.1) : Memory.read m a = blankByte := by
  induction m with
  | nil => rfl
  | cons c m ih =>
    obtain ⟨k, v⟩ := c
    have hk : a < k := h (k, v) (by simp)
    rw [Memory.read, if_neg (by omega)]
    exact ih fun c hc => h c (by simp [hc])

/-- The cells of a write are the cell written and old cells. -/
theorem Memory.mem_write {m : Memory} {a : Nat} {b : Byte} {c : Host.Cell} (h : c ∈ Memory.write m a b) :
    c.1 = a ∨ c ∈ m := by
  induction m with
  | nil =>
    rw [Memory.write] at h
    split at h <;> simp_all
  | cons d m ih =>
    obtain ⟨k, v⟩ := d
    rw [Memory.write] at h
    split at h
    · split at h <;> simp_all
      rcases h with h | h | h <;> simp_all
    · split at h
      · split at h <;> simp_all
        rcases h with h | h <;> simp_all
      · simp only [List.mem_cons] at h ⊢
        rcases h with h | h
        · exact .inr (.inl h)
        · exact (ih h).imp id .inr

/-- A write keeps the canonical form. -/
theorem Memory.write_wf {m : Memory} (hm : Memory.wf m = true) (a : Nat) (b : Byte) :
    Memory.wf (Memory.write m a b) = true := by
  induction m with
  | nil =>
    rw [Memory.write]
    split <;> simp_all [Memory.wf]
  | cons c m ih =>
    obtain ⟨k, v⟩ := c
    obtain ⟨hv, hk, hm'⟩ := Memory.wf_cons.1 hm
    rw [Memory.write]
    split
    · split
      · exact hm
      · refine Memory.wf_cons.2 ⟨by assumption, ?_, hm⟩
        intro c hc
        rcases List.mem_cons.1 hc with rfl | hc
        · assumption
        · have := hk c hc; omega
    · split
      · split
        · exact hm'
        · exact Memory.wf_cons.2 ⟨by assumption, fun c hc => by have := hk c hc; omega, hm'⟩
      · refine Memory.wf_cons.2 ⟨hv, ?_, ih hm'⟩
        intro c hc
        rcases Memory.mem_write hc with h | h
        · omega
        · exact hk c h

/-- A read of the address written gives the byte written. -/
theorem Memory.read_write_same {m : Memory} (hm : Memory.wf m = true) (a : Nat) (b : Byte) :
    Memory.read (Memory.write m a b) a = b := by
  induction m with
  | nil =>
    rw [Memory.write]
    split <;> simp_all [Memory.read]
  | cons c m ih =>
    obtain ⟨k, v⟩ := c
    obtain ⟨-, hk, hm'⟩ := Memory.wf_cons.1 hm
    rw [Memory.write]
    split
    · split
      · rw [Memory.read_unlisted]
        · simp_all
        · intro c hc
          rcases List.mem_cons.1 hc with rfl | hc
          · assumption
          · have := hk c hc; omega
      · simp [Memory.read]
    · split
      · split
        · rw [Memory.read_unlisted]
          · simp_all
          · intro c hc; have := hk c hc; omega
        · simp [Memory.read]
      · rw [Memory.read, if_neg (by omega)]
        exact ih hm'

/-- A write leaves every other address alone. -/
theorem Memory.read_write_other (m : Memory) {a a' : Nat} (b : Byte) (h : a' ≠ a) :
    Memory.read (Memory.write m a b) a' = Memory.read m a' := by
  induction m with
  | nil =>
    rw [Memory.write]
    split <;> simp [Memory.read, h.symm]
  | cons c m ih =>
    obtain ⟨k, v⟩ := c
    rw [Memory.write]
    split
    · split
      · rfl
      · rw [Memory.read, if_neg (by omega)]
    · split
      · split
        · rw [Memory.read, if_neg (by omega)]
        · rw [Memory.read, if_neg (by omega), Memory.read, if_neg (by omega)]
      · rw [Memory.read, Memory.read, ih]

/-- A write below the bound keeps the buffer in its bytes. -/
theorem Memory.write_below {bound : Nat} {m : Memory} (hm : Memory.below bound m = true) {a : Nat} (b : Byte)
    (h : a < bound) : Memory.below bound (Memory.write m a b) = true := by
  simp only [Memory.below, List.all_eq_true, decide_eq_true_eq] at *
  intro c hc
  rcases Memory.mem_write hc with h' | h'
  · omega
  · exact hm c h'

/-- Reception keeps the canonical form. -/
theorem storePayload_wf (bound : Nat) (bs : List Byte) :
    ∀ (j : Nat) {m : Memory}, Memory.wf m = true → Memory.wf (storePayload bound j bs m) = true := by
  induction bs with
  | nil => exact fun _ _ h => h
  | cons b bs ih =>
    intro j m h
    rw [storePayload]
    split
    · exact ih _ (Memory.write_wf h _ _)
    · exact ih _ h

/-- Reception never stores at PRINT_MAX or above (spec/43_text.md R126). -/
theorem storePayload_below (bound : Nat) (bs : List Byte) :
    ∀ (j : Nat) {m : Memory}, Memory.below bound m = true → Memory.below bound (storePayload bound j bs m) = true := by
  induction bs with
  | nil => exact fun _ _ h => h
  | cons b bs ih =>
    intro j m h
    rw [storePayload]
    split
    · exact ih _ (Memory.write_below h _ (by assumption))
    · exact ih _ h

/-- Reception leaves the addresses below its first position, and those at PRINT_MAX and above. -/
theorem read_storePayload_outside (bound : Nat) (bs : List Byte) :
    ∀ (j : Nat) (m : Memory) {a : Nat}, a < j ∨ bound ≤ a ∨ j + bs.length ≤ a →
      Memory.read (storePayload bound j bs m) a = Memory.read m a := by
  induction bs with
  | nil => exact fun _ _ _ _ => rfl
  | cons b bs ih =>
    intro j m a h
    simp only [List.length_cons] at h
    rw [storePayload, ih _ _ (by omega)]
    split
    · exact Memory.read_write_other m b (by omega)
    · rfl

/-- What was received below PRINT_MAX is read back (spec/20_memory.md R42). -/
theorem read_storePayload (bound : Nat) (bs : List Byte) :
    ∀ (j : Nat) {m : Memory}, Memory.wf m = true → ∀ (i : Nat) (hi : i < bs.length), j + i < bound →
      Memory.read (storePayload bound j bs m) (j + i) = bs[i] := by
  induction bs with
  | nil => intro j m _ i hi; simp at hi
  | cons b bs ih =>
    intro j m hm i hi hb
    rw [storePayload]
    cases i with
    | zero =>
      rw [read_storePayload_outside bound bs _ _ (by omega), if_pos (by omega)]
      exact Memory.read_write_same hm _ _
    | succ i =>
      have hi' : i < bs.length := by simpa using hi
      have hm' : Memory.wf (if j < bound then Memory.write m j b else m) = true := by
        split
        · exact Memory.write_wf hm _ _
        · exact hm
      have := ih (j + 1) hm' i hi' (by omega)
      simpa [Nat.add_assoc, Nat.add_comm 1 i] using this

/-- Bytes beyond PRINT_MAX are dropped: reception of the first PRINT_MAX is reception of all (spec/43_text.md R126). -/
theorem storePayload_take (bound : Nat) (bs : List Byte) :
    ∀ (j : Nat) (m : Memory), storePayload bound j (bs.take (bound - j)) m = storePayload bound j bs m := by
  induction bs with
  | nil => simp [storePayload]
  | cons b bs ih =>
    intro j m
    by_cases h : j < bound
    · obtain ⟨n, hn⟩ : ∃ n, bound - j = n + 1 := ⟨bound - j - 1, by omega⟩
      have hn' : bound - (j + 1) = n := by omega
      rw [hn, List.take_succ_cons, storePayload, storePayload, ← ih (j + 1), hn']
    · rw [show bound - j = 0 by omega, List.take_zero, storePayload, storePayload, if_neg h, ← ih (j + 1) m,
        show bound - (j + 1) = 0 by omega, List.take_zero, storePayload]

end Sys2Proof.Machine
end

