-- ==== Sys2Proof/Laws/Body.lean ====
section
/-! SUPPORT. What the bodies of the operations do when the transport answers ok, and when it fails one packet. -/

namespace Sys2Proof.Machine

/-! ### Failing transactions -/

theorem begunAt_append_left (g : Config) {ts : List Transaction} (us : List Transaction) :
    ∀ {n : Nat}, n < (ts.flatMap (packetsOf g)).length → begunAt g (ts ++ us) n = begunAt g ts n := by
  induction ts with
  | nil => intro n h; simp at h
  | cons t ts ih =>
    intro n h
    rw [List.flatMap_cons, List.length_append] at h
    rw [List.cons_append, begunAt, begunAt]
    split
    · rfl
    · rw [ih (by omega)]

theorem begunAt_append_right (g : Config) (ts us : List Transaction) (n : Nat) :
    begunAt g (ts ++ us) ((ts.flatMap (packetsOf g)).length + n) = ts ++ begunAt g us n := by
  induction ts with
  | nil => simp
  | cons t ts ih =>
    rw [List.cons_append, begunAt, List.flatMap_cons, List.length_append, if_neg (by omega),
      show (packetsOf g t).length + (ts.flatMap (packetsOf g)).length + n - (packetsOf g t).length
        = (ts.flatMap (packetsOf g)).length + n by omega, ih, List.cons_append]

/-- A sequence of transactions one of whose packets fails stops in that transaction. -/
theorem writeAll_fails {ts : List Transaction} {rest : List BusAnswer} :
    ∀ {n : Nat} {s : State}, n < (ts.flatMap (packetsOf s.cfg)).length → s.failsAt n rest →
      (forEach write ts).run s =
        (s.sent (begunAt s.cfg ts n) (failedAt (ts.flatMap (packetsOf s.cfg)) n) rest, .abandoned) := by
  induction ts with
  | nil => intro n s hn; simp at hn
  | cons t ts ih =>
    intro n s hn h
    rw [List.flatMap_cons, List.length_append] at hn
    rw [forEach_cons, List.flatMap_cons, begunAt]
    by_cases hlt : n < (packetsOf s.cfg t).length
    · rw [andThen_abandoned (write_fails hlt h), if_pos hlt, failedAt_append_left _ hlt]
    · obtain ⟨m, rfl⟩ : ∃ m, n = (packetsOf s.cfg t).length + m := ⟨n - (packetsOf s.cfg t).length, by omega⟩
      have hm : m < (ts.flatMap (packetsOf s.cfg)).length := by omega
      rw [State.failsAt, replicate_ok_add] at h
      rw [andThen_done (write_ok h), ih (n := m) (s := s.sent _ _ _) hm rfl, if_neg (by omega),
        Nat.add_sub_cancel_left, failedAt_append_right _ hm]
      simp only [State.sent_sent, State.sent_cfg, List.singleton_append]

/-! ### The wire form of the produced transactions -/

theorem windowTransactions_eq (g : Config) (p c : Byte) :
    windowTransactions g p c = [columnWindow g c, pageWindow g p] := rfl

theorem windowTransactions_packets (g : Config) (p c : Byte) :
    (windowTransactions g p c).flatMap (packetsOf g) = windowPackets g p c := by
  unfold windowPackets
  cases h : g.cmdAddrFirst <;> simp [windowTransactions, packetsOf, controlByte, h]

theorem dataTransactions_eq (l : List Byte) : dataTransactions l = l.map pixelData := rfl

theorem packetsOf_pixelData (g : Config) (b : Byte) : packetsOf g (pixelData b) = [⟨g.dataMarker, b⟩] := by
  simp [packetsOf, pixelData, controlByte]

theorem dataTransactions_packets (g : Config) (l : List Byte) :
    (dataTransactions l).flatMap (packetsOf g) = dataPackets g l := by
  induction l with
  | nil => rfl
  | cons b l ih =>
    rw [dataTransactions, List.map_cons, List.flatMap_cons] at *
    rw [ih, show (⟨.data, 0x00, [b]⟩ : Transaction) = pixelData b from rfl, packetsOf_pixelData]
    rfl

@[simp] theorem dataPackets_length (g : Config) (l : List Byte) : (dataPackets g l).length = l.length := by
  simp [dataPackets]

theorem windowPackets_pos (g : Config) (p c : Byte) : 0 < (windowPackets g p c).length := by
  unfold windowPackets; split <;> simp

/-- The row a meaning sends is the ROM's (spec/20_memory.md R41). -/
theorem bitmapRow_eq (g : Config) (r : Nat) : bitmapRow g r = romRow g r := by
  rw [bitmapRow, romRow, columnLength]
  exact List.map_congr_left fun _ _ => by rw [bitmapByte, columnLength]

/-- The slices of a glyph, from the Font Table or blank (spec/20_memory.md R40, spec/43_text.md R122). -/
theorem glyphBytes_eq (g : Config) (b : Byte) : glyphBytes g b = (List.range g.fontWidth).map fun i =>
    if b.toNat ≤ 127 then g.font.getD (b.toNat * g.fontWidth + i) 0 else 0x00 := by
  by_cases h : b.toNat ≤ 127
  · simp [glyphBytes, inFont, fontByte, h]
  · simp [glyphBytes, inFont, h]

@[simp] theorem bitmapRow_length (g : Config) (r : Nat) : (bitmapRow g r).length = 128 := by
  simp [bitmapRow, columnLength]

@[simp] theorem glyphBytes_length (g : Config) (b : Byte) : (glyphBytes g b).length = g.fontWidth := by
  unfold glyphBytes; split <;> simp

/-! ### set_cursor and new_line -/

theorem setCursor_windows {p c : Byte} (h : positionInRange p c = true) (s : State) :
    (setCursor p c).run s = andThen (forEach write (windowTransactions s.cfg p c)).run (placeCursor p c).run s := by
  rw [setCursor_inRange h, windowTransactions_eq, forEach_cons, forEach_cons, andThen_assoc, andThen_assoc]
  simp only [andThen, forEach_nil]

/-- `set_cursor` in range, all packets answered ok (spec/42_cursor.md R110). -/
theorem setCursor_ok {p c : Byte} (h : positionInRange p c = true) {s : State} {rest : List BusAnswer}
    (ha : s.answersOk (windowPackets s.cfg p c).length rest) :
    (setCursor p c).run s = (((s.sent (windowTransactions s.cfg p c) (answered (windowPackets s.cfg p c)) rest).setPage
      (byteToPage p)).setCol c, .done) := by
  rw [setCursor_windows h, andThen_done (writeAll_ok (by simp [windowTransactions])
    (by rw [windowTransactions_packets]; exact ha)), windowTransactions_packets]
  rfl

/-- `set_cursor` in range, packet `n` fails: the Cursor is unchanged (spec/42_cursor.md R110, spec/60_exceptions.md R153). -/
theorem setCursor_fails {p c : Byte} (h : positionInRange p c = true) {s : State} {n : Nat} {rest : List BusAnswer}
    (hn : n < (windowPackets s.cfg p c).length) (ha : s.failsAt n rest) :
    (setCursor p c).run s = (s.sent (begunAt s.cfg (windowTransactions s.cfg p c) n)
      (failedAt (windowPackets s.cfg p c) n) rest, .abandoned) := by
  rw [setCursor_windows h, andThen_abandoned (writeAll_fails (n := n) (rest := rest)
    (by rw [windowTransactions_packets]; exact hn) ha), windowTransactions_packets]

/-- The range test in numbers (spec/42_cursor.md R110). -/
theorem positionInRange_iff (p c : Byte) : positionInRange p c = true ↔ p.toNat ≤ 7 ∧ c.toNat ≤ 126 := by
  rw [positionInRange, Bool.and_eq_true, decide_eq_true_eq, decide_eq_true_eq, pageMax, columnMax]
  omega

theorem positionInRange_page (p : Page) : positionInRange (pageByte p) 0 = true := by
  have : p.toNat < 8 := p.isLt
  simp [positionInRange, pageByte, pageMax, columnMax]
  omega

@[simp] theorem byteToPage_pageByte (p : Page) : byteToPage (pageByte p) = p := by
  simp [byteToPage, pageByte]

/-- `new_line`, all packets answered ok (spec/42_cursor.md R112). -/
theorem newLine_ok {s : State} {rest : List BusAnswer}
    (ha : s.answersOk (windowPackets s.cfg (pageByte (s.curPage + 1)) 0).length rest) :
    newLine.run s = (((s.sent (windowTransactions s.cfg (pageByte (s.curPage + 1)) 0)
      (answered (windowPackets s.cfg (pageByte (s.curPage + 1)) 0)) rest).setPage (s.curPage + 1)).setCol 0, .done) := by
  rw [newLine_run, nextPage, setCursor_ok (s := s.setPage (s.curPage + 1)) (rest := rest) (positionInRange_page _) ha]
  simp [State.sent, State.setPage, State.setCol]

/-- `new_line`, packet `n` fails: the page is already incremented, the column is not changed (spec/42_cursor.md R112). -/
theorem newLine_fails {s : State} {n : Nat} {rest : List BusAnswer}
    (hn : n < (windowPackets s.cfg (pageByte (s.curPage + 1)) 0).length) (ha : s.failsAt n rest) :
    newLine.run s = ((s.sent (begunAt s.cfg (windowTransactions s.cfg (pageByte (s.curPage + 1)) 0) n)
      (failedAt (windowPackets s.cfg (pageByte (s.curPage + 1)) 0) n) rest).setPage (s.curPage + 1), .abandoned) := by
  rw [newLine_run, nextPage, setCursor_fails (s := s.setPage (s.curPage + 1)) (rest := rest) (positionInRange_page _) hn ha]
  simp [State.sent, State.setPage]

/-! ### Raw sweeps -/

theorem sweep_eq (l : List Byte) : sweep l = forEach write (dataTransactions l) := by
  rw [dataTransactions_eq, forEach_map, sweep]

/-- A raw sweep, all packets answered ok (spec/44_graphics.md R135). -/
theorem sweep_ok {l : List Byte} (hne : l ≠ []) {s : State} {rest : List BusAnswer} (ha : s.answersOk l.length rest) :
    (sweep l).run s = (s.sent (dataTransactions l) (answered (dataPackets s.cfg l)) rest, .done) := by
  rw [sweep_eq, writeAll_ok (rest := rest) (by simpa [dataTransactions] using hne)
    (by rw [dataTransactions_packets]; simpa using ha), dataTransactions_packets]

/-- A raw sweep whose packet `n` fails. -/
theorem sweep_fails {l : List Byte} {s : State} {n : Nat} {rest : List BusAnswer} (hn : n < l.length)
    (ha : s.failsAt n rest) :
    (sweep l).run s = (s.sent (begunAt s.cfg (dataTransactions l) n) (failedAt (dataPackets s.cfg l) n) rest, .abandoned) := by
  rw [sweep_eq, writeAll_fails (rest := rest) (n := n) (by rw [dataTransactions_packets]; simpa using hn) ha,
    dataTransactions_packets]

/-! ### Glyphs -/

/-- Slices, all packets answered ok: the column advances by one a slice (spec/43_text.md R120). -/
theorem slices_ok {l : List Byte} (hne : l ≠ []) {rest : List BusAnswer} :
    ∀ {s : State}, s.answersOk l.length rest →
      (forEach putSlice l).run s = ((s.sent (dataTransactions l) (answered (dataPackets s.cfg l)) rest).setCol
        (s.curCol + BitVec.ofNat 8 l.length), .done) := by
  induction l with
  | nil => exact absurd rfl hne
  | cons b l ih =>
    intro s h
    have h' : s.answersOk (packetsOf s.cfg (pixelData b)).length (List.replicate l.length .ok ++ rest) := by
      simpa [State.answersOk, packetsOf_pixelData, List.replicate_succ] using h
    rw [forEach_cons]
    have hb : (putSlice b).run s = ((s.sent [pixelData b] [(⟨s.cfg.dataMarker, b⟩, .ok)]
        (List.replicate l.length .ok ++ rest)).setCol (s.curCol + 1), .done) := by
      rw [putSlice_run, andThen_done (write_ok h'), packetsOf_pixelData]
      rfl
    rw [andThen_done hb]
    cases l with
    | nil => rfl
    | cons c l =>
      rw [ih (by simp) (by rfl)]
      simp [State.sent, State.setCol, dataTransactions, dataPackets, answered, pixelData,
        BitVec.ofNat_add, add_assoc, add_comm]

/-- Slices whose slice `i` fails: the column has advanced by `i` (spec/43_text.md R120, spec/60_exceptions.md R153). -/
theorem slices_fail {l : List Byte} {rest : List BusAnswer} :
    ∀ {i : Nat} {s : State}, i < l.length → s.failsAt i rest →
      (forEach putSlice l).run s = ((s.sent (dataTransactions (l.take (i + 1))) (failedAt (dataPackets s.cfg l) i) rest).setCol
        (s.curCol + BitVec.ofNat 8 i), .abandoned) := by
  induction l with
  | nil => intro i s hi; simp at hi
  | cons b l ih =>
    intro i s hi h
    rw [forEach_cons]
    cases i with
    | zero =>
      have hb : (putSlice b).run s = (s.sent [pixelData b] [(⟨s.cfg.dataMarker, b⟩, .busError)] rest, .abandoned) := by
        rw [putSlice_run, andThen_abandoned (write_fails (n := 0) (rest := rest) (by simp [packetsOf_pixelData]) h),
          packetsOf_pixelData]
        rfl
      rw [andThen_abandoned hb]
      simp [State.sent, State.setCol, dataTransactions, pixelData, dataPackets, failedAt_zero]
    | succ i =>
      have h' : s.answersOk (packetsOf s.cfg (pixelData b)).length (List.replicate i .ok ++ .busError :: rest) := by
        simpa [State.answersOk, State.failsAt, packetsOf_pixelData, List.replicate_succ] using h
      have hb : (putSlice b).run s = ((s.sent [pixelData b] [(⟨s.cfg.dataMarker, b⟩, .ok)]
          (List.replicate i .ok ++ .busError :: rest)).setCol (s.curCol + 1), .done) := by
        rw [putSlice_run, andThen_done (write_ok h'), packetsOf_pixelData]
        rfl
      rw [andThen_done hb, ih (i := i) (by simpa using hi) (by rfl)]
      have hc : s.curCol + 1 + BitVec.ofNat 8 i = s.curCol + BitVec.ofNat 8 (i + 1) := by
        rw [BitVec.ofNat_add]; ac_rfl
      simp only [State.sent, State.setCol, dataTransactions, dataPackets, pixelData,
        List.map_cons, List.take_succ_cons, failedAt_succ, hc, List.append_assoc, List.singleton_append]

/-- A glyph, all packets answered ok (spec/43_text.md R120, R122). -/
theorem putGlyph_ok {b : Byte} {s : State} {rest : List BusAnswer} (hw : 0 < s.cfg.fontWidth)
    (ha : s.answersOk s.cfg.fontWidth rest) :
    (putGlyph b).run s = (((s.afterGlyph b).sent (dataTransactions (glyphBytes s.cfg b))
      (answered (dataPackets s.cfg (glyphBytes s.cfg b))) rest).setCol
        (s.curCol + BitVec.ofNat 8 s.cfg.fontWidth), .done) := by
  have hne : glyphBytes s.cfg b ≠ [] := by
    intro h; have := glyphBytes_length s.cfg b; rw [h] at this; simp at this; omega
  rw [putGlyph_run, slices_ok (rest := rest) hne
    (by simpa [State.answersOk] using ha)]
  simp

/-- A glyph whose slice `i` fails (spec/43_text.md R120). -/
theorem putGlyph_fails {b : Byte} {s : State} {i : Nat} {rest : List BusAnswer} (hi : i < s.cfg.fontWidth)
    (ha : s.failsAt i rest) :
    (putGlyph b).run s = (((s.afterGlyph b).sent (dataTransactions ((glyphBytes s.cfg b).take (i + 1)))
      (failedAt (dataPackets s.cfg (glyphBytes s.cfg b)) i) rest).setCol (s.curCol + BitVec.ofNat 8 i), .abandoned) := by
  rw [putGlyph_run, slices_fail (rest := rest) (i := i)
    (by simpa using hi) (by simpa [State.failsAt] using ha)]
  simp

end Sys2Proof.Machine
end

