-- ==== Sys2Proof/Laws/Effect.lean ====
section
/-! SUPPORT. Everything a piece of an operation can do, whatever the transport answers: its frame, the flags it may set, the transactions it may issue, and how they stand on the wire. -/

namespace Sys2Proof.Machine

/-- How transactions stand on the wire after a piece that ended so: all their packets answered ok; or those up to the
failing packet, which comes last; or those up to the packet in flight (spec/60_exceptions.md R159). -/
def WireOf (s : State) (txs : List Transaction) : State × Flow → Prop
  | (t, .done) => t.wtrace = s.wtrace ++ answered (txs.flatMap (packetsOf s.cfg)) ∧ (s.inFlight = none → t.inFlight = none)
  | (t, .abandoned) => t.inFlight = none ∧ ∃ before tx sent p, txs = before ++ [tx] ∧ sent ++ [p] <+: packetsOf s.cfg tx ∧
      t.wtrace = s.wtrace ++ answered (before.flatMap (packetsOf s.cfg) ++ sent) ++ [(p, .busError)]
  | (t, .waiting) => ∃ before tx sent p, txs = before ++ [tx] ∧ sent ++ [p] <+: packetsOf s.cfg tx ∧
      t.inFlight = some p ∧ t.wtrace = s.wtrace ++ answered (before.flatMap (packetsOf s.cfg) ++ sent)

/-- What a piece of an operation can do: `mask` holds the flags it may change, `may` the transactions it may issue. -/
structure Effect (mask : Byte) (may : Config → Transaction → Prop) (s : State) (r : State × Flow) : Prop where
  frame : Frame s r.1
  status : r.1.status &&& ~~~ mask = s.status &&& ~~~ mask
  wire : ∃ txs, r.1.ttrace = s.ttrace ++ txs ∧ (∀ x ∈ txs, may s.cfg x) ∧ WireOf s txs r

theorem WireOf.comp {s t : State} {txs us : List Transaction} {r : State × Flow} (hc : t.cfg = s.cfg)
    (h : WireOf s txs (t, .done)) (k : WireOf t us r) : WireOf s (txs ++ us) r := by
  obtain ⟨hw, hi⟩ := h
  obtain ⟨u, _ | _ | _⟩ := r
  · obtain ⟨kw, ki⟩ := k
    refine ⟨?_, fun h => ki (hi h)⟩
    rw [kw, hw, hc, List.flatMap_append, answered_append, List.append_assoc]
  · obtain ⟨ki, before, tx, sent, p, rfl, hp, kw⟩ := k
    refine ⟨ki, txs ++ before, tx, sent, p, by simp, hc ▸ hp, ?_⟩
    rw [kw, hw, hc]
    simp only [List.flatMap_append, answered_append, List.append_assoc]
  · obtain ⟨before, tx, sent, p, rfl, hp, ki, kw⟩ := k
    refine ⟨txs ++ before, tx, sent, p, by simp, hc ▸ hp, ki, ?_⟩
    rw [kw, hw, hc]
    simp only [List.flatMap_append, answered_append, List.append_assoc]

theorem effect_composes (mask : Byte) (may : Config → Transaction → Prop) : Composes (Effect mask may) where
  refl s := ⟨.refl s, rfl, [], by simp, by simp, by simp [WireOf]⟩
  comp := by
    intro s t r h k
    obtain ⟨txs, ht, hm, hw⟩ := h.wire
    obtain ⟨us, kt, km, kw⟩ := k.wire
    refine ⟨h.frame.trans k.frame, k.status.trans h.status, txs ++ us, by rw [kt, ht, List.append_assoc], ?_,
      hw.comp h.frame.cfg kw⟩
    intro x hx
    rcases List.mem_append.1 hx with hx | hx
    · exact hm x hx
    · have := km x hx
      rwa [h.frame.cfg] at this

/-- More flags and more transactions allow no less. -/
theorem Effect.mono {mask mask' : Byte} {may may' : Config → Transaction → Prop} {s : State} {r : State × Flow}
    (h : Effect mask may s r) (hm : mask ||| mask' = mask') (hmay : ∀ g x, may g x → may' g x) :
    Effect mask' may' s r := by
  refine ⟨h.frame, ?_, ?_⟩
  · have := h.status
    have hx : ∀ x : Byte, x &&& ~~~ mask' = (x &&& ~~~ mask) &&& ~~~ mask' := by
      intro x
      rw [← hm]
      ext i
      simp only [BitVec.getElem_and, BitVec.getElem_not, BitVec.getElem_or]
      cases x[i] <;> cases mask[i] <;> simp
    rw [hx, this, ← hx]
  · obtain ⟨txs, ht, hq, hw⟩ := h.wire
    exact ⟨txs, ht, fun x hx => hmay _ _ (hq x hx), hw⟩

/-- Register writes that change only flags of the mask, or no flag. -/
theorem effect_writes {mask : Byte} {may : Config → Transaction → Prop} {s t : State}
    (hf : Frame s t) (hs : t.status &&& ~~~ mask = s.status &&& ~~~ mask) (ht : t.ttrace = s.ttrace)
    (hw : t.wtrace = s.wtrace) (hi : t.inFlight = s.inFlight) : Effect mask may s (t, .done) :=
  ⟨hf, hs, [], by simp [ht], by simp, by simp [WireOf, hw, hi]⟩

/-- Transmissions: those answered ok, then the one that failed or is unanswered. -/
theorem sendAll_wire (ps : List Packet) :
    ∀ s : State, match (forEach .send ps).run s with
      | (t, .done) => t.wtrace = s.wtrace ++ answered ps ∧ (s.inFlight = none → t.inFlight = none)
      | (t, .abandoned) => t.inFlight = none ∧ ∃ sent p, sent ++ [p] <+: ps ∧
          t.wtrace = s.wtrace ++ answered sent ++ [(p, .busError)]
      | (t, .waiting) => ∃ sent p, sent ++ [p] <+: ps ∧ t.inFlight = some p ∧ t.wtrace = s.wtrace ++ answered sent := by
  induction ps with
  | nil => intro s; simp [forEach_nil]
  | cons p ps ih =>
    intro s
    rw [sends_cons]
    cases ha : s.answer
    · have h1 : send p s = (s.takeAnswer.record p .ok, .done) := by simp only [send, ha]
      rw [andThen_done h1]
      have := ih (s.takeAnswer.record p .ok)
      revert this
      rcases (forEach .send ps).run (s.takeAnswer.record p .ok) with ⟨u, _ | _ | _⟩ <;> intro this <;>
        simp only [State.record_wtrace, State.takeAnswer_wtrace, State.record_inFlight, forall_const] at this ⊢
      · exact ⟨by rw [this.1]; simp [answered], fun _ => this.2⟩
      · obtain ⟨h0, sent, q, h1, h2⟩ := this
        exact ⟨h0, p :: sent, q, by simpa using h1, by rw [h2]; simp [answered]⟩
      · obtain ⟨sent, q, h1, h0, h2⟩ := this
        exact ⟨p :: sent, q, by simpa using h1, h0, by rw [h2]; simp [answered]⟩
    · have h1 : send p s = (s.takeAnswer.record p .busError, .abandoned) := by simp only [send, ha]
      rw [andThen_abandoned h1]
      exact ⟨by simp, [], p, by simp, by simp⟩
    · have h1 : send p s = (s.takeAnswer.hold p, .waiting) := by simp only [send, ha]
      simp only [andThen, h1]
      exact ⟨[], p, by simp, by simp, by simp⟩

theorem sendAll_ttrace (ps : List Packet) : ∀ s : State, ((forEach .send ps).run s).1.ttrace = s.ttrace := by
  have hc : Composes fun s r => r.1.ttrace = s.ttrace := ⟨fun _ => rfl, fun h k => k.trans h⟩
  exact hc.forEach (body := .send) fun p _ s => by rw [Prog.run_send]; unfold send; split <;> simp

/-- The Framer's `write`, whatever the transport answers (spec/40_framer.md R90, R92). -/
theorem write_effect {may : Config → Transaction → Prop} {t : Transaction} {s : State} (hm : may s.cfg t) (mask : Byte) :
    Effect mask may s ((write t).run s) := by
  obtain ⟨hf, hr⟩ := write_frame t s
  refine ⟨hf, by rw [hr.status], [t], ?_, by simpa using hm, ?_⟩
  · rw [write_run, sendAll_ttrace]; rfl
  · have := sendAll_wire (packetsOf s.cfg t) (s.noteTransaction t)
    rw [write_run]
    revert this
    rcases (forEach .send (packetsOf s.cfg t)).run (s.noteTransaction t) with ⟨u, _ | _ | _⟩ <;> intro this
    · exact ⟨by simpa using this.1, this.2⟩
    · obtain ⟨h0, sent, p, h1, h2⟩ := this
      exact ⟨h0, [], t, sent, p, rfl, h1, by simpa using h2⟩
    · obtain ⟨sent, p, h1, h0, h2⟩ := this
      exact ⟨[], t, sent, p, rfl, h1, h0, by simpa using h2⟩

theorem status_or_flag (f : Flag) (v : Byte) : (v ||| flagMask f) &&& ~~~ flagMask f = v &&& ~~~ flagMask f := by
  ext i
  simp only [BitVec.getElem_and, BitVec.getElem_not, BitVec.getElem_or]
  cases v[i] <;> cases (flagMask f)[i] <;> rfl

/-- `set_cursor` in range sets no flag and issues windows (spec/42_cursor.md R110). -/
theorem setCursor_effect_inRange {p c : Byte} (h : positionInRange p c = true) (mask : Byte) (s : State) :
    Effect mask isWindow s ((setCursor p c).run s) := by
  have hR := effect_composes mask isWindow
  rw [setCursor_inRange h]
  obtain ⟨hp, hc⟩ := (positionInRange_iff p c).1 h
  refine hR.andThen (write_effect (.inl ⟨c, hc, rfl⟩) _) fun t ht => hR.andThen (write_effect ?_ _) fun u _ => ?_
  · exact .inr ⟨p, hp, by rw [pageWindow, ht.frame.cfg]; rfl⟩
  · exact effect_writes ⟨rfl, rfl, rfl, rfl, rfl, rfl, rfl⟩ rfl rfl rfl rfl

/-- `set_cursor`: it may set IGN and issue windows (spec/42_cursor.md R110). -/
theorem setCursor_effect (p c : Byte) (s : State) : Effect (flagMask .ign) isWindow s ((setCursor p c).run s) := by
  cases h : positionInRange p c
  · rw [setCursor_outOfRange h]
    exact effect_writes ⟨rfl, rfl, rfl, rfl, rfl, rfl, rfl⟩ (status_or_flag _ _) rfl rfl rfl
  · exact setCursor_effect_inRange h _ s

/-- `new_line` sets no flag and issues windows (spec/42_cursor.md R112). -/
theorem newLine_effect (mask : Byte) (s : State) : Effect mask isWindow s (newLine.run s) := by
  rw [newLine_run]
  exact (effect_composes mask isWindow).comp (t := s.setPage (nextPage s.curPage))
    (effect_writes ⟨rfl, rfl, rfl, rfl, rfl, rfl, rfl⟩ rfl rfl rfl rfl)
    (setCursor_effect_inRange (positionInRange_page _) _ _)

/-- The transactions of the drawing operations (spec/30_encoding.md R69). -/
def drawn (g : Config) (t : Transaction) : Prop := isWindow g t ∨ isPixelData t

/-- A piece that issues windows issues what a drawing operation may. -/
theorem Effect.drawn {mask : Byte} {s : State} {r : State × Flow} (h : Effect mask isWindow s r) :
    Effect mask drawn s r := h.mono (by simp) fun _ _ h => .inl h

theorem sweep_effect (mask : Byte) (l : List Byte) (s : State) : Effect mask drawn s ((sweep l).run s) :=
  (effect_composes mask drawn).forEach (body := fun b => write (pixelData b))
    (fun b _ _ => write_effect (.inr ⟨b, rfl⟩) mask) s

theorem putGlyph_effect (b : Byte) (s : State) : Effect (flagMask .ug) drawn s ((putGlyph b).run s) := by
  have hR := effect_composes (flagMask .ug) drawn
  rw [putGlyph_run]
  refine hR.comp (t := s.afterGlyph b) (effect_writes ⟨by simp, by simp, by simp, by simp, by simp, by simp, by simp⟩
    ?_ (by simp) (by simp) (by simp)) (hR.forEach (fun c _ u => ?_) _)
  · rw [State.afterGlyph_status]
    split
    · rfl
    · exact status_or_flag _ _
  · rw [putSlice_run]
    exact hR.andThen (write_effect (.inr ⟨c, rfl⟩) _) fun v _ =>
      effect_writes ⟨rfl, rfl, rfl, rfl, rfl, rfl, rfl⟩ rfl rfl rfl rfl

/-- `put_char`: it may set UG (spec/43_text.md R120). -/
theorem putChar_effect (b : Byte) (s : State) : Effect (flagMask .ug) drawn s ((putChar b).run s) := by
  rw [putChar_run]
  split
  · exact (newLine_effect _ s).drawn
  · split
    · exact (effect_composes _ _).andThen (newLine_effect _ s).drawn fun t _ => putGlyph_effect b t
    · exact putGlyph_effect b s

theorem initBody_effect (s : State) : Effect 0 isInitStep s (initBody.run s) := by
  have hR := effect_composes 0 isInitStep
  have hl : ∀ l : List InitStep, (∀ k ∈ l, k ∈ s.cfg.initSeq.steps) → ∀ u : State, u.cfg = s.cfg →
      Effect 0 isInitStep u ((forEach (fun k => write (initTransaction k)) l).run u) := by
    intro l
    induction l with
    | nil => exact fun _ u _ => hR.refl u
    | cons k l ih =>
      intro hl u hu
      exact hR.andThen (write_effect ⟨k, hu ▸ hl k (by simp), rfl⟩ _) fun v hv =>
        ih (fun j hj => hl j (by simp [hj])) v (hv.frame.cfg.trans hu)
  rw [initBody_run]
  exact hR.comp (t := (s.setPage 0).setCol 0) (effect_writes ⟨rfl, rfl, rfl, rfl, rfl, rfl, rfl⟩ rfl rfl rfl rfl)
    (hl _ (fun _ h => h) _ rfl)

theorem fillBody_effect (b : Byte) (s : State) : Effect 0 drawn s ((fillBody b).run s) := by
  rw [fillBody_run]
  exact (effect_composes 0 drawn).andThen (setCursor_effect_inRange (by decide) _ s).drawn fun t _ => sweep_effect 0 _ t

theorem bitmapLine_effect (mask : Byte) (r : Nat) (s : State) : Effect mask drawn s ((bitmapLine r).run s) := by
  rw [bitmapLine_run]
  exact (effect_composes mask drawn).andThen (sweep_effect mask _ s) fun t _ => (newLine_effect _ t).drawn

theorem drawBitmapBody_effect (p c : Byte) (s : State) : Effect (flagMask .ign) drawn s ((drawBitmapBody p c).run s) := by
  rw [drawBitmapBody_run]
  exact (effect_composes _ drawn).andThen (setCursor_effect p c s).drawn fun t _ =>
    (effect_composes _ drawn).forEach (fun r _ u => bitmapLine_effect _ r u) t

/-! ### The end of an operation -/

theorem endOperation_done (s : State) : endOperation (s, .done) = { s with status := s.status &&& 0x7F } := rfl

theorem endOperation_abandoned (s : State) :
    endOperation (s, .abandoned) = { s with status := (s.status ||| 0x01) &&& 0x7F } := rfl

theorem endOperation_waiting (s : State) :
    endOperation (s, .waiting) = { s with status := s.status ||| 0x80 } := rfl

/-- The end of a body that left STATUS at `w`. -/
theorem endOperation_done_of {t : State} (w v : Byte) (h : t.status = w) (hv : w &&& 0x7F = v) :
    endOperation (t, .done) = { t with status := v } := by
  rw [endOperation_done, h, hv]

/-- The abort of a body that left STATUS at `w`. -/
theorem endOperation_abandoned_of {t : State} (w v : Byte) (h : t.status = w) (hv : (w ||| 0x01) &&& 0x7F = v) :
    endOperation (t, .abandoned) = { t with status := v } := by
  rw [endOperation_abandoned, h, hv]

theorem accept_eq (s : State) : s.accept = { s with status := 0x80 } := rfl

end Sys2Proof.Machine
end

