-- ==== Sys2Proof/Laws/Operations.lean ====
section
/-! SUPPORT. What the drawing bodies do under scripted answers, how PRINT reads its message back, and how many transmissions a body makes. -/

namespace Sys2Proof.Machine

/-! ### put_char -/

theorem putChar_newline (s : State) : (putChar s.cfg.newline).run s = newLine.run s := by
  rw [putChar_run, if_pos rfl]

/-- The wrap test in numbers (spec/43_text.md R123). -/
theorem needsWrap_iff (g : Config) (c : Byte) : needsWrap g c = true ↔ 128 < c.toNat + g.fontWidth := by
  rw [needsWrap, decide_eq_true_eq]; rfl

theorem putChar_fits {b : Byte} {s : State} (hb : b ≠ s.cfg.newline) (hw : s.curCol.toNat + s.cfg.fontWidth ≤ 128) :
    (putChar b).run s = (putGlyph b).run s := by
  have h : ¬ needsWrap s.cfg s.curCol = true := by rw [needsWrap_iff]; omega
  rw [putChar_run, if_neg hb, if_neg h]

theorem putChar_wraps {b : Byte} {s : State} (hb : b ≠ s.cfg.newline) (hw : 128 < s.curCol.toNat + s.cfg.fontWidth) :
    (putChar b).run s = andThen newLine.run (putGlyph b).run s := by
  rw [putChar_run, if_neg hb, if_pos ((needsWrap_iff _ _).2 hw)]

/-! ### PRINT -/

/-- `put_char` leaves MSG alone, so a loop over positions of MSG is a loop over the bytes there (spec/43_text.md R125). -/
theorem forEach_msg {f : Nat → Byte} {l : List Nat} :
    ∀ {s : State}, (∀ j ∈ l, Memory.read s.mem j = f j) →
      (forEach putStored l).run s = (forEach putChar (l.map f)).run s := by
  induction l with
  | nil => exact fun _ => rfl
  | cons j l ih =>
    intro s h
    rw [List.map_cons, forEach_cons, forEach_cons, andThen, andThen, putStored_run, h j (by simp)]
    have hm := (putChar_effect (f j) s).frame.mem
    revert hm
    rcases (putChar (f j)).run s with ⟨t, _ | _ | _⟩ <;> intro hm
    · exact ih fun k hk => by rw [hm]; exact h k (by simp [hk])
    · rfl
    · rfl

/-- PRINT's body renders the first PRINT_MAX payload bytes by `put_char`, in order (spec/43_text.md R125). -/
theorem printBody_eq {s : State} (hm : Memory.wf s.mem = true) (payload : List Byte) :
    (printBody payload).run s = (forEach putChar (payload.take s.cfg.printMax)).run (s.afterMessage payload) := by
  rw [printBody_run, forEach_msg (f := fun j => payload.getD j 0)]
  · congr 2
    refine List.ext_getElem (by simp [renderedLength, Nat.min_comm]) fun i h1 h2 => ?_
    simp only [renderedLength, List.length_map, List.length_range] at h1
    simp [List.getElem?_eq_getElem (show i < payload.length by omega)]
  · intro j hj
    simp only [renderedLength, List.mem_range] at hj
    rw [State.afterMessage_mem]
    have := read_storePayload s.cfg.printMax payload 0 hm j (by omega) (by omega)
    rw [Nat.zero_add] at this
    rw [this, List.getD_eq_getElem?_getD, List.getElem?_eq_getElem (by omega)]
    rfl

/-! ### Rows of the bitmap -/

/-- The transactions of one bitmap line from a page: the row's data, then the new line to the next page. -/
def lineTransactions (g : Config) (r : Nat) (page : Page) : List Transaction :=
  dataTransactions (bitmapRow g r) ++ windowTransactions g (pageByte (page + 1)) 0

/-- Their packets. -/
def linePackets (g : Config) (r : Nat) (page : Page) : List Packet :=
  dataPackets g (bitmapRow g r) ++ windowPackets g (pageByte (page + 1)) 0

theorem lineTransactions_packets (g : Config) (r : Nat) (page : Page) :
    (lineTransactions g r page).flatMap (packetsOf g) = linePackets g r page := by
  rw [lineTransactions, List.flatMap_append, dataTransactions_packets, windowTransactions_packets, linePackets]

theorem bitmapRow_ne_nil (g : Config) (r : Nat) : bitmapRow g r ≠ [] := by
  intro h; have := bitmapRow_length g r; rw [h] at this; simp at this

theorem linePackets_length (g : Config) (r : Nat) (page : Page) :
    (linePackets g r page).length = 128 + (windowPackets g (pageByte (page + 1)) 0).length := by
  simp [linePackets]

/-- One bitmap line, every packet answered ok (spec/44_graphics.md R138). -/
theorem bitmapLine_ok {r : Nat} {s : State} {rest : List BusAnswer}
    (ha : s.answersOk (linePackets s.cfg r s.curPage).length rest) :
    (bitmapLine r).run s = (((s.sent (lineTransactions s.cfg r s.curPage) (answered (linePackets s.cfg r s.curPage)) rest).setPage
      (s.curPage + 1)).setCol 0, .done) := by
  rw [State.answersOk, linePackets_length, replicate_ok_add] at ha
  have h1 := sweep_ok (bitmapRow_ne_nil s.cfg r) (s := s) (rest := _) (by rw [bitmapRow_length]; exact ha)
  rw [bitmapLine_run, andThen_done h1, newLine_ok (rest := rest) (by rfl)]
  simp [State.sent, State.setPage, State.setCol, lineTransactions, linePackets]

/-- One bitmap line whose packet `k` fails (spec/60_exceptions.md R153). -/
theorem bitmapLine_fails {r k : Nat} {s : State} {rest : List BusAnswer}
    (hk : k < (linePackets s.cfg r s.curPage).length) (ha : s.failsAt k rest) :
    (bitmapLine r).run s = ((s.sent (begunAt s.cfg (lineTransactions s.cfg r s.curPage) k)
      (failedAt (linePackets s.cfg r s.curPage) k) rest).setPage
        (if k < 128 then s.curPage else s.curPage + 1), .abandoned) := by
  rw [linePackets_length] at hk
  by_cases hlt : k < 128
  · have h1 := sweep_fails (l := bitmapRow s.cfg r) (n := k) (s := s) (by rw [bitmapRow_length]; exact hlt) ha
    rw [bitmapLine_run, andThen_abandoned h1, if_pos hlt, lineTransactions, linePackets,
      begunAt_append_left _ _ (by rw [dataTransactions_packets]; simpa using hlt),
      failedAt_append_left _ (by simpa using hlt)]
    rfl
  · obtain ⟨m, rfl⟩ : ∃ m, k = 128 + m := ⟨k - 128, by omega⟩
    rw [State.failsAt, replicate_ok_add] at ha
    have h1 := sweep_ok (bitmapRow_ne_nil s.cfg r) (s := s) (rest := _) (by rw [bitmapRow_length]; exact ha)
    have hm : m < (windowPackets s.cfg (pageByte (s.curPage + 1)) 0).length := by omega
    have hb := begunAt_append_right s.cfg (dataTransactions (bitmapRow s.cfg r))
      (windowTransactions s.cfg (pageByte (s.curPage + 1)) 0) m
    rw [dataTransactions_packets, dataPackets_length, bitmapRow_length] at hb
    have hp := failedAt_append_right (dataPackets s.cfg (bitmapRow s.cfg r)) hm
    rw [dataPackets_length, bitmapRow_length] at hp
    rw [bitmapLine_run, andThen_done h1, newLine_fails (s := s.sent _ _ _) (n := m) (rest := rest) hm rfl, if_neg hlt, lineTransactions, linePackets, hb, hp]
    simp [State.sent, State.setPage]

theorem bitmapTransactions_cons (g : Config) (start : Page) (k : Nat) (l : List Nat) :
    bitmapTransactions g start (k :: l) =
      lineTransactions g k (start + BitVec.ofNat 3 k) ++ bitmapTransactions g start l := by
  rw [bitmapTransactions, List.flatMap_cons, BitVec.ofNat_add, ← BitVec.add_assoc, lineTransactions, bitmapRow_eq]
  rfl

theorem bitmapPackets_cons (g : Config) (start : Page) (k : Nat) (l : List Nat) :
    bitmapPackets g start (k :: l) = linePackets g k (start + BitVec.ofNat 3 k) ++ bitmapPackets g start l := by
  rw [bitmapPackets, List.flatMap_cons, BitVec.ofNat_add, ← BitVec.add_assoc, linePackets, bitmapRow_eq]
  rfl

theorem bitmapPackets_append (g : Config) (start : Page) (l m : List Nat) :
    bitmapPackets g start (l ++ m) = bitmapPackets g start l ++ bitmapPackets g start m := by
  simp [bitmapPackets]

/-- Rows `k` to `k + n - 1` drawn from page `start + k`, every packet answered ok (spec/44_graphics.md R138). -/
theorem rows_ok {start : Page} {rest : List BusAnswer} (n : Nat) :
    ∀ {k : Nat} {s : State}, s.curPage = start + BitVec.ofNat 3 k →
      s.answersOk (bitmapPackets s.cfg start (List.range' k n)).length rest →
      (forEach bitmapLine (List.range' k n)).run s =
        (if n = 0 then s else ((s.sent (bitmapTransactions s.cfg start (List.range' k n))
          (answered (bitmapPackets s.cfg start (List.range' k n))) rest).setPage
            (start + BitVec.ofNat 3 (k + n))).setCol 0, .done) := by
  induction n with
  | zero => intro k s _ _; simp [forEach_nil]
  | succ n ih =>
    intro k s hp ha
    rw [List.range'_succ] at ha ⊢
    rw [bitmapPackets_cons, List.length_append, State.answersOk, replicate_ok_add] at ha
    rw [forEach_cons, andThen_done (bitmapLine_ok (s := s) (rest := _) (by rw [hp]; exact ha)), hp, if_neg (by omega)]
    have hn : (start + BitVec.ofNat 3 k) + 1 = start + BitVec.ofNat 3 (k + 1) := by
      rw [BitVec.ofNat_add, ← BitVec.add_assoc]; rfl
    rw [ih (k := k + 1) (by exact hn) (by rfl)]
    rw [bitmapTransactions_cons, bitmapPackets_cons]
    split
    · subst n
      simp only [List.range'_zero, bitmapTransactions, bitmapPackets, List.flatMap_nil, List.append_nil, hn,
        List.length_nil, List.replicate_zero, List.nil_append, Nat.zero_add]
    · rw [show k + 1 + n = k + (n + 1) by omega]
      simp [State.sent, State.setPage, State.setCol]

/-! ### Numbers and values the statements use -/

/-- The next page, as the operand byte of `set_cursor` (spec/42_cursor.md R112). -/
theorem pageByte_next (p : Page) : pageByte (p + 1) = BitVec.ofNat 8 ((p.toNat + 1) % 8) := by
  apply BitVec.eq_of_toNat_eq; simp [pageByte]

/-- The next page, modulo 8 (spec/42_cursor.md R112). -/
theorem page_next (p : Page) : p + 1 = BitVec.ofNat 3 ((p.toNat + 1) % 8) := by
  apply BitVec.eq_of_toNat_eq; simp

theorem page_add (p : Page) (n : Nat) : p + BitVec.ofNat 3 n = BitVec.ofNat 3 ((p.toNat + n) % 8) := by
  apply BitVec.eq_of_toNat_eq; simp

theorem byteToPage_eq (p : Byte) : byteToPage p = BitVec.ofNat 3 p.toNat := by
  apply BitVec.eq_of_toNat_eq; simp [byteToPage]

theorem col_add (c : Byte) (n : Nat) : c + BitVec.ofNat 8 n = BitVec.ofNat 8 (c.toNat + n) := by
  apply BitVec.eq_of_toNat_eq; simp

theorem positionInRange_false {p c : Byte} (h : 7 < p.toNat ∨ 126 < c.toNat) : positionInRange p c = false := by
  rw [Bool.eq_false_iff, Ne, positionInRange_iff]; omega

theorem windowPackets_length (g : Config) (p c : Byte) :
    (windowPackets g p c).length = if g.cmdAddrFirst then 6 else 4 := by
  unfold windowPackets; split <;> rfl

/-- The flag of the glyph lookup, in numbers (spec/43_text.md R122). -/
theorem afterGlyph_eq (b : Byte) (s : State) :
    s.afterGlyph b = { s with status := if 128 ≤ b.toNat then s.status ||| 0x04 else s.status } := by
  unfold State.afterGlyph
  by_cases h : b.toNat ≤ 127
  · rw [if_pos (by simpa [inFont] using h), if_neg (by omega)]
  · rw [if_neg (by simpa [inFont] using h), if_pos (by omega)]; rfl

/-- The state PRINT renders its message from (spec/43_text.md R125). -/
theorem printStart_eq (s : State) (payload : List Byte) :
    s.accept.afterMessage payload =
      { s with
        mem := storePayload s.cfg.printMax 0 payload s.mem
        status := if s.cfg.printMax < payload.length then 0x88 else 0x80 } := by
  unfold State.afterMessage
  by_cases h : s.cfg.printMax < payload.length
  · rw [if_pos (show s.accept.cfg.printMax < _ from h), if_pos h]
    simp [State.receive, State.setFlag, State.accept, State.setStatus, flagMask, acceptedStatus]
  · rw [if_neg (show ¬ s.accept.cfg.printMax < _ from h), if_neg h]
    simp [State.receive, State.accept, State.setStatus, acceptedStatus]

/-! ### FILL and DRAW_BITMAP as wholes -/

/-- FILL's body, every packet answered ok (spec/44_graphics.md R135). -/
theorem fillBody_ok {b : Byte} {s : State} {rest : List BusAnswer}
    (ha : s.answersOk ((windowPackets s.cfg 0 0).length + fillCount) rest) :
    (fillBody b).run s = (((s.sent (windowTransactions s.cfg 0 0 ++ dataTransactions (List.replicate fillCount b))
      (answered (windowPackets s.cfg 0 0 ++ dataPackets s.cfg (List.replicate fillCount b))) rest).setPage 0).setCol 0,
      .done) := by
  have hl : (List.replicate fillCount b).length = fillCount := List.length_replicate
  rw [State.answersOk, replicate_ok_add] at ha
  rw [fillBody_run, andThen_done (setCursor_ok (by decide) (rest := _) ha),
    sweep_ok (rest := rest) (List.ne_nil_of_length_pos (by rw [hl]; decide)) (by rw [hl]; rfl)]
  generalize List.replicate fillCount b = l
  simp [State.sent, State.setPage, State.setCol, byteToPage]

/-- FILL's body whose packet `n` fails: in the windows the Cursor is unchanged, in the sweep it is (0,0)
(spec/44_graphics.md R135, spec/60_exceptions.md R153). -/
theorem fillBody_fails {b : Byte} {s : State} {n : Nat} {rest : List BusAnswer}
    (hn : n < (windowPackets s.cfg 0 0).length + fillCount) (ha : s.failsAt n rest) :
    (fillBody b).run s =
      ({ s.sent (begunAt s.cfg (windowTransactions s.cfg 0 0 ++ dataTransactions (List.replicate fillCount b)) n)
          (failedAt (windowPackets s.cfg 0 0 ++ dataPackets s.cfg (List.replicate fillCount b)) n) rest with
        curPage := if n < (windowPackets s.cfg 0 0).length then s.curPage else 0
        curCol := if n < (windowPackets s.cfg 0 0).length then s.curCol else 0 }, .abandoned) := by
  have hl : (List.replicate fillCount b).length = fillCount := List.length_replicate
  rw [fillBody_run]
  by_cases hlt : n < (windowPackets s.cfg 0 0).length
  · rw [andThen_abandoned (setCursor_fails (by decide) (rest := rest) hlt ha), if_pos hlt, if_pos hlt,
      failedAt_append_left _ hlt, begunAt_append_left _ _ (by rw [windowTransactions_packets]; exact hlt)]
    rfl
  · obtain ⟨m, rfl⟩ : ∃ m, n = (windowPackets s.cfg 0 0).length + m := ⟨n - (windowPackets s.cfg 0 0).length, by omega⟩
    have hm : m < fillCount := by omega
    rw [State.failsAt, replicate_ok_add] at ha
    have hb := begunAt_append_right s.cfg (windowTransactions s.cfg 0 0) (dataTransactions (List.replicate fillCount b)) m
    rw [windowTransactions_packets] at hb
    rw [andThen_done (setCursor_ok (by decide) (rest := _) ha),
      sweep_fails (n := m) (rest := rest) (by rw [hl]; exact hm) (by rfl), if_neg hlt, if_neg hlt, hb,
      failedAt_append_right _ (by rw [dataPackets_length, hl]; exact hm)]
    generalize List.replicate fillCount b = l
    simp [State.sent, State.setPage, State.setCol, byteToPage]

/-- All rows drawn from the page the Cursor has, every packet answered ok (spec/44_graphics.md R138). -/
theorem allRows_ok {s : State} {rest : List BusAnswer}
    (ha : s.answersOk (bitmapPackets s.cfg s.curPage (List.range s.cfg.bitmapRows)).length rest)
    (hi : s.cfg.bitmapRows = 0 → s.inFlight = none) :
    (forEach bitmapLine (List.range s.cfg.bitmapRows)).run s =
      ({ s.sent (bitmapTransactions s.cfg s.curPage (List.range s.cfg.bitmapRows))
          (answered (bitmapPackets s.cfg s.curPage (List.range s.cfg.bitmapRows))) rest with
        curPage := BitVec.ofNat 3 ((s.curPage.toNat + s.cfg.bitmapRows) % 8)
        curCol := if s.cfg.bitmapRows = 0 then s.curCol else 0 }, .done) := by
  rw [List.range_eq_range'] at ha ⊢
  rw [rows_ok (k := 0) (start := s.curPage) (rest := rest) _ (by simp) ha, Nat.zero_add, page_add]
  by_cases hz : s.cfg.bitmapRows = 0
  · have hr : s.answers = rest := by simpa [hz, bitmapPackets, State.answersOk] using ha
    have hf := hi hz
    have hp : BitVec.ofNat 3 (s.curPage.toNat % 8) = s.curPage := by
      apply BitVec.eq_of_toNat_eq; simp; exact s.curPage.isLt
    simp [hz, bitmapTransactions, bitmapPackets, State.sent, ← hr, ← hf, hp]
  · rw [if_neg hz, if_neg hz]; rfl

/-- DRAW_BITMAP's body from a start in range, every packet answered ok (spec/44_graphics.md R138). -/
theorem drawBitmapBody_ok {p c : Byte} (h : positionInRange p c = true) {s : State} {rest : List BusAnswer}
    (ha : s.answersOk ((windowPackets s.cfg p c).length +
      (bitmapPackets s.cfg (byteToPage p) (List.range s.cfg.bitmapRows)).length) rest) :
    (drawBitmapBody p c).run s =
      ({ s.sent (windowTransactions s.cfg p c ++ bitmapTransactions s.cfg (byteToPage p) (List.range s.cfg.bitmapRows))
          (answered (windowPackets s.cfg p c ++ bitmapPackets s.cfg (byteToPage p) (List.range s.cfg.bitmapRows))) rest with
        curPage := BitVec.ofNat 3 (((byteToPage p).toNat + s.cfg.bitmapRows) % 8)
        curCol := if s.cfg.bitmapRows = 0 then c else 0 }, .done) := by
  rw [State.answersOk, replicate_ok_add] at ha
  rw [drawBitmapBody_run, andThen_done (setCursor_ok h (rest := _) ha)]
  rw [allRows_ok (rest := rest) (by exact rfl) (fun _ => rfl)]
  simp [State.sent, State.setPage, State.setCol]
  rfl

/-- DRAW_BITMAP's body from a start out of range, every packet answered ok (spec/44_graphics.md R138, R140). -/
theorem drawBitmapBody_rejected {p c : Byte} (h : positionInRange p c = false) {s : State} {rest : List BusAnswer}
    (ha : s.answersOk (bitmapPackets s.cfg s.curPage (List.range s.cfg.bitmapRows)).length rest)
    (hi : s.cfg.bitmapRows = 0 → s.inFlight = none) :
    (drawBitmapBody p c).run s =
      ({ s.sent (bitmapTransactions s.cfg s.curPage (List.range s.cfg.bitmapRows))
          (answered (bitmapPackets s.cfg s.curPage (List.range s.cfg.bitmapRows))) rest with
        curPage := BitVec.ofNat 3 ((s.curPage.toNat + s.cfg.bitmapRows) % 8)
        curCol := if s.cfg.bitmapRows = 0 then s.curCol else 0
        status := s.status ||| 0x02 }, .done) := by
  rw [drawBitmapBody_run, andThen_done (setCursor_outOfRange h s)]
  rw [allRows_ok (s := s.setFlag .ign) (rest := rest) ha hi]
  rfl

/-! ### Every host operation -/

/-- The flags a host operation's body may set besides BE (spec/10_state.md R25). -/
def bodyMask : Instr → Byte
  | .setCursor _ _ | .drawBitmap _ _ => flagMask .ign
  | .putChar _ | .print _ => flagMask .ug
  | .reserved _ => flagMask .ill
  | _ => 0

/-- The state a host operation's body works from: accepted, and for PRINT with its message received (spec/10_state.md R26,
spec/43_text.md R125). -/
def startOf (i : Instr) (s : State) : State :=
  match i with
  | .print payload => s.accept.afterMessage payload
  | _ => s.accept

/-- PRINT's loop over MSG can do what `put_char` can (spec/43_text.md R125). -/
theorem printLoop_effect (s : State) (n : Nat) :
    Effect (flagMask .ug) drawn s ((forEach putStored (List.range n)).run s) :=
  (effect_composes _ _).forEach (fun _ _ t => by rw [putStored_run]; exact putChar_effect _ t) s

/-- Every host operation is the end of a body with a known effect (spec/00_scope.md R2). -/
theorem exec_host {i : Instr} (hi : i.isHostCommand = true) (s : State) :
    ∃ r, exec i s = .next (endOperation r) ∧ Effect (bodyMask i) (fun g x => issues g i x) (startOf i s) r := by
  cases i <;> simp only [Instr.isHostCommand, Bool.false_eq_true] at hi
  · exact ⟨_, rfl, initBody_effect _⟩
  · exact ⟨_, rfl, setCursor_effect _ _ _⟩
  · exact ⟨_, rfl, newLine_effect _ _⟩
  · exact ⟨_, rfl, putChar_effect _ _⟩
  · rename_i payload
    refine ⟨_, rfl, ?_⟩
    rw [printBody_run]
    exact printLoop_effect _ _
  · exact ⟨_, rfl, fillBody_effect _ _⟩
  · exact ⟨_, rfl, drawBitmapBody_effect _ _ _⟩
  · exact ⟨_, rfl, effect_writes ⟨rfl, rfl, rfl, rfl, rfl, rfl, rfl⟩ (status_or_flag _ _) rfl rfl rfl⟩

/-- What the start of an operation leaves alone, and its STATUS. -/
theorem startOf_fields (i : Instr) (s : State) : (startOf i s).cfg = s.cfg ∧ (startOf i s).rx = s.rx ∧
    (startOf i s).pending = s.pending ∧ (startOf i s).inFlight = s.inFlight ∧ (startOf i s).running = s.running ∧
    (startOf i s).ttrace = s.ttrace ∧ (startOf i s).wtrace = s.wtrace ∧
    ((startOf i s).status = 0x80 ∨ (startOf i s).status = 0x88) := by
  unfold startOf; split
  · rename_i p; by_cases h : s.cfg.printMax < p.length <;> simp [h, acceptedStatus, flagMask]
  · simp [acceptedStatus]


/-! ### How much a body transmits -/

/-- At most `m` transactions issued and `n` transmissions answered. -/
structure AtMost (m n : Nat) (s : State) (r : State × Flow) : Prop where
  cfg : r.1.cfg = s.cfg
  issued : r.1.ttrace.length ≤ s.ttrace.length + m
  sent : r.1.wtrace.length ≤ s.wtrace.length + n

theorem AtMost.mono {m n m' n' : Nat} {s : State} {r : State × Flow} (h : AtMost m n s r) (hm : m ≤ m') (hn : n ≤ n') :
    AtMost m' n' s r :=
  ⟨h.cfg, by have := h.issued; omega, by have := h.sent; omega⟩

theorem AtMost.andThen {m n m' n' : Nat} {f g : Act} {s : State} (hf : AtMost m n s (f s))
    (hg : ∀ t : State, t.cfg = s.cfg → AtMost m' n' t (g t)) : AtMost (m + m') (n + n') s (andThen f g s) := by
  simp only [Machine.andThen]
  revert hf
  rcases f s with ⟨t, _ | _ | _⟩ <;> intro hf
  · have h := hg t hf.cfg
    refine ⟨h.cfg.trans hf.cfg, h.issued.trans ?_, h.sent.trans ?_⟩
    · have := hf.issued; simp only at this; omega
    · have := hf.sent; simp only at this; omega
  · exact hf.mono (by omega) (by omega)
  · exact hf.mono (by omega) (by omega)

theorem AtMost.forEach {α : Type} {m n : Nat} {body : α → Prog} {g : Config} :
    ∀ {l : List α}, (∀ a, ∀ t : State, t.cfg = g → AtMost m n t ((body a).run t)) → ∀ s : State, s.cfg = g →
      AtMost (l.length * m) (l.length * n) s ((forEach body l).run s) := by
  intro l
  induction l with
  | nil => exact fun _ s _ => ⟨rfl, by simp [forEach_nil], by simp [forEach_nil]⟩
  | cons a l ih =>
    intro hb s hs
    have h := AtMost.andThen (hb a s hs) fun t ht => ih hb t (ht.trans hs)
    exact h.mono (by simp [Nat.succ_mul]; omega) (by simp [Nat.succ_mul]; omega)

theorem atMost_writes {s t : State} (hc : t.cfg = s.cfg) (ht : t.ttrace = s.ttrace) (hw : t.wtrace = s.wtrace) :
    AtMost 0 0 s (t, .done) :=
  ⟨hc, by simp [ht], by simp [hw]⟩

theorem send_atMost (p : Packet) (s : State) : AtMost 0 1 s (send p s) := by
  refine ⟨(send_frame p s).1.cfg, ?_, ?_⟩ <;> unfold send <;> split <;> simp

/-- A transaction is one transaction and makes no more transmissions than its packets (spec/40_framer.md R93). -/
theorem write_atMost (t : Transaction) (s : State) : AtMost 1 (packetsOf s.cfg t).length s ((write t).run s) := by
  have h := AtMost.forEach (m := 0) (n := 1) (body := .send) (l := packetsOf s.cfg t) (fun p u _ => send_atMost p u)
    (s.noteTransaction t) rfl
  rw [write_run]
  exact ⟨h.cfg, by simpa using h.issued, by simpa using h.sent⟩

end Sys2Proof.Machine
end

