-- ==== Sys2Proof/Laws/Stages.lean ====
section
/-! SUPPORT. What every state that an operation passes through has in common with its start and with its end. -/

namespace Sys2Proof.Machine

/-! ### The trail of each constructor -/

theorem Prog.trail_send (p : Packet) (s : State) : (Prog.send p).trail s =
    if (Machine.send p s).2 = .waiting then [] else [(Machine.send p s).1] := by
  rw [Prog.trail]
  rcases Machine.send p s with ⟨t, _ | _ | _⟩ <;> rfl

theorem Prog.trail_seq_done {a b : Prog} {s t : State} (h : a.run s = (t, .done)) :
    (Prog.seq a b).trail s = a.trail s ++ b.trail t := by
  simp [Prog.trail, h]

theorem Prog.trail_seq_ended {a b : Prog} {s : State} (h : (a.run s).2 ≠ .done) :
    (Prog.seq a b).trail s = a.trail s := by
  rw [Prog.trail]
  rcases ha : a.run s with ⟨t, _ | _ | _⟩
  · rw [ha] at h; exact absurd rfl h
  · rfl
  · rfl

theorem Prog.run_seq_ended {a b : Prog} {s : State} (h : (a.run s).2 ≠ .done) : (Prog.seq a b).run s = a.run s := by
  rw [Prog.run_seq, andThen]
  rcases ha : a.run s with ⟨t, _ | _ | _⟩
  · rw [ha] at h; exact absurd rfl h
  · rfl
  · rfl

/-! ### A relation that every line keeps -/

/-- A reflexive and transitive relation that one register write and one transmission meet holds from the start of a piece
to its end and to every state on its way, from each of them to each later one, and to the end. -/
theorem Prog.relates {R : State → State → Prop} (refl : ∀ s, R s s) (trans : ∀ {s t u}, R s t → R t u → R s u)
    (line : ∀ u s, R s (Update.apply u s)) (send : ∀ p s, R s (Machine.send p s).1) (p : Prog) :
    ∀ s, R s (p.run s).1 ∧ (∀ v ∈ p.trail s, R s v ∧ R v (p.run s).1) ∧ (p.trail s).Pairwise R := by
  induction p with
  | skip => intro s; exact ⟨refl s, by simp [Prog.trail], by simp [Prog.trail]⟩
  | line u => intro s; simp [Prog.trail, Prog.run_line, line, refl]
  | send p =>
    intro s
    rw [Prog.trail_send, Prog.run_send]
    split <;> simp [send, refl]
  | look k ih => intro s; exact ih _ s
  | seq a b iha ihb =>
    intro s
    obtain ⟨ha, hta, hpa⟩ := iha s
    by_cases h : (a.run s).2 = .done
    · obtain ⟨hb, htb, hpb⟩ := ihb (a.run s).1
      have hd : a.run s = ((a.run s).1, .done) := by rw [← h]
      rw [Prog.trail_seq_done hd, Prog.run_seq, andThen_done hd]
      refine ⟨trans ha hb, ?_, ?_⟩
      · intro v hv
        rcases List.mem_append.1 hv with hv | hv
        · exact ⟨(hta v hv).1, trans (hta v hv).2 hb⟩
        · exact ⟨trans ha (htb v hv).1, (htb v hv).2⟩
      · rw [List.pairwise_append]
        exact ⟨hpa, hpb, fun v hv w hw => trans (hta v hv).2 (htb w hw).1⟩
    · rw [Prog.trail_seq_ended h, Prog.run_seq_ended h]
      exact ⟨ha, hta, hpa⟩

/-- What every line of every body leaves alone, and what it only adds to. -/
structure Passes (s t : State) : Prop where
  cfg : t.cfg = s.cfg
  rx : t.rx = s.rx
  host : t.host = s.host
  readLog : t.readLog = s.readLog
  pending : t.pending = s.pending
  running : t.running = s.running
  ttrace : s.ttrace <+: t.ttrace
  wtrace : s.wtrace <+: t.wtrace

theorem Passes.refl (s : State) : Passes s s := ⟨rfl, rfl, rfl, rfl, rfl, rfl, List.prefix_rfl, List.prefix_rfl⟩

theorem Passes.trans {s t u : State} (h : Passes s t) (k : Passes t u) : Passes s u :=
  ⟨k.cfg.trans h.cfg, k.rx.trans h.rx, k.host.trans h.host, k.readLog.trans h.readLog, k.pending.trans h.pending,
   k.running.trans h.running, h.ttrace.trans k.ttrace, h.wtrace.trans k.wtrace⟩

theorem Passes.line (u : Update) (s : State) : Passes s (u.apply s) := by
  cases u <;> refine ⟨?_, ?_, ?_, ?_, ?_, ?_, ?_, ?_⟩ <;> simp [Update.apply]

theorem Passes.send (p : Packet) (s : State) : Passes s (Machine.send p s).1 := by
  unfold Machine.send
  split <;> refine ⟨?_, ?_, ?_, ?_, ?_, ?_, ?_, ?_⟩ <;> simp

/-- Every piece of every operation, to its end and on its way (spec/20_memory.md R50). -/
theorem Prog.passes (p : Prog) (s : State) : Passes s (p.run s).1 ∧
    (∀ v ∈ p.trail s, Passes s v ∧ Passes v (p.run s).1) ∧ (p.trail s).Pairwise Passes :=
  Prog.relates Passes.refl Passes.trans Passes.line Passes.send p s

/-- BUSY is never cleared by a body (spec/10_state.md R26), so it is 1 on the whole way. -/
theorem Prog.keepsBusy (p : Prog) {s : State} (h : s.flag .busy = true) :
    ((p.run s).1.flag .busy = true) ∧ ∀ v ∈ p.trail s, v.flag .busy = true := by
  have hr := Prog.relates (R := fun s t => s.flag .busy = true → t.flag .busy = true) (fun _ h => h)
    (fun h k x => k (h x)) (fun u s h => ?_) (fun p s h => ?_) p s
  · exact ⟨hr.1 h, fun v hv => (hr.2.1 v hv).1 h⟩
  · cases u <;> simp_all [Update.apply, State.flag]
  · unfold Machine.send
    split <;> simpa [State.flag] using h

/-- No line of a body leaves a transmission unanswered but the one that holds it (spec/70_reset_and_hazards.md R190). -/
theorem Prog.answered_on_the_way (p : Prog) :
    ∀ s : State, s.inFlight = none → ((p.run s).2 ≠ .waiting → (p.run s).1.inFlight = none) ∧
      ((p.run s).2 = .waiting → (p.run s).1.inFlight ≠ none) ∧ ∀ v ∈ p.trail s, v.inFlight = none := by
  induction p with
  | skip => intro s h; simp [Prog.trail, Prog.run_skip, h]
  | line u => intro s h; cases u <;> simp [Prog.trail, Prog.run_line, Update.apply, h]
  | send p =>
    intro s h
    rw [Prog.trail_send, Prog.run_send]
    unfold Machine.send
    split <;> simp
  | look k ih => intro s h; exact ih _ s h
  | seq a b iha ihb =>
    intro s h
    obtain ⟨ha, hw, ht⟩ := iha s h
    by_cases hd : (a.run s).2 = .done
    · obtain ⟨hb, hv, hu⟩ := ihb (a.run s).1 (ha (by simp [hd]))
      have hd' : a.run s = ((a.run s).1, .done) := by rw [← hd]
      rw [Prog.trail_seq_done hd', Prog.run_seq, andThen_done hd']
      refine ⟨hb, hv, fun v h => ?_⟩
      rcases List.mem_append.1 h with h | h
      · exact ht v h
      · exact hu v h
    · rw [Prog.trail_seq_ended hd, Prog.run_seq_ended hd]
      exact ⟨ha, hw, ht⟩

/-! ### The stages of an instruction -/

theorem stages_cons (i : Instr) (s : State) : stages i s = bodyStart i s ::
    ((bodyOf i).trail (bodyStart i s) ++ endStages i.isHostCommand ((bodyOf i).run (bodyStart i s))) := rfl

theorem bodyStart_host {i : Instr} (h : i.isHostCommand = true) (s : State) : bodyStart i s = s.accept := by
  rw [bodyStart, if_pos h]

/-- The last lines of an instruction end where it ends, unless it has none. -/
theorem endStages_last (i : Instr) (r : State × Flow) :
    endStages i.isHostCommand r = [] ∧ r.2 = .done ∧ endOf i r = r.1 ∨
    (endStages i.isHostCommand r).getLast? = some (endOf i r) := by
  obtain ⟨t, _ | _ | _⟩ := r <;> cases h : i.isHostCommand <;> simp [endStages, endOf, h, endOperation, endMicroOp]

/-- What goes on after the lines that have elapsed stands at that stage (spec/70_reset_and_hazards.md R195). -/
theorem goOn_elapsed {i : Instr} {n : Nat} {t u v : State} (h : (stages i t)[n]? = some v) (hn : n + 1 < (stages i t).length) :
    goOn i (some n) t u = { v with running := some (startedIn i t n) } := by
  have hd : (stages i t).drop n = v :: (stages i t)[n + 1] :: (stages i t).drop (n + 2) := by
    obtain ⟨hlt, rfl⟩ := List.getElem?_eq_some_iff.1 h
    rw [List.drop_eq_getElem_cons hlt, List.drop_eq_getElem_cons hn]
  rw [goOn]
  simp only [hd]

/-- What has no more lines than elapse goes on to its end. -/
theorem goOn_ended {i : Instr} {n : Nat} {t u : State} (hn : (stages i t).length ≤ n + 1) :
    goOn i (some n) t u = noteRunning i t u := by
  rw [goOn]
  have hl : ((stages i t).drop n).length ≤ 1 := by rw [List.length_drop]; omega
  rcases hd : (stages i t).drop n with _ | ⟨v, _ | ⟨w, l⟩⟩
  · rfl
  · rfl
  · rw [hd] at hl; simp at hl

/-- All that going on can do: it comes to the end, or to a stage before it. -/
theorem goOn_cases (i : Instr) (limit : Option Nat) (t u : State) :
    goOn i limit t u = noteRunning i t u ∨
    ∃ n v, limit = some n ∧ (stages i t)[n]? = some v ∧ n + 1 < (stages i t).length ∧
      goOn i limit t u = { v with running := some (startedIn i t n) } := by
  cases limit with
  | none => exact .inl rfl
  | some n =>
    by_cases hn : n + 1 < (stages i t).length
    · have h : (stages i t)[n]? = some (stages i t)[n] := List.getElem?_eq_getElem (by omega)
      exact .inr ⟨n, _, rfl, h, hn, goOn_elapsed h hn⟩
    · exact .inl (goOn_ended (by omega))

/-- Accepting a host operation changes STATUS alone. -/
theorem bodyStart_passes (i : Instr) (s : State) : Passes s (bodyStart i s) := by
  unfold bodyStart
  split
  · exact ⟨rfl, rfl, rfl, rfl, rfl, rfl, List.prefix_rfl, List.prefix_rfl⟩
  · exact Passes.refl s

theorem endStages_passes {host : Bool} {r : State × Flow} {v : State} (h : v ∈ endStages host r) : Passes r.1 v := by
  have key : ∀ w : Byte, Passes r.1 { r.1 with status := w } := fun w =>
    ⟨rfl, rfl, rfl, rfl, rfl, rfl, List.prefix_rfl, List.prefix_rfl⟩
  obtain ⟨t, _ | _ | _⟩ := r <;> cases host <;> simp [endStages] at h
  · rw [h]; exact key _
  · rcases h with rfl | rfl <;> exact key _
  · rcases h with rfl | rfl <;> exact key _
  · rw [h]; exact key _
  · rw [h]; exact key _

/-- Every stage of an instruction keeps what every line keeps (spec/20_memory.md R50). -/
theorem stages_pass (i : Instr) (s : State) {v : State} (h : v ∈ stages i s) : Passes s v := by
  have hs := bodyStart_passes i s
  obtain ⟨hr, ht, -⟩ := (bodyOf i).passes (bodyStart i s)
  rw [stages_cons, List.mem_cons, List.mem_append] at h
  rcases h with rfl | h | h
  · exact hs
  · exact hs.trans (ht v h).1
  · exact (hs.trans hr).trans (endStages_passes h)

end Sys2Proof.Machine
end

