-- ==== Sys2Proof/Laws/Answers.lean ====
section
/-! SUPPORT. The answers a piece of an operation takes are the answers it records, whatever the transport does; and free answers drawn beforehand change nothing once they are used. -/

namespace Sys2Proof.Machine

/-- The silence that ends the answers of a piece that waits. -/
def tailOf : Flow → List BusAnswer
  | .waiting => [.silent]
  | .done | .abandoned => []

/-- What a piece recorded is what it took from the answers to come: the answers in the W-trace are those taken, and
silence is never recorded (spec/20_memory.md R45, R50). If the script ran out, all of it was taken. -/
def Recorded (s : State) (r : State × Flow) : Prop := ∃ es : List (Packet × BusAnswer), ∃ xs,
  r.1.wtrace = s.wtrace ++ es ∧ r.1.ttrace = s.ttrace ++ xs ∧ BusAnswer.silent ∉ es.map Prod.snd ∧
  ((r.1.draws = s.draws ∧ s.answers = es.map Prod.snd ++ tailOf r.2 ++ r.1.answers) ∨ (r.1.answers = [] ∧ s.answers <+: es.map Prod.snd))

theorem recorded_comp : Composes Recorded := by
  constructor
  · intro s; exact ⟨[], [], by simp, by simp, by simp, .inl ⟨rfl, by simp [tailOf]⟩⟩
  · rintro s t ⟨u, fl⟩ ⟨es, xs, h1, h1', h2, h3⟩ ⟨fs, ys, k1, k1', k2, k3⟩
    refine ⟨es ++ fs, xs ++ ys, by rw [k1, h1, List.append_assoc], by rw [k1', h1', List.append_assoc], by simp at h2 k2 ⊢; tauto, ?_⟩
    rcases h3 with ⟨a, b⟩ | ⟨a, b⟩ <;> rcases k3 with ⟨c, d⟩ | ⟨c, d⟩ <;> simp only at a b c d
    · left; refine ⟨c.trans a, ?_⟩; rw [b, d]; simp [tailOf]
    · right; refine ⟨c, ?_⟩; rw [b]; simp [tailOf]; exact d
    · right; rw [a] at d
      simp at d
      exact ⟨d.2.2, by rw [List.map_append]; exact b.trans (List.prefix_append _ _)⟩
    · right; exact ⟨c, by rw [List.map_append]; exact b.trans (List.prefix_append _ _)⟩

theorem recorded_send (p) (s) : Recorded s (send p s) := by
  unfold send State.answer State.takeAnswer
  cases h : s.answers with
  | nil =>
    cases hb : Config.busAnswer s.draws
    · exact ⟨[(p, .ok)], [], by simp [State.record], by simp [State.record], by simp, .inr ⟨by simp, by simp [h]⟩⟩
    · exact ⟨[(p, .busError)], [], by simp [State.record], by simp [State.record], by simp, .inr ⟨by simp, by simp [h]⟩⟩
    · exact ⟨[], [], by simp [State.hold], by simp [State.hold], by simp, .inr ⟨by simp, by simp [h]⟩⟩
  | cons a rest =>
    cases a
    · exact ⟨[(p, .ok)], [], by simp [State.record], by simp [State.record], by simp, .inl ⟨rfl, by simp [h, tailOf, State.record]⟩⟩
    · exact ⟨[(p, .busError)], [], by simp [State.record], by simp [State.record], by simp, .inl ⟨rfl, by simp [h, tailOf, State.record]⟩⟩
    · exact ⟨[], [], by simp [State.hold], by simp [State.hold], by simp, .inl ⟨rfl, by simp [h, tailOf, State.hold]⟩⟩

theorem recorded_writes {s t : State} (a : t.wtrace = s.wtrace) (a' : t.ttrace = s.ttrace) (b : t.draws = s.draws) (c : t.answers = s.answers) : Recorded s (t, .done) :=
  ⟨[], [], by simp [a], by simp [a'], by simp, .inl ⟨b, by simp [tailOf, c]⟩⟩

theorem recorded_line (u : Update) (s : State) : Recorded s (u.apply s, .done) := by
  cases u with
  | issue t => exact ⟨[], [t], by simp [Update.apply], rfl, by simp, .inl ⟨rfl, by simp [tailOf, Update.apply]⟩⟩
  | page p => exact recorded_writes rfl rfl rfl rfl
  | col c => exact recorded_writes rfl rfl rfl rfl
  | flag f => exact recorded_writes rfl rfl rfl rfl
  | receive bs => exact recorded_writes rfl rfl rfl rfl

/-- Any piece of any operation. -/
theorem recorded_run (p : Prog) : ∀ s, Recorded s (p.run s) := by
  induction p with
  | skip => exact recorded_comp.refl
  | line u => intro s; exact recorded_line u s
  | send p => exact recorded_send p
  | seq a b iha ihb => exact fun s => recorded_comp.andThen (iha s) fun t _ => ihb t
  | look k ih => exact fun s => ih _ s

/-! ### Free answers drawn beforehand -/

/-- The next `k` free answers drawn and put at the end of the script. -/
def State.foresee (k : Nat) (s : State) : State :=
  { s with
    answers := s.answers ++ (List.range k).map fun j => Config.busAnswer (s.draws + j)
    draws := s.draws + k }

theorem foresee_zero (s : State) : s.foresee 0 = s := by simp [State.foresee]

theorem draws_mono (p : Prog) (s : State) : s.draws ≤ (p.run s).1.draws ∧
    ∀ v ∈ p.trail s, s.draws ≤ v.draws ∧ v.draws ≤ (p.run s).1.draws := by
  have h := Prog.relates (R := fun s t => s.draws ≤ t.draws) (fun _ => Nat.le_refl _) Nat.le_trans
    (fun u s => ?_) (fun p s => ?_) p s
  · exact ⟨h.1, h.2.1⟩
  · cases u <;> exact Nat.le_refl _
  · unfold Machine.send State.takeAnswer
    split <;> split <;> simp [State.record, State.hold]

theorem send_foresee (p : Packet) (k : Nat) (s : State) : Machine.send p (s.foresee k) =
    ((Machine.send p s).1.foresee (k - ((Machine.send p s).1.draws - s.draws)), (Machine.send p s).2) := by
  cases ha : s.answers with
  | cons a rest =>
    cases a <;> simp [Machine.send, State.answer, State.takeAnswer, State.foresee, State.record, State.hold, ha]
  | nil =>
    cases k with
    | zero => simp [foresee_zero]
    | succ k =>
      have hl : (s.foresee (k + 1)).answers =
          Config.busAnswer s.draws :: (List.range k).map fun j => Config.busAnswer (s.draws + 1 + j) := by
        simp [State.foresee, ha, List.range_succ_eq_map, Nat.add_assoc, Nat.add_comm 1]
      have hd : (s.foresee (k + 1)).draws = s.draws + 1 + k := by simp [State.foresee]; omega
      cases hb : Config.busAnswer s.draws <;> rw [hb] at hl <;>
        simp [Machine.send, State.answer, State.takeAnswer, ha, hl, hb, hd, State.record, State.hold] <;>
        simp [State.foresee, ha]

/-- A piece takes the answers it would have drawn, at its end and at every state on its way. -/
theorem Prog.foresee (p : Prog) : ∀ (k : Nat) (s : State),
    p.run (s.foresee k) = ((p.run s).1.foresee (k - ((p.run s).1.draws - s.draws)), (p.run s).2) ∧
    p.trail (s.foresee k) = (p.trail s).map fun v => v.foresee (k - (v.draws - s.draws)) := by
  induction p with
  | skip => intro k s; simp [Prog.run_skip, Prog.trail]
  | line u => intro k s; cases u <;> simp [Prog.run_line, Prog.trail, Update.apply] <;> rfl
  | send p =>
    intro k s
    rw [Prog.trail_send, Prog.trail_send, Prog.run_send, send_foresee]
    refine ⟨rfl, ?_⟩
    simp only
    split <;> simp
  | look q ih => intro k s; exact ih _ k s
  | seq a b iha ihb =>
    intro k s
    obtain ⟨hr, ht⟩ := iha k s
    obtain ⟨hm, hv⟩ := draws_mono a s
    by_cases h : (a.run s).2 = .done
    · have hd : a.run s = ((a.run s).1, .done) := by rw [← h]
      have hd' : a.run (s.foresee k) = ((a.run s).1.foresee (k - ((a.run s).1.draws - s.draws)), .done) := by rw [hr, h]
      obtain ⟨kr, kt⟩ := ihb (k - ((a.run s).1.draws - s.draws)) (a.run s).1
      obtain ⟨km, kv⟩ := draws_mono b (a.run s).1
      rw [Prog.trail_seq_done hd, Prog.trail_seq_done hd', Prog.run_seq, andThen_done hd, andThen_done hd', kr, kt, ht]
      refine ⟨?_, ?_⟩
      · congr 2; omega
      · rw [List.map_append]
        congr 1
        refine List.map_congr_left fun v hv => ?_
        have := (kv v hv).1
        congr 1; omega
    · have h' : (a.run (s.foresee k)).2 ≠ .done := by rw [hr]; exact h
      rw [Prog.trail_seq_ended h, Prog.trail_seq_ended h', Prog.run_seq_ended h, Prog.run_seq_ended h', hr, ht]
      exact ⟨rfl, rfl⟩

end Sys2Proof.Machine
end

