-- ==== Sys2Proof/Laws/CursorRange.lean ====
section
/-! SUPPORT. The column stays in its range at the end of every operation and at every stage of it. -/

namespace Sys2Proof.Machine

/-- From a column of at most 128 a piece passes through columns of at most 128 and leaves one (spec/10_state.md R24). -/
def StaysInRange (p : Prog) (s : State) : Prop :=
  s.curCol.toNat ≤ 128 → (p.run s).1.curCol.toNat ≤ 128 ∧ ∀ v ∈ p.trail s, v.curCol.toNat ≤ 128

theorem StaysInRange.seq {a b : Prog} {s : State} (ha : StaysInRange a s)
    (hb : ∀ t, a.run s = (t, .done) → StaysInRange b t) : StaysInRange (.seq a b) s := by
  intro h
  obtain ⟨ha, hta⟩ := ha h
  by_cases hd : (a.run s).2 = .done
  · have hd' : a.run s = ((a.run s).1, .done) := by rw [← hd]
    obtain ⟨hb, htb⟩ := hb _ hd' ha
    rw [Prog.trail_seq_done hd', Prog.run_seq, andThen_done hd']
    exact ⟨hb, fun v hv => (List.mem_append.1 hv).elim (hta v) (htb v)⟩
  · rw [Prog.trail_seq_ended hd, Prog.run_seq_ended hd]
    exact ⟨ha, hta⟩

theorem StaysInRange.look {k : View → Prog} {s : State} (h : StaysInRange (k s.view) s) : StaysInRange (.look k) s := h

/-- A register write that leaves a column in range. -/
theorem staysInRange_line {u : Update} {s : State} (h : s.curCol.toNat ≤ 128 → (u.apply s).curCol.toNat ≤ 128) :
    StaysInRange (.line u) s := by
  intro hs
  simpa [Prog.trail, Prog.run_line] using h hs

theorem staysInRange_send (p : Packet) (s : State) : StaysInRange (.send p) s := by
  intro h
  have hc := (send_frame p s).2.curCol
  rw [Prog.trail_send, Prog.run_send, hc]
  refine ⟨h, fun v hv => ?_⟩
  split at hv
  · simp at hv
  · rw [List.mem_singleton.1 hv, hc]; exact h

theorem StaysInRange.forEach {α : Type} {body : α → Prog} {g : Config}
    (hb : ∀ a, ∀ s : State, s.cfg = g → StaysInRange (body a) s) (l : List α) :
    ∀ s : State, s.cfg = g → StaysInRange (forEach body l) s := by
  induction l with
  | nil => intro s _ h; simpa [Machine.forEach, Prog.run_skip, Prog.trail] using h
  | cons a l ih =>
    intro s hs
    exact (hb a s hs).seq fun t ht => ih t (by rw [← hs, ← ((body a).passes s).1.cfg, ht])

theorem staysInRange_write (t : Transaction) (s : State) : StaysInRange (write t) s :=
  (staysInRange_line (u := .issue t) id).seq fun u _ => StaysInRange.forEach (g := u.cfg)
    (fun p v _ => staysInRange_send p v) _ u rfl

theorem staysInRange_sweep (l : List Byte) (s : State) : StaysInRange (sweep l) s :=
  StaysInRange.forEach (g := s.cfg) (fun b u _ => staysInRange_write (pixelData b) u) l s rfl

theorem staysInRange_setCursor (p c : Byte) (s : State) : StaysInRange (setCursor p c) s := by
  unfold setCursor
  split
  · rename_i h
    rw [positionInRange_iff] at h
    refine StaysInRange.seq (staysInRange_write (columnWindow s.cfg c) s) fun t _ =>
      (staysInRange_write (pageWindow s.cfg p) t).seq fun u _ =>
        (staysInRange_line (u := .page _) id).seq fun v _ => staysInRange_line (u := .col c) fun _ => ?_
    show c.toNat ≤ 128
    omega
  · exact staysInRange_line id

theorem staysInRange_newLine (s : State) : StaysInRange newLine s :=
  StaysInRange.seq (.look (staysInRange_line (u := .page (nextPage s.curPage)) id)) fun t _ =>
    staysInRange_setCursor (pageByte t.curPage) 0 t

/-- A `new_line` that ends leaves column 0 (spec/42_cursor.md R112). -/
theorem newLine_done {s t : State} (h : newLine.run s = (t, .done)) : t.curCol = 0 := by
  rw [newLine_run, setCursor_inRange (positionInRange_page _)] at h
  simp only [andThen] at h
  split at h
  · split at h
    · rw [placeCursor_run] at h
      injection h with h _
      rw [← h]; rfl
    · simp at h
    · simp at h
  · simp at h
  · simp at h

/-- Slices that fit advance the column by no more than their number (spec/43_text.md R120). -/
theorem staysInRange_slices (l : List Byte) :
    ∀ s : State, s.curCol.toNat + l.length ≤ 128 → StaysInRange (forEach putSlice l) s := by
  induction l with
  | nil => intro s _ h; simpa [Machine.forEach, Prog.run_skip, Prog.trail] using h
  | cons b l ih =>
    intro s h
    rw [List.length_cons] at h
    have hw : ∀ t, (write (pixelData b)).run s = (t, .done) → t.curCol = s.curCol := by
      intro t ht
      have := (write_frame (pixelData b) s).2.curCol
      rwa [ht] at this
    refine StaysInRange.seq (StaysInRange.seq (staysInRange_write _ s) fun t ht =>
      staysInRange_line (u := .col (t.curCol + 1)) fun _ => ?_) fun u hu => ih u ?_
    · show (t.curCol + 1).toNat ≤ 128
      rw [hw t ht]; simp; omega
    · rw [putSlice_run, andThen] at hu
      split at hu
      · rename_i t ht
        rw [advanceCol_run, hw t ht] at hu
        injection hu with hu _
        rw [← hu]; simp; omega
      · simp at hu
      · simp at hu

theorem staysInRange_putGlyph (b : Byte) (s : State) (h : s.curCol.toNat + s.cfg.fontWidth ≤ 128) :
    StaysInRange (putGlyph b) s := by
  refine StaysInRange.seq (a := noteGlyph b) ?_ fun t ht => ?_
  · unfold noteGlyph
    split
    · exact fun hs => ⟨hs, by simp [Prog.trail]⟩
    · exact staysInRange_line id
  · rw [noteGlyph_run] at ht
    injection ht with ht _
    rw [← ht]
    exact staysInRange_slices (glyphBytes _ b) _ (by simpa using h)

theorem staysInRange_putChar (b : Byte) (s : State) (hw : s.cfg.fontWidth ≤ 128) : StaysInRange (putChar b) s := by
  have key : StaysInRange (if b = s.cfg.newline then newLine
      else if needsWrap s.cfg s.curCol then .seq newLine (putGlyph b) else putGlyph b) s := by
    split
    · exact staysInRange_newLine s
    · split
      · refine (staysInRange_newLine s).seq fun t ht => staysInRange_putGlyph b t ?_
        rw [newLine_done ht, show t.cfg = s.cfg by have := (newLine.passes s).1.cfg; rwa [ht] at this]
        simpa using hw
      · rename_i h
        rw [needsWrap_iff] at h
        exact staysInRange_putGlyph b s (by omega)
  exact key

theorem staysInRange_rows (l : List Nat) (s : State) : StaysInRange (forEach bitmapLine l) s :=
  StaysInRange.forEach (g := s.cfg) (fun _ u _ => StaysInRange.seq (.look (staysInRange_sweep _ u)) fun t _ =>
    staysInRange_newLine t) l s rfl

/-- The body of every instruction. -/
theorem staysInRange_body (i : Instr) (s : State) (hw : s.cfg.fontWidth ≤ 128) : StaysInRange (bodyOf i) s := by
  have hcol : ∀ t : State, StaysInRange (.line (.col 0)) t := fun t => staysInRange_line fun _ => by
    show (0 : Byte).toNat ≤ 128
    decide
  cases i
  · exact StaysInRange.seq ((staysInRange_line (u := .page 0) id).seq fun t _ => hcol t) fun t _ =>
      StaysInRange.forEach (g := t.cfg) (fun k u _ => staysInRange_write _ u) _ t rfl
  · exact staysInRange_setCursor _ _ s
  · exact staysInRange_newLine s
  · exact staysInRange_putChar _ s hw
  · rename_i payload
    refine StaysInRange.seq (a := receiveMessage payload) (StaysInRange.seq (staysInRange_line (u := .receive payload) id)
      fun t _ => ?_) fun t ht => .look (StaysInRange.forEach (g := s.cfg)
        (fun j u hu => .look (staysInRange_putChar _ u (by rw [hu]; exact hw))) _ t ?_)
    · have : StaysInRange (if t.cfg.printMax < payload.length then .line (.flag .fo) else .skip) t := by
        split
        · exact staysInRange_line id
        · exact fun hs => ⟨hs, by simp [Prog.trail]⟩
      exact this
    · have := ((receiveMessage payload).passes s).1.cfg
      rwa [ht] at this
  · exact (staysInRange_setCursor 0 0 s).seq fun t _ => staysInRange_sweep _ t
  · exact (staysInRange_setCursor _ _ s).seq fun t _ => staysInRange_rows _ t
  · exact staysInRange_line id
  all_goals first | exact staysInRange_write _ s | exact staysInRange_send _ s

/-- No instruction takes the column out of its range, at no stage (spec/10_state.md R24). -/
theorem stages_inRange (i : Instr) (s : State) (hw : s.cfg.fontWidth ≤ 128) (hc : s.curCol.toNat ≤ 128) :
    ∀ v ∈ stages i s, v.curCol.toNat ≤ 128 := by
  have hs : (bodyStart i s).cfg = s.cfg ∧ (bodyStart i s).curCol = s.curCol := by
    unfold bodyStart; split <;> exact ⟨rfl, rfl⟩
  obtain ⟨he, ht⟩ := staysInRange_body i (bodyStart i s) (by rw [hs.1]; exact hw) (by rw [hs.2]; exact hc)
  intro v hv
  rw [stages_cons, List.mem_cons, List.mem_append] at hv
  rcases hv with rfl | hv | hv
  · rw [hs.2]; exact hc
  · exact ht v hv
  · have key : ∀ (h : Bool) (r : State × Flow), v ∈ endStages h r → v.curCol = r.1.curCol := by
      rintro (_ | _) ⟨t, _ | _ | _⟩ h <;> simp [endStages] at h <;> rcases h with rfl | rfl <;> rfl
    rw [key _ _ hv]; exact he

/-- No instruction takes the column out of its range (spec/10_state.md R24). -/
theorem exec_inRange (i : Instr) (s : State) (hw : s.cfg.fontWidth ≤ 128) (hc : s.curCol.toNat ≤ 128) :
    ∃ t, exec i s = .next t ∧ t.curCol.toNat ≤ 128 := by
  have hs : (bodyStart i s).cfg = s.cfg ∧ (bodyStart i s).curCol = s.curCol := by
    unfold bodyStart; split <;> exact ⟨rfl, rfl⟩
  have he : ∀ r, (endOf i r).curCol = r.1.curCol := by
    rintro ⟨t, _ | _ | _⟩ <;> rw [endOf] <;> split <;> rfl
  refine ⟨_, exec_eq i s, ?_⟩
  rw [he]
  exact (staysInRange_body i _ (by rw [hs.1]; exact hw) (by rw [hs.2]; exact hc)).1

end Sys2Proof.Machine
end

