-- ==== Sys2Proof/Laws/Decode.lean ====
section
/-! SUPPORT. The decoder of the host command stream: what it reads, and that later bytes do not matter. -/

namespace Sys2Proof

theorem decodeH1_append {make : Byte → Instr} {bytes more : List Byte} {r : Instr × List Byte}
    (h : decodeH1 make bytes = .ok r) : decodeH1 make (bytes ++ more) = .ok (r.1, r.2 ++ more) := by
  cases bytes with
  | nil => simp [decodeH1] at h
  | cons a bytes => simp [decodeH1] at h; subst h; rfl

theorem decodeH2_append {make : Byte → Byte → Instr} {bytes more : List Byte} {r : Instr × List Byte}
    (h : decodeH2 make bytes = .ok r) : decodeH2 make (bytes ++ more) = .ok (r.1, r.2 ++ more) := by
  match bytes, h with
  | [], h => simp [decodeH2] at h
  | [_], h => simp [decodeH2] at h
  | a :: b :: bytes, h => simp [decodeH2] at h; subst h; rfl

theorem decodeHV_append {make : List Byte → Instr} {bytes more : List Byte} {r : Instr × List Byte}
    (h : decodeHV make bytes = .ok r) : decodeHV make (bytes ++ more) = .ok (r.1, r.2 ++ more) := by
  cases bytes with
  | nil => simp [decodeHV] at h
  | cons len bytes =>
    rw [decodeHV] at h
    split at h
    · rename_i hl
      injection h with h
      subst h
      rw [List.cons_append, decodeHV, if_pos (by simp; omega), List.take_append_of_le_length hl,
        List.drop_append_of_le_length hl]
    · exact absurd h (by simp)

/-- A command that is complete is read the same whatever follows it (spec/30_encoding.md R60). -/
theorem decode_append {bytes more : List Byte} {i : Instr} {rest : List Byte} (h : decode bytes = .ok (i, rest)) :
    decode (bytes ++ more) = .ok (i, rest ++ more) := by
  cases bytes with
  | nil => simp [decode] at h
  | cons op bytes =>
    rw [decode] at h
    rw [List.cons_append, decode]
    repeat' split at h <;> rename_i hop <;> simp only [hop, if_true, if_false]
    · injection h with h; injection h with h1 h2; rw [h1, h2]
    · exact decodeH2_append h
    · injection h with h; injection h with h1 h2; rw [h1, h2]
    · exact decodeH1_append h
    · exact decodeHV_append h
    · exact decodeH1_append h
    · exact decodeH2_append h
    · injection h with h; injection h with h1 h2; rw [h1, h2]

/-- The decoder's only refusal is that bytes are missing: it is total on opcodes (spec/30_encoding.md R64). -/
theorem decode_error {bytes : List Byte} {e : DecodeError} (h : decode bytes = .error e) : e = .needMoreBytes := by
  cases bytes with
  | nil => simpa [decode] using h.symm
  | cons op bytes =>
    have h1 : ∀ {make b e}, decodeH1 make b = .error e → e = .needMoreBytes := by
      intro make b e h; cases b <;> simp_all [decodeH1]
    have h2 : ∀ {make b e}, decodeH2 make b = .error e → e = .needMoreBytes := by
      intro make b e h
      match b, h with
      | [], h => simpa [decodeH2] using h.symm
      | [_], h => simpa [decodeH2] using h.symm
      | _ :: _ :: _, h => simp [decodeH2] at h
    have hv : ∀ {make b e}, decodeHV make b = .error e → e = .needMoreBytes := by
      intro make b e h
      cases b with
      | nil => simpa [decodeHV] using h.symm
      | cons l b =>
        rw [decodeHV] at h
        split at h
        · simp at h
        · simpa using h.symm
    rw [decode] at h
    repeat' split at h
    · simp at h
    · exact h2 h
    · simp at h
    · exact h1 h
    · exact hv h
    · exact h1 h
    · exact h2 h
    · simp at h

end Sys2Proof
end

