-- ==== Sys2Proof/Laws/PerInstr.lean ====
section
/-! SUPPORT. Statements made per instruction: the length of each encoding. -/

namespace Sys2Proof.Laws.EncodedLength

/-- The bytes a row has in the host command stream: opcode, operands, payload (spec/30_encoding.md R61).
The internal rows have none there. -/
def rowLength : Instr → Nat
  | .init | .newLine | .reserved _ => 1
  | .putChar _ | .fill _ => 2
  | .setCursor _ _ | .drawBitmap _ _ => 3
  | .print payload => 2 + payload.length
  | .write _ _ _ | .pktCommand _ | .pktData _ | .txColumnWindow _ | .txPageWindow _ | .txPixelData _ => 0
  | .txInit01 | .txInit02 | .txInit03 | .txInit04 | .txInit05 => 0
  | .txInit06 | .txInit07 | .txInit08 | .txInit09 | .txInit10 => 0

/-- A well-formed instruction's encoding has its row's length, and a PRINT's LEN byte is the length of its payload
(spec/30_encoding.md R61, R65). -/
def Statement (i : Instr) : Prop :=
  i.wellFormed = true → (encode i).length = rowLength i ∧
    ∀ payload len rest, i = .print payload → encode i = 0x05 :: len :: rest → len.toNat = payload.length ∧ rest = payload

theorem init : Statement .init := fun _ => ⟨rfl, fun _ _ _ h => nomatch h⟩

theorem setCursor (page column : Byte) : Statement (.setCursor page column) := fun _ => ⟨rfl, fun _ _ _ h => nomatch h⟩

theorem newLine : Statement .newLine := fun _ => ⟨rfl, fun _ _ _ h => nomatch h⟩

theorem putChar (char : Byte) : Statement (.putChar char) := fun _ => ⟨rfl, fun _ _ _ h => nomatch h⟩

theorem print (payload : List Byte) : Statement (.print payload) := by
  intro h
  simp only [Instr.wellFormed, decide_eq_true_eq] at h
  refine ⟨by simp [encode, rowLength]; omega, ?_⟩
  rintro p len rest ⟨rfl⟩ he
  simp only [encode, List.cons.injEq, true_and] at he
  obtain ⟨rfl, rfl⟩ := he
  exact ⟨by simp; omega, rfl⟩

theorem fill (pattern : Byte) : Statement (.fill pattern) := fun _ => ⟨rfl, fun _ _ _ h => nomatch h⟩

theorem drawBitmap (page column : Byte) : Statement (.drawBitmap page column) := fun _ => ⟨rfl, fun _ _ _ h => nomatch h⟩

theorem reserved (opcode : Byte) : Statement (.reserved opcode) := fun _ => ⟨rfl, fun _ _ _ h => nomatch h⟩

theorem write (kind : Kind) (address : Byte) (parameters : List Byte) : Statement (.write kind address parameters) := fun _ => ⟨rfl, fun _ _ _ h => nomatch h⟩

theorem pktCommand (value : Byte) : Statement (.pktCommand value) := fun _ => ⟨rfl, fun _ _ _ h => nomatch h⟩

theorem pktData (value : Byte) : Statement (.pktData value) := fun _ => ⟨rfl, fun _ _ _ h => nomatch h⟩

theorem txColumnWindow (column : Byte) : Statement (.txColumnWindow column) := fun _ => ⟨rfl, fun _ _ _ h => nomatch h⟩

theorem txPageWindow (page : Byte) : Statement (.txPageWindow page) := fun _ => ⟨rfl, fun _ _ _ h => nomatch h⟩

theorem txPixelData (slice : Byte) : Statement (.txPixelData slice) := fun _ => ⟨rfl, fun _ _ _ h => nomatch h⟩

theorem txInit01 : Statement .txInit01 := fun _ => ⟨rfl, fun _ _ _ h => nomatch h⟩

theorem txInit02 : Statement .txInit02 := fun _ => ⟨rfl, fun _ _ _ h => nomatch h⟩

theorem txInit03 : Statement .txInit03 := fun _ => ⟨rfl, fun _ _ _ h => nomatch h⟩

theorem txInit04 : Statement .txInit04 := fun _ => ⟨rfl, fun _ _ _ h => nomatch h⟩

theorem txInit05 : Statement .txInit05 := fun _ => ⟨rfl, fun _ _ _ h => nomatch h⟩

theorem txInit06 : Statement .txInit06 := fun _ => ⟨rfl, fun _ _ _ h => nomatch h⟩

theorem txInit07 : Statement .txInit07 := fun _ => ⟨rfl, fun _ _ _ h => nomatch h⟩

theorem txInit08 : Statement .txInit08 := fun _ => ⟨rfl, fun _ _ _ h => nomatch h⟩

theorem txInit09 : Statement .txInit09 := fun _ => ⟨rfl, fun _ _ _ h => nomatch h⟩

theorem txInit10 : Statement .txInit10 := fun _ => ⟨rfl, fun _ _ _ h => nomatch h⟩

end Sys2Proof.Laws.EncodedLength
end

