-- ==== Sys2Proof/Laws/Ports.lean ====
section
/-! SUPPORT. The host's ports: the bytes at the head of the host's actions, and once for all what the next step does. -/

namespace Sys2Proof.Machine

/-- The bytes of a burst and what follows them are the host's actions. -/
theorem leadingBytes_rejoin (h : List HostAction) : (leadingBytes h).1.map .cmd ++ (leadingBytes h).2 = h := by
  induction h with
  | nil => rfl
  | cons a h ih =>
    cases a with
    | cmd b => simp [leadingBytes, ih]
    | readReg a => rfl
    | reset => rfl
    | answer a => rfl
    | elapse n => rfl

theorem leadingBytes_append (bytes : List Byte) (after : List HostAction) :
    leadingBytes (bytes.map .cmd ++ after) = (bytes ++ (leadingBytes after).1, (leadingBytes after).2) := by
  induction bytes with
  | nil => rfl
  | cons b bytes ih => simp [leadingBytes, ih]

theorem leadingBytes_noByteNext {bytes : List Byte} {after : List HostAction} (h : noByteNext after) :
    leadingBytes (bytes.map .cmd ++ after) = (bytes, after) := by
  have hr := leadingBytes_rejoin after
  rw [noByteNext] at h
  rw [h] at hr
  rw [leadingBytes_append, h]
  simpa using hr

theorem nextEvent_waiting {s : State} (h : s.inFlight ≠ none) : nextEvent s = busyEvent s := by
  unfold nextEvent
  split
  · rfl
  · contradiction

/-- An ended operation is not in progress. -/
theorem noteRunning_ended {i : Instr} {t u : State} (h : u.inFlight = none) : noteRunning i t u = { u with running := none } := by
  simp [noteRunning, h]

theorem noteRunning_waits {i : Instr} {t u : State} (h : u.inFlight ≠ none) :
    noteRunning i t u = { u with running := some (startedIn i t ((stages i t).length - 1)) } := by
  unfold noteRunning
  split
  · contradiction
  · rfl

theorem goOn_none (i : Instr) (t u : State) : goOn i none t u = noteRunning i t u := rfl

/-- What a step makes of the instruction it runs. -/
theorem step_run {s : State} {i : Instr} {limit : Option Nat} {t u : State} (h : nextEvent s = .run i limit t)
    (hu : exec i t = .next u) : step s = .next (goOn i limit t u) := by
  simp only [step, h, hu]

theorem step_settle {s t : State} (h : nextEvent s = .settle t) : step s = .next t := by simp only [step, h]

theorem nextEvent_betweenLines {s : State} {r : Running} (h : s.inFlight = none) (hr : s.running = some r) :
    nextEvent s = betweenLinesEvent r s := by
  simp [nextEvent, h, hr]

theorem nextEvent_pending {s : State} {i : Instr} {more : List Instr} (h : s.inFlight = none) (hr : s.running = none)
    (hp : s.pending = i :: more) : nextEvent s = startRun i { s with pending := more } := by
  simp [nextEvent, h, hr, hp]

theorem nextEvent_idle {s : State} (h : s.inFlight = none) (hr : s.running = none) (hp : s.pending = []) :
    nextEvent s = idleEvent s := by
  simp [nextEvent, h, hr, hp]

theorem idleEvent_bytes {s : State} {bytes : List Byte} {after : List HostAction} (hb : bytes ≠ [])
    (h : s.host = bytes.map .cmd ++ after) : idleEvent s = fetchCommand s := by
  cases bytes with
  | nil => exact absurd rfl hb
  | cons b bytes => simp [idleEvent, h]

/-- A burst that completes a command: the command runs, the rest of the stream stays (spec/30_encoding.md R60). -/
theorem fetchCommand_complete {s : State} {bytes : List Byte} {after : List HostAction} {i : Instr}
    (h : s.host = bytes.map .cmd ++ after) (hd : decode (s.rx ++ bytes) = .ok (i, [])) :
    fetchCommand s = startRun i { s with rx := [], host := after } := by
  have hd' := decode_append (more := (leadingBytes after).1) hd
  rw [fetchCommand, h, leadingBytes_append]
  simp only [← List.append_assoc, hd', List.nil_append]
  rw [leadingBytes_rejoin]

/-- A burst that does not complete a command is kept. -/
theorem fetchCommand_incomplete {s : State} {bytes : List Byte} {after : List HostAction} {e : DecodeError}
    (h : s.host = bytes.map .cmd ++ after) (hn : noByteNext after) (hd : decode (s.rx ++ bytes) = .error e) :
    fetchCommand s = .settle (State.acceptBytes (s.rx ++ bytes) { s with host := after }) := by
  rw [fetchCommand, h, leadingBytes_noByteNext hn]
  simp only [hd]

/-- What a step that does not run an instruction can do to the state: go on at the ports, a reset, a register read, or
the acceptance of bytes; what it runs, it runs in a state that differs only in what the host and the presenter of
micro-operations still hold, or it goes on with the operation in progress. -/
theorem nextEvent_cases (s : State) :
    (∃ i l more h, s.inFlight = none ∧ s.running = none ∧ s.pending = i :: more ∧
      nextEvent s = .run i l { s with pending := more, host := h }) ∨
    (∃ i l h, s.inFlight = none ∧ s.running = none ∧ s.pending = [] ∧ i.isHostCommand = true ∧
      nextEvent s = .run i l { s with rx := [], host := h }) ∨
    (∃ h, nextEvent s = .settle { s with host := h }) ∨
    (∃ h, nextEvent s = .settle ({ s with host := h }.resetInput)) ∨
    (∃ h a v, readRegister s a = some v ∧
      nextEvent s = .settle { s with host := h, readLog := s.readLog ++ [(a, v)] }) ∨
    (∃ h bytes, s.inFlight = none ∧ s.running = none ∧ s.pending = [] ∧ bytes ≠ [] ∧
      decode bytes = .error .needMoreBytes ∧ nextEvent s = .settle (State.acceptBytes bytes { s with host := h })) ∨
    (∃ r late h, s.running = some r ∧ (s.inFlight = none → late = []) ∧
      nextEvent s = .run r.instr ((takeElapse h).1.map (r.lines + ·)) (State.replay r late { s with host := (takeElapse h).2 })) ∨
    (∃ r, nextEvent s = .fault r) ∨ (∃ r, nextEvent s = .refuse r) := by
  have hread : ∀ a h, (∃ h' a' v, readRegister s a' = some v ∧
      hostRead a { s with host := h } = .settle { s with host := h', readLog := s.readLog ++ [(a', v)] }) ∨
      ∃ r, hostRead a { s with host := h } = .fault r := by
    intro a h
    have hr : readRegister { s with host := h } a = readRegister s a := by
      unfold readRegister; split <;> rfl
    rw [hostRead, hr]
    cases hv : readRegister s a with
    | none => exact .inr ⟨_, rfl⟩
    | some v => exact .inl ⟨h, a, v, hv, rfl⟩
  have hhost : ∀ {bytes rest i}, decode bytes = .ok (i, rest) → i.isHostCommand = true := by
    intro bytes rest i h
    cases bytes with
    | nil => simp [decode] at h
    | cons op bytes =>
      rw [decode] at h
      repeat' split at h
      · injection h with h; injection h with h _; subst h; rfl
      · match bytes, h with
        | [], h => simp [decodeH2] at h
        | [_], h => simp [decodeH2] at h
        | _ :: _ :: _, h => simp [decodeH2] at h; rw [← h.1]; rfl
      · injection h with h; injection h with h _; subst h; rfl
      · cases bytes with
        | nil => simp [decodeH1] at h
        | cons a b => simp [decodeH1] at h; rw [← h.1]; rfl
      · cases bytes with
        | nil => simp [decodeHV] at h
        | cons a b =>
          rw [decodeHV] at h
          split at h
          · injection h with h; injection h with h _; subst h; rfl
          · simp at h
      · cases bytes with
        | nil => simp [decodeH1] at h
        | cons a b => simp [decodeH1] at h; rw [← h.1]; rfl
      · match bytes, h with
        | [], h => simp [decodeH2] at h
        | [_], h => simp [decodeH2] at h
        | _ :: _ :: _, h => simp [decodeH2] at h; rw [← h.1]; rfl
      · injection h with h; injection h with h _; subst h; rfl
  by_cases hf : s.inFlight = none
  · obtain hr | ⟨r, hr⟩ : s.running = none ∨ ∃ r, s.running = some r := by
      cases s.running <;> simp
    · obtain hp | ⟨i, more, hp⟩ : s.pending = [] ∨ ∃ i more, s.pending = i :: more := by
        cases s.pending <;> simp
      · rw [nextEvent_idle hf hr hp]
        refine .inr ?_
        unfold idleEvent
        split
        · exact .inr (.inl ⟨s.host, rfl⟩)
        · exact .inr (.inr (.inl ⟨_, rfl⟩))
        · rename_i a rest _
          rcases hread a rest with h | h
          · exact .inr (.inr (.inr (.inl h)))
          · exact .inr (.inr (.inr (.inr (.inr (.inr (.inl h))))))
        · rename_i b rest hh
          rw [fetchCommand]
          split
          · rename_i i more hd
            exact .inl ⟨i, _, _, hf, hr, hp, hhost hd, rfl⟩
          · rename_i e hd
            have he := decode_error hd
            subst he
            refine .inr (.inr (.inr (.inr (.inl ⟨_, _, hf, hr, hp, ?_, hd, rfl⟩))))
            simp [hh, leadingBytes]
        · exact .inr (.inr (.inr (.inr (.inr (.inr (.inr ⟨_, rfl⟩))))))
        · exact .inr (.inl ⟨_, rfl⟩)
      · exact .inl ⟨i, _, more, _, hf, hr, hp, nextEvent_pending hf hr hp⟩
    · rw [nextEvent_betweenLines hf hr]
      refine .inr (.inr ?_)
      unfold betweenLinesEvent
      split
      · exact .inr (.inr (.inr (.inr (.inl ⟨r, [], s.host, hr, fun _ => rfl, rfl⟩))))
      · exact .inr (.inl ⟨_, rfl⟩)
      · rename_i a rest _
        rcases hread a rest with h | h
        · exact .inr (.inr (.inl h))
        · exact .inr (.inr (.inr (.inr (.inr (.inl h)))))
      · exact .inr (.inr (.inr (.inr (.inr (.inr ⟨_, rfl⟩)))))
      · exact .inr (.inr (.inr (.inr (.inr (.inr ⟨_, rfl⟩)))))
      · exact .inr (.inr (.inr (.inr (.inl ⟨r, [], s.host, hr, fun _ => rfl, rfl⟩))))
  · rw [nextEvent_waiting hf]
    refine .inr (.inr ?_)
    unfold busyEvent
    split
    · exact .inl ⟨s.host, rfl⟩
    · exact .inr (.inl ⟨_, rfl⟩)
    · rename_i a rest _
      rcases hread a rest with h | h
      · exact .inr (.inr (.inl h))
      · exact .inr (.inr (.inr (.inr (.inr (.inl h)))))
    · exact .inr (.inr (.inr (.inr (.inr (.inr ⟨_, rfl⟩)))))
    · rename_i a rest _
      rw [lateAnswer]
      split
      · rename_i r hr
        exact .inr (.inr (.inr (.inr (.inl ⟨r, [a], rest, hr, fun h => absurd h hf, rfl⟩))))
      · exact .inr (.inr (.inr (.inr (.inr (.inr ⟨_, rfl⟩)))))
    · exact .inl ⟨_, rfl⟩

end Sys2Proof.Machine
end

