-- ==== Sys2Proof/Tests/Slice0.lean ====
section
/-! SUPPORT. Tests against spec/95_test_vectors.md and words written out from spec/30_encoding.md, the smoke test of WellFormed, and a witness for the hypotheses of every statement. -/

namespace Sys2Proof.Tests

open Sys2Proof.Machine

/-! ### The test configurations of spec/95_test_vectors.md -/

/-- `TFONT` at an address, for a font width. -/
def tfont (fw a : Nat) : Byte :=
  if a / fw ≤ 0x1F ∨ a / fw = 0x7F then 0 else BitVec.ofNat 8 (a / fw + 0x10 * (a % fw))

/-- TC0. -/
def tc0 : Config where
  fontWidth := 5
  font := (List.range 640).map (tfont 5)
  newline := 0x0A
  printMax := 16
  bitmapRows := 2
  bitmap := (List.range 256).map (BitVec.ofNat 8)
  dataMarker := 0x40
  opColumnWindow := 0x21
  opPageWindow := 0x22
  initSeq := InitSeq.default
  cmdAddrFirst := false

/-- TC0a. -/
def tc0a : Config := { tc0 with cmdAddrFirst := true }

/-- TC1. -/
def tc1 : Config := { tc0 with fontWidth := 8, font := (List.range 1024).map (tfont 8), printMax := 64 }

/-- The reset state with a configuration, a Cursor and the transport's answers. -/
def at_ (g : Config) (page : Page) (col : Byte) (answers : List BusAnswer) : State :=
  { State.reset with cfg := g, curPage := page, curCol := col, answers := answers }

/-- The first `n` transmissions are answered ok. -/
def oks (g : Config) (page : Page) (col : Byte) (n : Nat) : State := at_ g page col (List.replicate n .ok ++ [])

/-- Transmission `n`, from 0, fails. -/
def bad (g : Config) (page : Page) (col : Byte) (n : Nat) : State :=
  at_ g page col (List.replicate n .ok ++ .busError :: [])

/-- The host writes bytes to CMD. -/
def hosted (s : State) (bytes : List Byte) : State := { s with host := bytes.map .cmd ++ [] }

/-- The W-trace as pairs of numbers, the number of packets not answered ok, the Cursor and STATUS after an outcome. -/
def seen : Host.Outcome State Fault Refusal → Option (List (Nat × Nat) × Nat × (Nat × Nat) × Nat)
  | .next t => some (t.wtrace.map (fun e => (e.1.control.toNat, e.1.value.toNat)),
      (t.wtrace.filter fun e => e.2 ≠ .ok).length, (t.curPage.toNat, t.curCol.toNat), t.status.toNat)
  | .fault _ => none
  | .refused _ => none

/-! ### WellFormed: an ill-formed term for each check -/

theorem test_illFormed_print : (Instr.print (List.replicate 256 0x41)).wellFormed = false := by decide +kernel
theorem test_illFormed_reserved : (Instr.reserved 0x03).wellFormed = false := by decide
theorem test_illFormed_columnWindow : (Instr.txColumnWindow 127).wellFormed = false := by decide
theorem test_illFormed_pageWindow : (Instr.txPageWindow 8).wellFormed = false := by decide
theorem test_wellFormed_edges : (Instr.print (List.replicate 255 0x41)).wellFormed = true ∧
    (Instr.reserved 0x00).wellFormed = true ∧ (Instr.reserved 0x08).wellFormed = true ∧
    (Instr.txColumnWindow 126).wellFormed = true ∧ (Instr.txPageWindow 7).wellFormed = true := by decide +kernel

/-! ### Decoding: words written out bit by bit from spec/30_encoding.md R61, R63, R66 -/

theorem test_decode_init : decode [0b00000001] = .ok (.init, []) := by decide
theorem test_decode_setCursor : decode [0b00000010, 0b00000101, 0b01001101] = .ok (.setCursor 5 77, []) := by decide
theorem test_decode_newLine : decode [0b00000011, 0b00000100] = .ok (.newLine, [4]) := by decide
/-- E5: the operand byte is never decoded as an opcode. -/
theorem test_decode_putChar : decode [0b00000100, 0b00000011] = .ok (.putChar 3, []) := by decide
theorem test_decode_print : decode [0b00000101, 0b00000010, 0b01001000, 0b01001001, 0b00000011] =
    .ok (.print [0x48, 0x49], [3]) := by decide
theorem test_decode_fill : decode [0b00000110, 0b11111111] = .ok (.fill 0xFF, []) := by decide
theorem test_decode_drawBitmap : decode [0b00000111, 0b00000001, 0b00101000] = .ok (.drawBitmap 1 40, []) := by decide
/-- E3: 0xFF is consumed alone. -/
theorem test_decode_reserved : decode [0b11111111, 0b00000011] = .ok (.reserved 0xFF, [3]) := by decide
theorem test_decode_pktCommand : decodePacket 0x40 [0b00000000, 0b10101110] = .ok (.pktCommand 0xAE) := by decide
theorem test_decode_pktData : decodePacket 0x40 [0b01000000, 0b01000000] = .ok (.pktData 0x40) := by decide
theorem test_decode_unknownControl : decodePacket 0x40 [0x80, 0x00] = .error .unknownControl := by decide
theorem test_decode_notTwoBytes : decodePacket 0x40 [0x00] = .error .notTwoBytes := by decide
theorem test_decode_incomplete : decode [0x02, 0x05] = .error .needMoreBytes ∧
    decode [0x05, 0x02, 0x41] = .error .needMoreBytes ∧ decode [0x05] = .error .needMoreBytes := by decide

/-- The rows of the opcode table as table words. -/
theorem test_tableWords : decodeTableWord 8 1 = some .init ∧ decodeTableWord 8 2 = some (.setCursor 0 0) ∧
    decodeTableWord 24 0x4D0502 = some (.setCursor 5 0x4D) ∧ decodeTableWord 8 3 = some .newLine ∧
    decodeTableWord 16 0x4104 = some (.putChar 0x41) ∧ decodeTableWord 8 5 = some (.print []) ∧
    decodeTableWord 8 6 = some (.fill 0) ∧ decodeTableWord 8 7 = some (.drawBitmap 0 0) ∧
    decodeTableWord 8 0 = some (.reserved 0) ∧ decodeTableWord 16 0x00AE = some (.pktCommand 0xAE) ∧
    decodeTableWord 16 0x4041 = some (.pktData 0x41) := by decide +kernel

theorem test_fetch_runs_command : seen (step (State.reset.withFetchWord 8 0)) = some ([], 0, (0, 0), 0x10) := by
  decide +kernel
theorem test_fetch_runs_packet : seen (step ((oks tc0 0 0 1).withFetchWord 16 0)) = some ([(0, 0)], 0, (0, 0), 0) := by
  decide +kernel
theorem test_fetch_runs_putChar : seen (step ((oks tc0 0 0 5).withFetchWord 8 4)) =
    some (List.replicate 5 (0x40, 0), 0, (0, 5), 0) := by decide +kernel

/-- The internal rows have no host encoding. -/
theorem test_encode_internal : encode (.write .data 0 [1]) = [] ∧ encode (.txColumnWindow 0) = [] ∧
    encode .txInit01 = [] := by decide

/-! ### Framer: vectors F2, F3, F5, F7, and R69 -/

theorem test_write_F2 : seen (exec (.write .command 0x21 [0x0A, 0x7F]) (oks tc0 0 0 2)) =
    some ([(0, 0x0A), (0, 0x7F)], 0, (0, 0), 0) := by decide
theorem test_write_F3 : seen (exec (.write .command 0x21 [0x0A, 0x7F]) (oks tc0a 0 0 3)) =
    some ([(0, 0x21), (0, 0x0A), (0, 0x7F)], 0, (0, 0), 0) := by decide
theorem test_pktCommand : seen (exec (.pktCommand 0xAE) (oks tc0 0 0 1)) = some ([(0, 0xAE)], 0, (0, 0), 0) := by decide
theorem test_pktData : seen (exec (.pktData 0x12) (bad tc0 0 0 0)) = some ([(0x40, 0x12)], 1, (0, 0), 1) := by decide
theorem test_txColumnWindow : seen (exec (.txColumnWindow 0x0A) (oks tc0 0 0 2)) =
    some ([(0, 0x0A), (0, 0x7F)], 0, (0, 0), 0) := by decide
theorem test_txPageWindow : seen (exec (.txPageWindow 2) (bad tc0a 0 0 1)) =
    some ([(0, 0x22), (0, 2)], 1, (0, 0), 1) := by decide
theorem test_txPixelData : seen (exec (.txPixelData 0x40) (oks tc0a 0 0 1)) = some ([(0x40, 0x40)], 0, (0, 0), 0) := by decide

/-- The ten init transactions under TC0a put address and parameter on the wire (vector I2). -/
theorem test_txInit : [exec .txInit01, exec .txInit02, exec .txInit03, exec .txInit04, exec .txInit05, exec .txInit06,
      exec .txInit07, exec .txInit08, exec .txInit09, exec .txInit10].map (fun f => seen (f (oks tc0a 0 0 2))) =
    [[(0, 0xAE)], [(0, 0xD3), (0, 0x00)], [(0, 0x40)], [(0, 0x8D), (0, 0x14)], [(0, 0x20), (0, 0x00)],
      [(0, 0x81), (0, 0x7F)], [(0, 0xA4)], [(0, 0xAF)], [(0, 0x2E)], [(0, 0xAF)]].map
      (fun w => some (w, 0, (0, 0), 0)) := by decide +kernel

/-! ### INIT: vectors I1, I4 -/

theorem test_init_I1 : seen (exec .init (oks tc0 3 9 10)) =
    some ([(0, 0xAE), (0, 0), (0, 0x40), (0, 0x14), (0, 0), (0, 0x7F), (0, 0xA4), (0, 0xAF), (0, 0x2E), (0, 0xAF)], 0,
      (0, 0), 0) := by decide +kernel
theorem test_init_I4 : seen (exec .init (bad tc0 3 9 3)) =
    some ([(0, 0xAE), (0, 0), (0, 0x40), (0, 0x14)], 1, (0, 0), 1) := by decide +kernel

/-! ### Cursor: vectors C3v, C4v, C14v, C15v -/

theorem test_setCursor_C3v : seen (exec (.setCursor 7 126) (oks tc0 5 77 4)) =
    some ([(0, 0x7E), (0, 0x7F), (0, 7), (0, 7)], 0, (7, 126), 0) := by decide
theorem test_setCursor_C4v : seen (exec (.setCursor 7 127) (oks tc0 5 77 4)) = some ([], 0, (5, 77), 2) := by decide
theorem test_newLine_C14v : seen (exec .newLine (oks tc0 3 40 4)) =
    some ([(0, 0), (0, 0x7F), (0, 4), (0, 7)], 0, (4, 0), 0) := by decide
theorem test_newLine_C15v : seen (exec .newLine (bad tc0 7 93 2)) =
    some ([(0, 0), (0, 0x7F), (0, 0)], 1, (0, 93), 1) := by decide

/-! ### Text: vectors T2, T18, T19, T20, T23 -/

theorem test_putChar_T2 : seen (exec (.putChar 0x41) (oks tc0 3 123 5)) =
    some ([(0x40, 0x41), (0x40, 0x51), (0x40, 0x61), (0x40, 0x71), (0x40, 0x81)], 0, (3, 128), 0) := by decide +kernel
theorem test_putChar_T18 : seen (exec (.putChar 0x41) (bad tc0 3 124 5)) =
    some ([(0, 0), (0, 0x7F), (0, 4), (0, 7), (0x40, 0x41), (0x40, 0x51)], 1, (4, 1), 1) := by decide +kernel
theorem test_putChar_T23 : seen (exec (.putChar 0x42) (oks tc1 6 128 12)) =
    some ([(0, 0), (0, 0x7F), (0, 7), (0, 7), (0x40, 0x42), (0x40, 0x52), (0x40, 0x62), (0x40, 0x72), (0x40, 0x82),
      (0x40, 0x92), (0x40, 0xA2), (0x40, 0xB2)], 0, (7, 8), 0) := by decide +kernel
theorem test_print_T19 : seen (exec (.print [0x41, 0x0A, 0x42]) (bad tc0 0 0 6)) =
    some ([(0x40, 0x41), (0x40, 0x51), (0x40, 0x61), (0x40, 0x71), (0x40, 0x81), (0, 0), (0, 0x7F)], 1, (1, 5), 1) := by
  decide +kernel
theorem test_print_T20 : seen (exec (.print (List.replicate 20 0x90)) (bad tc0 0 0 6)) =
    some (List.replicate 7 (0x40, 0), 1, (0, 6), 0x0D) := by decide +kernel

/-! ### Graphics: vectors G2v, G3v, G6v, G9v -/

theorem test_fill_G2v : seen (exec (.fill 0xFF) (bad tc0 4 50 6)) =
    some ([(0, 0), (0, 0x7F), (0, 0), (0, 7), (0x40, 0xFF), (0x40, 0xFF), (0x40, 0xFF)], 1, (0, 0), 1) := by decide +kernel
theorem test_fill_G3v : seen (exec (.fill 0xFF) (bad tc0 4 50 1)) = some ([(0, 0), (0, 0x7F)], 1, (4, 50), 1) := by
  decide +kernel
theorem test_drawBitmap_G6v : seen (exec (.drawBitmap 9 0) (oks tc0 4 50 264)) =
    some ((List.range 128).map (Prod.mk 0x40) ++ [(0, 0), (0, 0x7F), (0, 5), (0, 7)] ++
      (List.range 128).map (fun c => (0x40, 0x80 + c)) ++ [(0, 0), (0, 0x7F), (0, 6), (0, 7)], 0, (6, 0), 2) := by
  decide +kernel
theorem test_drawBitmap_G9v : seen (exec (.drawBitmap 1 0) (bad tc0 4 50 133)) =
    some ([(0, 0), (0, 0x7F), (0, 1), (0, 7)] ++ (List.range 128).map (Prod.mk 0x40) ++ [(0, 0), (0, 0x7F)], 1, (2, 0), 1) := by
  decide +kernel

/-! ### Reserved opcodes, the ports and the reset: vectors E1, R27, R28, R180 to R186 -/

theorem test_reserved_E1 : seen (step (hosted (oks tc0 5 77 0) [0x00])) = some ([], 0, (5, 77), 0x10) := by decide +kernel
/-- BUSY is 1 between the bytes of one command. -/
theorem test_partialCommand : seen (step (hosted (oks tc0 5 77 0) [0x02, 0x03])) = some ([], 0, (5, 77), 0x80) := by
  decide +kernel
theorem test_noRegister : step { oks tc0 0 0 0 with host := [.readReg 4] } = .fault (.noSuchRegister 4) := by rfl
/-- An unanswered packet holds the operation: BUSY stays 1, and a further command byte has no step. -/
theorem test_unanswered : seen (exec (.setCursor 2 10) (at_ tc0 5 77 [.ok, .silent])) =
    some ([(0, 0x0A)], 0, (5, 77), 0x80) := by decide +kernel
/-- SET_CURSOR 2, 10 (C1v) with a transport that is late for the third packet: the operation goes on and ends. -/
theorem test_lateAnswer : (match step (hosted (at_ tc0 5 77 [.ok, .ok, .silent, .ok]) [0x02, 0x02, 0x0A]) with
      | .next t => seen (step { t with host := [.answer .ok] })
      | .fault _ => none
      | .refused _ => none) =
    some ([(0, 0x0A), (0, 0x7F), (0, 2), (0, 7)], 0, (2, 10), 0) := by decide +kernel

/-! ### Between two lines: spec/70_reset_and_hazards.md R195 -/

/-- One line into a rejected SET_CURSOR the host reads STATUS 0x82. -/
theorem test_readBetweenLines : (match step { oks tc0 5 77 0 with host := [.cmd 0x02, .cmd 0x08, .cmd 0x00, .elapse 1, .readReg 1] } with
      | .next t => (match step t with
        | .next u => some u.readLog
        | .fault _ => none
        | .refused _ => none)
      | .fault _ => none
      | .refused _ => none) = some [(1, 0x82)] := by decide +kernel
/-- SET_CURSOR 2, 10 (C1v): after both windows (two transactions of two packets) and `CUR_PAGE <- 2`, the column is the
old one and BUSY is 1. -/
theorem test_betweenCursorWrites : seen (step { oks tc0 5 77 4 with host := [.cmd 0x02, .cmd 0x02, .cmd 0x0A, .elapse 7] }) =
    some ([(0, 0x0A), (0, 0x7F), (0, 2), (0, 7)], 0, (2, 77), 0x80) := by decide +kernel
/-- It goes on from there and ends. -/
theorem test_goesOnBetweenLines : (match step { oks tc0 5 77 4 with host := [.cmd 0x02, .cmd 0x02, .cmd 0x0A, .elapse 7] } with
      | .next t => seen (step t)
      | .fault _ => none
      | .refused _ => none) = some ([(0, 0x0A), (0, 0x7F), (0, 2), (0, 7)], 0, (2, 10), 0) := by decide +kernel

theorem test_reset_memory_wf : Memory.wf State.reset.mem = true := by rfl

/-! ### Witnesses: states and operands that meet the hypotheses of each statement, clause by clause, at the edges -/

theorem witness_HostCommandDecodeEncode : (Instr.print (List.replicate 255 0x41)).isHostCommand = true ∧
    (Instr.print (List.replicate 255 0x41)).wellFormed = true := by decide +kernel

theorem witness_HostCommandEncodeDecode : decode [0x04, 0x41, 0x03] = .ok (.putChar 0x41, [0x03]) := by decide

theorem witness_PacketDecodeEncode : tc0.dataMarker ≠ 0x00 := by decide

/-- One packet of a Command and one of a Data transaction. -/
theorem witness_ControlByteOfEveryPacket :
    ⟨0x00, 0x0A⟩ ∈ packetsOf tc0 ⟨.command, 0x21, [0x0A, 0x7F]⟩ ∧ ⟨0x40, 0xFF⟩ ∈ packetsOf tc0 ⟨.data, 0x00, [0xFF]⟩ := by
  decide

/-- No parameter, and two parameters with the address sent first. -/
theorem witness_TransmissionCount :
    (oks tc0 0 0 1).answersOk (max 1 0 + if tc0.cmdAddrFirst = true ∧ Kind.command = .command ∧ 1 ≤ 0 then 1 else 0) [] ∧
    (oks tc0a 0 0 3).answersOk (max 1 2 + if tc0a.cmdAddrFirst = true ∧ Kind.command = .command ∧ 1 ≤ 2 then 1 else 0) [] :=
  ⟨rfl, rfl⟩

theorem witness_WriteSendsItsPackets_ok :
    [⟨0x00, 0xAE⟩] = (if ([] : List Byte) = [] then [⟨0x00, 0xAE⟩] else ([] : List Packet)) ∧ (oks tc0 0 0 1).answersOk 1 [] ∧
    (0x40 : Byte) = tc0.dataMarker ∧ (oks tc0 0 0 1).answersOk [(⟨0x40, 0xFF⟩ : Packet)].length [] := ⟨rfl, rfl, rfl, rfl⟩

/-- The first and the last packet of the transaction of F8. -/
theorem witness_WriteSendsItsPackets_fails :
    (0 < (packetsOf tc0 ⟨.command, 0x21, [0x0A, 0x7F]⟩).length ∧ (bad tc0 0 0 0).failsAt 0 []) ∧
    (1 < (packetsOf tc0 ⟨.command, 0x21, [0x0A, 0x7F]⟩).length ∧ (bad tc0 0 0 1).failsAt 1 []) :=
  ⟨⟨by decide, rfl⟩, by decide, rfl⟩

theorem witness_PacketCompletesOrAborts :
    (oks tc0 0 0 1).answers = .ok :: [] ∧ (bad tc0 0 0 0).answers = .busError :: [] := ⟨rfl, rfl⟩

theorem witness_WindowAndPixelTransactionsComplete :
    (oks tc0 0 0 2).answersOk (if tc0.cmdAddrFirst then 3 else 2) [] ∧
    (oks tc0a 0 0 3).answersOk (if tc0a.cmdAddrFirst then 3 else 2) [] ∧ (oks tc0 0 0 1).answersOk 1 [] := ⟨rfl, rfl, rfl⟩

theorem witness_InitStepTransactionsComplete :
    (Instr.txInit02, tc0.initSeq.setOffset) ∈ [(Instr.txInit01, tc0.initSeq.displayOff), (.txInit02, tc0.initSeq.setOffset)] ∧
    (oks tc0 0 0 1).answersOk (packetsOf tc0 ⟨.command, 0xD3, [0x00]⟩).length [] := ⟨by decide, rfl⟩

theorem witness_FramerRowsFrame : (Instr.txPixelData 0).isHostCommand = false ∧
    ∃ t, exec (.txPixelData 0) (oks tc0 0 0 1) = .next t := ⟨rfl, _, rfl⟩

theorem witness_InitRunsItsSequence_ok : (oks tc0 3 9 10).answersOk ((tc0.initSeq.steps.map fun k =>
    (⟨.command, k.address, k.parameters⟩ : Transaction)).flatMap (packetsOf tc0)).length [] := rfl

/-- The first packet and the last. -/
theorem witness_InitRunsItsSequence_fails : 9 < ((tc0.initSeq.steps.map fun k =>
    (⟨.command, k.address, k.parameters⟩ : Transaction)).flatMap (packetsOf tc0)).length ∧
    (bad tc0 3 9 0).failsAt 0 [] ∧ (bad tc0 3 9 9).failsAt 9 [] := ⟨by decide, rfl, rfl⟩

theorem witness_SetCursorSetsOrIgnores_ok : (7 : Byte).toNat ≤ 7 ∧ (126 : Byte).toNat ≤ 126 ∧
    (oks tc0 5 77 4).answersOk (windowPackets tc0 7 126).length [] := ⟨by decide, by decide, rfl⟩

theorem witness_SetCursorSetsOrIgnores_ignored : (7 < (8 : Byte).toNat ∨ 126 < (0 : Byte).toNat) ∧
    (7 < (0 : Byte).toNat ∨ 126 < (127 : Byte).toNat) := by decide

theorem witness_SetCursorSetsOrIgnores_fails : 3 < (windowPackets tc0 2 10).length ∧ (bad tc0 5 77 0).failsAt 0 [] ∧
    (bad tc0 5 77 3).failsAt 3 [] := ⟨by decide, rfl, rfl⟩

theorem witness_NewLineStartsTheNextPage_ok : (0 : Byte) = BitVec.ofNat 8 (((oks tc0 7 93 4).curPage.toNat + 1) % 8) ∧
    (oks tc0 7 93 4).answersOk (windowPackets tc0 0 0).length [] := ⟨by decide, rfl⟩

theorem witness_NewLineStartsTheNextPage_fails : 3 < (windowPackets tc0 0 0).length ∧ (bad tc0 7 93 0).failsAt 0 [] ∧
    (bad tc0 7 93 3).failsAt 3 [] := ⟨by decide, rfl, rfl⟩

theorem witness_NewLineEightTimes : (oks tc0 2 31 32).answersOk (8 * if tc0.cmdAddrFirst then 6 else 4) [] := rfl

/-- The slices of a character of TC0 as the statements write them. -/
def slices (b : Byte) : List Byte :=
  (List.range tc0.fontWidth).map fun i => if b.toNat ≤ 127 then tc0.font.getD (b.toNat * tc0.fontWidth + i) 0 else 0x00

/-- `TFONT` by hand, at an ordinary code and on both sides of the last code of the table. -/
theorem test_slices : slices 0x41 = [0x41, 0x51, 0x61, 0x71, 0x81] ∧ slices 0x7E = [0x7E, 0x8E, 0x9E, 0xAE, 0xBE] ∧
    slices 0x7F = [0, 0, 0, 0, 0] ∧ slices 0x80 = [0, 0, 0, 0, 0] := by decide +kernel

/-- Column 123 is the last at which a glyph of TC0 fits. -/
theorem witness_PutCharFits : [0x41, 0x51, 0x61, 0x71, 0x81] = slices 0x41 ∧ [0, 0, 0, 0, 0] = slices 0x80 ∧
    (0x41 : Byte) ≠ tc0.newline ∧ 1 ≤ tc0.fontWidth ∧
    (123 : Byte).toNat + tc0.fontWidth ≤ 128 ∧ (oks tc0 3 123 5).answersOk tc0.fontWidth [] :=
  ⟨test_slices.1.symm, test_slices.2.2.2.symm, by decide, by decide, by decide, rfl⟩

theorem witness_PutCharPreWraps : [0x41, 0x51, 0x61, 0x71, 0x81] = slices 0x41 ∧ (0x41 : Byte) ≠ tc0.newline ∧ 1 ≤ tc0.fontWidth ∧
    128 < (124 : Byte).toNat + tc0.fontWidth ∧ (4 : Byte) = BitVec.ofNat 8 (((3 : Page).toNat + 1) % 8) ∧
    (oks tc0 3 124 9).answersOk ((windowPackets tc0 4 0).length + tc0.fontWidth) [] :=
  ⟨test_slices.1.symm, by decide, by decide, by decide, by decide, rfl⟩

/-- Both arms, the first slice and the last. -/
theorem witness_PutCharAbortAtSlice : [0x41, 0x51, 0x61, 0x71, 0x81] = slices 0x41 ∧ (0x41 : Byte) ≠ tc0.newline ∧ 4 < tc0.fontWidth ∧
    ((123 : Byte).toNat + tc0.fontWidth ≤ 128 ∧ (bad tc0 3 123 0).failsAt 0 [] ∧ (bad tc0 3 123 4).failsAt 4 []) ∧
    (¬ (124 : Byte).toNat + tc0.fontWidth ≤ 128 ∧ (bad tc0 3 124 4).failsAt ((windowPackets tc0 4 0).length + 0) [] ∧
      (bad tc0 3 124 8).failsAt ((windowPackets tc0 4 0).length + 4) []) :=
  ⟨test_slices.1.symm, by decide, by decide, ⟨by decide, rfl, rfl⟩, by decide, rfl, rfl⟩

theorem witness_PutCharAbortInPreWrap : 128 < (124 : Byte).toNat + tc0.fontWidth ∧ 3 < (windowPackets tc0 4 0).length ∧
    (bad tc0 3 124 0).failsAt 0 [] ∧ (bad tc0 3 124 3).failsAt 3 [] := ⟨by decide, by decide, rfl, rfl⟩

theorem witness_PrintRendersPayloadInOrder : Memory.wf (oks tc0 0 0 10).mem = true := rfl

/-- Five characters end at column 128 from column 103; the slices of two of them. -/
theorem witness_PrintOnOneLine : [0x41, 0x51, 0x61, 0x71, 0x81, 0, 0, 0, 0, 0] = [0x41, 0x80].flatMap slices ∧
    Memory.wf (oks tc0 0 103 25).mem = true ∧ (oks tc0 0 103 25).inFlight = none ∧
    [0x41, 0x42, 0x90, 0x00, 0x43].length ≤ tc0.printMax ∧ 1 ≤ tc0.fontWidth ∧
    (∀ b ∈ ([0x41, 0x42, 0x90, 0x00, 0x43] : List Byte), b ≠ tc0.newline) ∧
    (103 : Byte).toNat + 5 * tc0.fontWidth ≤ 128 ∧ (oks tc0 0 103 25).answersOk (5 * tc0.fontWidth) [] :=
  ⟨by decide +kernel, rfl, rfl, by decide, by decide, by decide, by decide, rfl⟩

theorem witness_PrintEqualsPutChars : ∃ t, exec (.print [0x41, 0x0A, 0x42]) (oks tc0 0 0 14) = .next t ∧
    [(0x41 : Byte), 0x0A, 0x42].length ≤ tc0.printMax ∧ t.flag .be = false ∧ t.inFlight = none :=
  ⟨_, rfl, by decide, by decide +kernel, by decide +kernel⟩

theorem witness_PrintTruncatesAndSetsOverflow : (oks tc0 0 0 80).cfg.printMax < (List.replicate 17 (0x41 : Byte)).length := by
  decide +kernel

/-- Byte 15 is stored, byte 16 is dropped. -/
theorem witness_PrintStoresMessage : Memory.wf (oks tc0 0 0 80).mem = true ∧
    (∃ t, exec (.print (List.replicate 17 0x41)) (oks tc0 0 0 80) = .next t) ∧
    (List.replicate 17 (0x41 : Byte))[15]? = some 0x41 ∧ 15 < tc0.printMax ∧ ¬ (16 < 17 ∧ 16 < tc0.printMax) :=
  ⟨rfl, ⟨_, rfl⟩, by decide, by decide, by decide⟩

theorem witness_FillSweepsTheDisplay_ok : (oks tc0 4 50 1028).answersOk ((windowPackets tc0 0 0).length + 1024) [] := by
  rw [show (windowPackets tc0 0 0).length + 1024 = 1028 from rfl]; rfl

/-- A window packet, the first data packet, the last. -/
theorem witness_FillSweepsTheDisplay_fails :
    1027 < (windowPackets tc0 0 0 ++ dataPackets tc0 (List.replicate 1024 0xFF)).length ∧
    (bad tc0 4 50 3).failsAt 3 [] ∧ (bad tc0 4 50 4).failsAt 4 [] ∧ (bad tc0 4 50 1027).failsAt 1027 [] :=
  ⟨by decide +kernel, rfl, rfl, rfl⟩

theorem witness_FillCounts : (oks tc0 4 50 1028).answersOk (if tc0.cmdAddrFirst then 1030 else 1028) [] ∧
    (oks tc0a 4 50 1030).answersOk (if tc0a.cmdAddrFirst then 1030 else 1028) [] ∧
    (1028 ≤ if tc0.cmdAddrFirst then 1030 else 1028) ∧ (bad tc0 4 50 0).failsAt (1 - 1) [] ∧
    (bad tc0 4 50 1027).failsAt (1028 - 1) [] := ⟨rfl, rfl, by decide, rfl, rfl⟩

/-- The first and the last byte of the two rows. -/
theorem witness_DrawBitmapCompletes : (0 < tc0.bitmapRows ∧ 0 < 128) ∧ (1 < tc0.bitmapRows ∧ 127 < 128) ∧ (7 : Byte).toNat ≤ 7 ∧ (126 : Byte).toNat ≤ 126 ∧
    (oks tc0 4 50 268).answersOk ((windowPackets tc0 7 126).length +
      (bitmapPackets tc0 7 (List.range tc0.bitmapRows)).length) [] := by
  refine ⟨by decide, by decide, by decide, by decide, ?_⟩
  rw [show (windowPackets tc0 7 126).length + (bitmapPackets tc0 7 (List.range tc0.bitmapRows)).length = 268 by decide +kernel]
  rfl

theorem witness_DrawBitmapWithRejectedStart : (7 < (8 : Byte).toNat ∨ 126 < (0 : Byte).toNat) ∧
    (oks tc0 4 50 264).inFlight = none ∧
    (oks tc0 4 50 264).answersOk (bitmapPackets tc0 4 (List.range tc0.bitmapRows)).length [] := by
  refine ⟨by decide, rfl, ?_⟩
  rw [show (bitmapPackets tc0 4 (List.range tc0.bitmapRows)).length = 264 by decide +kernel]
  rfl

theorem witness_DrawBitmapCounts : tc0.cmdAddrFirst = false ∧
    (2 = if (7 : Byte).toNat ≤ 7 ∧ (126 : Byte).toNat ≤ 126 then 2 else 0) ∧
    (oks tc0 4 50 268).answersOk (2 * 2 + tc0.bitmapRows * (128 + 4)) [] ∧
    (0 = if (8 : Byte).toNat ≤ 7 ∧ (0 : Byte).toNat ≤ 126 then 2 else 0) ∧
    (oks tc0 4 50 264).answersOk (2 * 0 + tc0.bitmapRows * (128 + 4)) [] := ⟨rfl, by decide, rfl, by decide, rfl⟩

/-- The last window packet; then, accepted and rejected, the last data packet of row 0, the first of its new line, and
the last packet of all. -/
theorem witness_DrawBitmapAbortsAtFirstBusError : tc0.cmdAddrFirst = false ∧ (bad tc0 4 50 3).failsAt 3 [] ∧
    (0 < tc0.bitmapRows ∧ 127 < 132 ∧ (bad tc0 4 50 131).failsAt ((windowPackets tc0 1 0).length + 0 * 132 + 127) []) ∧
    (128 < 132 ∧ (bad tc0 4 50 132).failsAt ((windowPackets tc0 1 0).length + 0 * 132 + 128) []) ∧
    (1 < tc0.bitmapRows ∧ 131 < 132 ∧ (bad tc0 4 50 263).failsAt (([] : List Packet).length + 1 * 132 + 131) [] ∧
      ¬ ((9 : Byte).toNat ≤ 7 ∧ (0 : Byte).toNat ≤ 126)) :=
  ⟨rfl, rfl, ⟨by decide, by decide, rfl⟩, ⟨by decide, rfl⟩, by decide, by decide, rfl, by decide⟩

theorem witness_ReservedOpcodeOnlySetsIllegal : ((0x00 : Byte).toNat = 0 ∨ 8 ≤ (0x00 : Byte).toNat) ∧
    ((0x08 : Byte).toNat = 0 ∨ 8 ≤ (0x08 : Byte).toNat) := by decide

/-- NEW_LINE in progress, one of its lines complete. -/
def between (s : State) : State := { s with running := some (startedIn .newLine s 1) }

/-- While idle, while a packet is unanswered, and between two lines. -/
theorem witness_ResetInputAtAnyTime :
    ({ oks tc0 3 9 0 with host := [.reset] }.host = .reset :: [] ∧ { oks tc0 3 9 0 with host := [.reset] }.pending = []) ∧
    { oks tc0 3 9 0 with host := [.reset], inFlight := some ⟨0, 1⟩ }.inFlight ≠ none ∧
    (between (oks tc0 3 9 0)).running ≠ none := ⟨⟨rfl, rfl⟩, nofun, nofun⟩

/-- A command written whole, one whose last byte arrives, one with lines that elapse, and a micro-operation. -/
theorem witness_StepRunsDecodedInstruction :
    ((hosted (oks tc0 0 0 4) [0x03]).inFlight = none ∧ (hosted (oks tc0 0 0 4) [0x03]).running = none ∧
      (hosted (oks tc0 0 0 4) [0x03]).pending = [] ∧
      (hosted (oks tc0 0 0 4) [0x03]).host = [0x03].map .cmd ++ [] ∧ (takeElapse []).1 = none ∧
      decode ((hosted (oks tc0 0 0 4) [0x03]).rx ++ [0x03]) = .ok (.newLine, [])) ∧
    decode ({ oks tc0 0 0 4 with rx := [0x02, 0x07] }.rx ++ [0x7E]) = .ok (.setCursor 7 0x7E, []) ∧
    takeElapse [.elapse 1, .readReg 2] = (some 1, [.readReg 2]) ∧
    { oks tc0 0 0 1 with pending := [.txPixelData 1] }.pending = .txPixelData 1 :: [] ∧
    { oks tc0 0 0 1 with pending := [.txPixelData 1] }.running = none ∧
    (∃ t, exec (.txPixelData 1) (oks tc0 0 0 1) = .next t ∧ t.inFlight = none) :=
  ⟨⟨rfl, rfl, rfl, rfl, rfl, rfl⟩, rfl, rfl, rfl, rfl, _, rfl, by decide⟩

/-- SET_CURSOR 2, 10, at the first stage and at the last but one. -/
theorem witness_OperationStandsBetweenLines :
    { oks tc0 5 77 4 with host := [.cmd 2, .cmd 2, .cmd 10, .elapse 0] }.host = [2, 2, 10].map .cmd ++ .elapse 0 :: [] ∧
    (oks tc0 5 77 4).inFlight = none ∧ (oks tc0 5 77 4).running = none ∧ (oks tc0 5 77 4).pending = [] ∧
    decode ((oks tc0 5 77 4).rx ++ [2, 2, 10]) = .ok (.setCursor 2 10, []) ∧
    (stages (.setCursor 2 10) (oks tc0 5 77 4)).length = 10 ∧
    (∃ v, (stages (.setCursor 2 10) (oks tc0 5 77 4))[0]? = some v) ∧
    ∃ v, (stages (.setCursor 2 10) (oks tc0 5 77 4))[8]? = some v :=
  ⟨rfl, rfl, rfl, rfl, rfl, by decide +kernel, ⟨_, rfl⟩, _, rfl⟩

theorem witness_StagesLeadFromAcceptanceToEnd : (Instr.putChar 0x41).isHostCommand = true := rfl

/-- The edges of the range, and the first positions beyond them. -/
theorem witness_CursorStagesLineByLine : (7 < (8 : Byte).toNat ∨ 126 < (0 : Byte).toNat) ∧
    (7 < (7 : Byte).toNat ∨ 126 < (127 : Byte).toNat) ∧ (7 : Byte).toNat ≤ 7 ∧ (126 : Byte).toNat ≤ 126 ∧
    (oks tc0 5 77 4).answersOk (windowPackets tc0 7 126).length [] := ⟨by decide, by decide, by decide, by decide, rfl⟩

/-- NEW_LINE after its first line, going on to its end or for one line more. -/
theorem witness_PauseChangesNothing : (oks tc0 3 9 4).inFlight = none ∧ (oks tc0 3 9 4).running = none ∧
    (∃ v, (stages .newLine (oks tc0 3 9 4))[1]? = some v) ∧ 1 + 1 < (stages .newLine (oks tc0 3 9 4)).length ∧
    (([] : List HostAction) = [] ∨ ∃ m after, ([] : List HostAction) = .elapse m :: after) ∧
    ([HostAction.elapse 1] = [] ∨ ∃ m after, [HostAction.elapse 1] = .elapse m :: after) :=
  ⟨rfl, rfl, ⟨_, rfl⟩, by decide +kernel, .inl rfl, .inr ⟨_, _, rfl⟩⟩

theorem witness_IncompleteCommandWaits : (hosted (oks tc0 0 0 0) [0x05, 0x02, 0x41]).inFlight = none ∧
    (hosted (oks tc0 0 0 0) [0x05, 0x02, 0x41]).running = none ∧
    (hosted (oks tc0 0 0 0) [0x05, 0x02, 0x41]).pending = [] ∧
    (hosted (oks tc0 0 0 0) [0x05, 0x02, 0x41]).host = [0x05, 0x02, 0x41].map .cmd ++ [] ∧ noByteNext [] ∧
    decode ((hosted (oks tc0 0 0 0) [0x05, 0x02, 0x41]).rx ++ [0x05, 0x02, 0x41]) = .error .needMoreBytes :=
  ⟨rfl, rfl, rfl, rfl, rfl, rfl⟩

/-- Each of the four registers, the first address beyond them, and a read while a packet is unanswered and between two
lines. -/
theorem witness_HostReadsRegisters :
    (∀ a ∈ [0, 1, 2, 3, 4], { oks tc0 3 9 0 with host := [.readReg a] }.host = .readReg a :: []) ∧
    { oks tc0 3 9 0 with host := [.readReg 1] }.pending = [] ∧
    { oks tc0 3 9 0 with host := [.readReg 1], inFlight := some ⟨0, 1⟩ }.inFlight ≠ none ∧
    (between (oks tc0 3 9 0)).running ≠ none := ⟨fun _ _ => rfl, rfl, nofun, nofun⟩

theorem witness_UnansweredTransmissionHoldsTheEngine : { oks tc0 3 9 0 with inFlight := some ⟨0, 1⟩ }.inFlight ≠ none ∧
    { oks tc0 3 9 0 with inFlight := some ⟨0, 1⟩ }.host = [] ∧
    { oks tc0 3 9 0 with inFlight := some ⟨0, 1⟩, host := [.elapse 2] }.host = .elapse 2 :: [] ∧
    { oks tc0 3 9 0 with inFlight := some ⟨0, 1⟩, host := [.cmd 3] }.host = .cmd 3 :: [] ∧
    (between { oks tc0 3 9 0 with host := [.cmd 3] }).running ≠ none ∧
    (between { oks tc0 3 9 0 with host := [.cmd 3] }).host = .cmd 3 :: [] ∧
    (oks tc0 3 9 0).inFlight = none ∧ (oks tc0 3 9 0).pending = [] ∧
    { oks tc0 3 9 0 with host := [.answer .ok] }.host = .answer .ok :: [] :=
  ⟨nofun, rfl, rfl, rfl, nofun, rfl, rfl, rfl, rfl⟩

/-- SET_CURSOR 2, 10 waits on its second packet; the answer comes later. -/
theorem witness_LateAnswerActsAsPrompt : (at_ tc0 5 77 ([.ok] ++ .silent :: [.ok, .ok])).inFlight = none ∧
    (at_ tc0 5 77 ([.ok] ++ .silent :: [.ok, .ok])).running = none ∧
    ∃ u, exec (.setCursor 2 10) (at_ tc0 5 77 ([.ok] ++ .silent :: [.ok, .ok])) = .next u ∧ u.inFlight ≠ none ∧
      u.answers = [.ok, .ok] := ⟨rfl, rfl, _, rfl, by decide, by decide⟩

theorem witness_LateAnswerOnlyAdds : ∃ u v, exec (.setCursor 2 10) (at_ tc0 5 77 ([.ok] ++ .silent :: [.ok, .ok])) = .next u ∧
    u.inFlight ≠ none ∧ u.answers = [.ok, .ok] ∧
    exec (.setCursor 2 10) (at_ tc0 5 77 ([.ok] ++ .busError :: [.ok, .ok])) = .next v := ⟨_, _, rfl, by decide, by decide, rfl⟩

/-- The configurations of the test vectors are well formed. -/
theorem test_configs_wf : tc0.wf = true ∧ tc0a.wf = true ∧ tc1.wf = true := by decide +kernel

/-- The largest legal Cursor, about to wrap. -/
theorem witness_StepKeepsRegistersLegal : (hosted (oks tc0 7 128 9) [0x04, 0x41]).registersLegal ∧
    ∃ t, step (hosted (oks tc0 7 128 9) [0x04, 0x41]) = .next t :=
  ⟨⟨test_configs_wf.1, ⟨by decide, by decide⟩, by decide, ⟨rfl, rfl⟩, nofun⟩, _, rfl⟩

theorem witness_StepKeepsPortsConsistent : (hosted (oks tc0 0 0 4) [0x03]).portsConsistent ∧
    ∃ t, step (hosted (oks tc0 0 0 4) [0x03]) = .next t :=
  ⟨⟨rfl, by decide, .inl rfl, rfl, by decide, nofun⟩, _, rfl⟩

theorem witness_StepKeepsParameters : ∃ t, step (hosted (oks tc0 0 0 4) [0x03]) = .next t := ⟨_, rfl⟩

/-- An idle engine, one that waits, and a read between two lines. -/
theorem witness_StepExtendsTraces :
    ((oks tc0 0 0 0).running = none ∧ ∃ t, step (oks tc0 0 0 0) = .next t) ∧
    (({ oks tc0 0 0 0 with inFlight := some ⟨0, 1⟩ }.inFlight ≠ none ∧
      ∀ a after, { oks tc0 0 0 0 with inFlight := some ⟨0, 1⟩ }.host ≠ .answer a :: after) ∧
      ∃ t, step { oks tc0 0 0 0 with inFlight := some ⟨0, 1⟩ } = .next t) ∧
    (∃ a after, (between { oks tc0 0 0 0 with host := [.readReg 1] }).host = .readReg a :: after) ∧
    ∃ t, step (between { oks tc0 0 0 0 with host := [.readReg 1] }) = .next t :=
  ⟨⟨rfl, _, rfl⟩, ⟨⟨nofun, nofun⟩, _, rfl⟩, ⟨_, _, rfl⟩, _, rfl⟩

/-- An operation that ends, one that aborts, one the transport leaves unanswered. -/
theorem witness_WireTraceIsFramerExpansion : (Instr.fill 0xFF).isHostCommand = true ∧
    (∃ t, exec .newLine (oks tc0 0 0 4) = .next t ∧ t.flag .be = false ∧ t.flag .busy = false) ∧
    (∃ t, exec (.fill 0xFF) (bad tc0 0 0 6) = .next t ∧ t.flag .be = true) ∧
    (∃ t, exec (.setCursor 2 10) (at_ tc0 5 77 [.ok, .silent]) = .next t ∧ t.flag .busy = true) :=
  ⟨rfl, ⟨_, rfl, by decide +kernel, by decide +kernel⟩, ⟨_, rfl, by decide +kernel⟩, _, rfl, by decide +kernel⟩

theorem witness_TransactionsHaveProducedShapes : ∃ t, exec (.putChar 0x41) (oks tc0 0 0 5) = .next t := ⟨_, rfl⟩

/-- MSG[15] may change in a PRINT of 16 bytes, MSG[16] may not. -/
theorem witness_HostOperationFrame : (Instr.print (List.replicate 16 0x41)).isHostCommand = true ∧
    (∃ t, exec (.print (List.replicate 16 0x41)) (oks tc0 0 0 80) = .next t) ∧
    (∀ payload, Instr.print (List.replicate 16 0x41) = .print payload → ¬ (16 < payload.length ∧ 16 < tc0.printMax)) := by
  refine ⟨rfl, ⟨_, rfl⟩, ?_⟩
  rintro payload ⟨rfl⟩
  decide

theorem witness_FlagsArePerOperation : (Instr.putChar 0x90).isHostCommand = true ∧ (oks tc0 0 0 5).inFlight = none ∧
    ∃ t, exec (.putChar 0x90) (oks tc0 0 0 5) = .next t := ⟨rfl, rfl, _, rfl⟩

theorem witness_HostOperationIgnoresStatus : (Instr.setCursor 8 0).isHostCommand = true := rfl

theorem witness_OperationsAreBounded : (oks tc0 0 0 4).cfg.cmdAddrFirst = false := rfl

end Sys2Proof.Tests
end

section
/-! PROOFS, the scope of the model: how the W-trace of a host operation follows from its T-trace. -/

namespace Sys2Proof.Machine

/-! ### The end of a host operation, field by field -/

@[simp] theorem endOperation_ttrace (r : State × Flow) : (endOperation r).ttrace = r.1.ttrace := by
  obtain ⟨t, _ | _ | _⟩ := r <;> rfl

@[simp] theorem endOperation_wtrace (r : State × Flow) : (endOperation r).wtrace = r.1.wtrace := by
  obtain ⟨t, _ | _ | _⟩ := r <;> rfl

@[simp] theorem endOperation_inFlight (r : State × Flow) : (endOperation r).inFlight = r.1.inFlight := by
  obtain ⟨t, _ | _ | _⟩ := r <;> rfl

/-- BUSY is 1 after a host operation exactly if its body waits (spec/10_state.md R26). -/
@[simp] theorem endOperation_flag_busy (r : State × Flow) :
    (endOperation r).flag .busy = decide (r.2 = .waiting) := by
  obtain ⟨t, _ | _ | _⟩ := r <;> simp [endOperation, State.flag, flagBit, flagMask]

/-- The end of an operation sets BE only by the abort (spec/60_exceptions.md R152). -/
@[simp] theorem endOperation_flag_be (r : State × Flow) :
    (endOperation r).flag .be = (r.1.flag .be || decide (r.2 = .abandoned)) := by
  obtain ⟨t, _ | _ | _⟩ := r <;> simp [endOperation, State.flag, flagBit, flagMask]

/-! ### BE during a host operation -/

/-- A piece of an operation keeps every flag outside its mask. -/
theorem Effect.flag_eq {mask : Byte} {may : Config → Transaction → Prop} {s : State} {r : State × Flow}
    (h : Effect mask may s r) {f : Flag} (hf : mask.getLsbD (flagBit f) = false) : r.1.flag f = s.flag f := by
  have hlt : flagBit f < 8 := by cases f <;> decide
  have hbit := congrArg (·.getLsbD (flagBit f)) h.status
  simpa only [State.flag, BitVec.getLsbD_and, BitVec.getLsbD_not, hf, hlt, decide_true, Bool.not_false,
    Bool.and_true] using hbit

theorem bodyMask_be (i : Instr) : (bodyMask i).getLsbD (flagBit .be) = false := by
  unfold bodyMask
  split <;> rfl

theorem startOf_flag_be (i : Instr) (s : State) : (startOf i s).flag .be = false := by
  obtain ⟨-, -, -, -, -, -, -, h | h⟩ := startOf_fields i s <;> rw [State.flag, h] <;> rfl

/-- No line of a host operation's body sets BE (spec/60_exceptions.md R152). -/
theorem hostBody_flag_be {i : Instr} {may : Config → Transaction → Prop} {s : State} {r : State × Flow}
    (h : Effect (bodyMask i) may (startOf i s) r) : r.1.flag .be = false :=
  (h.flag_eq (bodyMask_be i)).trans (startOf_flag_be i s)

/-! ### The obligation -/

/-- Settles O52: a host operation is the end of a body whose transactions stand on the wire as `WireOf` says, and the
way the body ended is read from BE and BUSY. -/
theorem wireTraceIsFramerExpansion : Obligations.WireTraceIsFramerExpansion := by
  unfold Obligations.WireTraceIsFramerExpansion
  intro i s t hi hidle hexec
  obtain ⟨r, hr, heffect⟩ := exec_host hi s
  obtain rfl : endOperation r = t := Host.Outcome.next.inj (hr.symm.trans hexec)
  obtain ⟨hcfg, -, -, hflight, -, htt, hwt, -⟩ := startOf_fields i s
  obtain ⟨txs, hissued, -, hwire⟩ := heffect.wire
  have hbe := hostBody_flag_be heffect
  refine ⟨txs, by rw [endOperation_ttrace, hissued, htt], ?_⟩
  obtain ⟨u, _ | _ | _⟩ := r <;> simp only [WireOf, hcfg, hwt, hflight] at hwire
  case done =>
    obtain ⟨hsent, hnone⟩ := hwire
    exact .inl ⟨by simp [hbe], by simp, by simpa using hnone hidle, by simpa using hsent⟩
  case abandoned =>
    obtain ⟨hnone, hfailed⟩ := hwire
    exact .inr (.inl ⟨by simp, by simp, by simpa using hnone, by simpa using hfailed⟩)
  case waiting => exact .inr (.inr ⟨by simp [hbe], by simp, by simpa using hwire⟩)

end Sys2Proof.Machine
end

section
/-! PROOFS, the state: what a step can do, what every step keeps of the parameters, the registers and the ports, and what
a host operation keeps. -/

namespace Sys2Proof.Machine

/-! ### The end of an instruction -/

/-- An instruction's end is its body's, or the last of its stages. -/
theorem endOf_mem_endStages (i : Instr) (r : State × Flow) : endOf i r = r.1 ∨ endOf i r ∈ endStages i.isHostCommand r := by
  rcases endStages_last i r with ⟨-, -, h⟩ | h
  · exact .inl h
  · exact .inr (List.mem_of_getLast? h)

/-- The end of a host operation's body writes STATUS alone (spec/10_state.md R26, spec/60_exceptions.md R152). -/
theorem endOperation_frame (r : State × Flow) : Frame r.1 (endOperation r) := by
  obtain ⟨t, _ | _ | _⟩ := r <;> exact ⟨rfl, rfl, rfl, rfl, rfl, rfl, rfl⟩

theorem endOf_host {i : Instr} (hi : i.isHostCommand = true) (r : State × Flow) : endOf i r = endOperation r := by
  rw [endOf, if_pos hi]

/-- A host operation is its body from its acceptance, and then its end (spec/10_state.md R26). -/
theorem exec_host_eq {i : Instr} (hi : i.isHostCommand = true) (s : State) :
    exec i s = .next (endOperation ((bodyOf i).run s.accept)) := by
  rw [exec_eq, bodyStart_host hi, endOf_host hi]

/-- After a host operation BUSY is 1 exactly if a transmission is unanswered
(spec/10_state.md R26, spec/70_reset_and_hazards.md R190). -/
theorem exec_host_busy_iff {i : Instr} {s u : State} (hi : i.isHostCommand = true) (hidle : s.inFlight = none)
    (hu : exec i s = .next u) : u.flag .busy = true ↔ u.inFlight ≠ none := by
  obtain rfl := Host.Outcome.next.inj ((exec_host_eq hi s).symm.trans hu)
  obtain ⟨hended, hwaits, -⟩ := (bodyOf i).answered_on_the_way s.accept hidle
  rw [endOperation_flag_busy, endOperation_inFlight, decide_eq_true_eq]
  exact ⟨hwaits, fun h => by_contra fun hw => h (hended hw)⟩

/-! ### The states an instruction reaches -/

/-- A state that an instruction passes through, or in which its body or the instruction ends. -/
def Reaches (i : Instr) (s v : State) : Prop := v = ((bodyOf i).run (bodyStart i s)).1 ∨ v ∈ stages i s

theorem exec_reaches {i : Instr} {s u : State} (hu : exec i s = .next u) : Reaches i s u := by
  obtain rfl := Host.Outcome.next.inj ((exec_eq i s).symm.trans hu)
  rcases endOf_mem_endStages i ((bodyOf i).run (bodyStart i s)) with h | h
  · exact .inl h
  · exact .inr (by rw [stages_cons]; simp [h])

theorem Reaches.passes {i : Instr} {s v : State} (h : Reaches i s v) : Passes s v := by
  rcases h with rfl | h
  · exact (bodyStart_passes i s).trans ((bodyOf i).passes _).1
  · exact stages_pass i s h

/-- Where an instruction stands that goes on: in a state it reaches, noted as the operation in progress or ended. -/
theorem goOn_reaches {i : Instr} {t u : State} (limit : Option Nat) (hu : exec i t = .next u) :
    ∃ v q, goOn i limit t u = { v with running := q } ∧ Reaches i t v ∧ ∀ r, q = some r → ∃ n, r = startedIn i t n := by
  rcases goOn_cases i limit t u with h | ⟨n, v, -, hv, -, h⟩
  · by_cases hf : u.inFlight = none
    · exact ⟨u, none, h.trans (noteRunning_ended hf), exec_reaches hu, nofun⟩
    · exact ⟨u, _, h.trans (noteRunning_waits hf), exec_reaches hu, fun r hr => ⟨_, (Option.some.inj hr).symm⟩⟩
  · exact ⟨v, _, h, .inr (List.mem_of_getElem? hv), fun r hr => ⟨n, (Option.some.inj hr).symm⟩⟩

/-! ### What a step can do -/

/-- All that a step which answers a next state can do: a micro-operation that is presented runs, a command that is
complete runs, the operation in progress goes on; or nothing runs, and something is done at the ports. -/
inductive StepsTo (s : State) : State → Prop
  | presented {i : Instr} {limit : Option Nat} {more : List Instr} {h : List HostAction} {u : State}
      (hp : s.pending = i :: more) (hu : exec i { s with pending := more, host := h } = .next u) :
      StepsTo s (goOn i limit { s with pending := more, host := h } u)
  | command {i : Instr} {limit : Option Nat} {h : List HostAction} {u : State}
      (hf : s.inFlight = none) (hr : s.running = none) (hi : i.isHostCommand = true)
      (hu : exec i { s with rx := [], host := h } = .next u) :
      StepsTo s (goOn i limit { s with rx := [], host := h } u)
  | resumed {r : Running} {limit : Option Nat} {late : List BusAnswer} {h : List HostAction} {u : State}
      (hr : s.running = some r) (hu : exec r.instr (State.replay r late { s with host := h }) = .next u) :
      StepsTo s (goOn r.instr limit (State.replay r late { s with host := h }) u)
  | ports {h : List HostAction} {log : List (Nat × Byte)} : StepsTo s { s with host := h, readLog := log }
  | reset {h : List HostAction} : StepsTo s ({ s with host := h }.resetInput)
  | bytes {h : List HostAction} {received : List Byte} (hf : s.inFlight = none) (hr : s.running = none)
      (hb : received ≠ []) (hd : decode received = .error .needMoreBytes) :
      StepsTo s (State.acceptBytes received { s with host := h })

/-- A step that runs an instruction goes on with it from where its meaning ends. -/
theorem step_of_run {s t v : State} {i : Instr} {limit : Option Nat} (he : nextEvent s = .run i limit v)
    (hs : step s = .next t) : ∃ u, exec i v = .next u ∧ t = goOn i limit v u :=
  ⟨_, exec_eq i v, Host.Outcome.next.inj (hs.symm.trans (step_run he (exec_eq i v)))⟩

theorem eq_of_settle {s t v : State} (he : nextEvent s = .settle v) (hs : step s = .next t) : t = v :=
  Host.Outcome.next.inj (hs.symm.trans (step_settle he))

theorem stepsTo_of_step {s t : State} (hs : step s = .next t) : StepsTo s t := by
  rcases nextEvent_cases s with ⟨i, l, more, h, -, -, hp, he⟩ | ⟨i, l, h, hf, hr, -, hi, he⟩ | ⟨h, he⟩ | ⟨h, he⟩ |
    ⟨h, a, v, -, he⟩ | ⟨h, received, hf, hr, -, hb, hd, he⟩ | ⟨r, late, h, hr, -, he⟩ | ⟨f, he⟩ | ⟨f, he⟩
  · obtain ⟨u, hu, rfl⟩ := step_of_run he hs
    exact .presented hp hu
  · obtain ⟨u, hu, rfl⟩ := step_of_run he hs
    exact .command hf hr hi hu
  · exact eq_of_settle he hs ▸ .ports
  · exact eq_of_settle he hs ▸ .reset
  · exact eq_of_settle he hs ▸ .ports
  · exact eq_of_settle he hs ▸ .bytes hf hr hb hd
  · obtain ⟨u, hu, rfl⟩ := step_of_run he hs
    exact .resumed hr hu
  · simp [step, he] at hs
  · simp [step, he] at hs

/-! ### The parameters -/

theorem goOn_cfg {i : Instr} {t u : State} (limit : Option Nat) (hu : exec i t = .next u) :
    (goOn i limit t u).cfg = t.cfg := by
  obtain ⟨v, q, h, hv, -⟩ := goOn_reaches limit hu
  rw [h]
  exact hv.passes.cfg

/-- Settles O50: an instruction passes the parameters on, and nothing done at the ports writes them. -/
theorem stepKeepsParameters : Obligations.StepKeepsParameters := by
  unfold Obligations.StepKeepsParameters
  intro s t hs
  cases stepsTo_of_step hs with
  | presented _ hu => exact goOn_cfg _ hu
  | command _ _ _ hu => exact goOn_cfg _ hu
  | resumed _ hu => exact goOn_cfg _ hu
  | ports => rfl
  | reset => rfl
  | bytes => rfl

/-! ### The registers and the print buffer -/

theorem reservedBitsClear_or_flag {v : Byte} (h : reservedBitsClear v = true) (f : Flag) :
    reservedBitsClear (v ||| flagMask f) = true := by
  cases f <;> simpa [reservedBitsClear, flagMask] using h

theorem reservedBitsClear_and {v : Byte} (h : reservedBitsClear v = true) (w : Byte) :
    reservedBitsClear (v &&& w) = true := by
  simp only [reservedBitsClear, Bool.and_eq_true, Bool.not_eq_true', BitVec.getLsbD_and] at h ⊢
  simp only [h, Bool.false_and, and_self]

theorem reservedBitsClear_accepted : reservedBitsClear acceptedStatus = true := by decide

theorem reservedBitsClear_zero : reservedBitsClear 0x00 = true := by decide

theorem receive_bufferLegal {s : State} (h : s.bufferLegal) (payload : List Byte) : (s.receive payload).bufferLegal :=
  ⟨storePayload_wf _ _ _ h.1, storePayload_below _ _ _ h.2⟩

/-- The reserved STATUS bits stay 0 and the print buffer stays legal, if they were. -/
structure KeepsLegal (s t : State) : Prop where
  status : reservedBitsClear s.status = true → reservedBitsClear t.status = true
  buffer : s.bufferLegal → t.bufferLegal

theorem KeepsLegal.refl (s : State) : KeepsLegal s s := ⟨id, id⟩

theorem KeepsLegal.trans {s t u : State} (h : KeepsLegal s t) (k : KeepsLegal t u) : KeepsLegal s u :=
  ⟨k.status ∘ h.status, k.buffer ∘ h.buffer⟩

theorem keepsLegal_setFlag (f : Flag) (s : State) : KeepsLegal s (s.setFlag f) :=
  ⟨fun h => reservedBitsClear_or_flag h f, id⟩

theorem keepsLegal_clearFlag (f : Flag) (s : State) : KeepsLegal s (s.clearFlag f) :=
  ⟨fun h => reservedBitsClear_and h _, id⟩

theorem keepsLegal_line (u : Update) (s : State) : KeepsLegal s (u.apply s) := by
  cases u with
  | page p => exact ⟨id, id⟩
  | col c => exact ⟨id, id⟩
  | flag f => exact keepsLegal_setFlag f s
  | receive payload => exact ⟨id, fun h => receive_bufferLegal h payload⟩
  | issue t => exact ⟨id, id⟩

theorem keepsLegal_send (p : Packet) (s : State) : KeepsLegal s (send p s).1 := by
  obtain ⟨hf, hr⟩ := send_frame p s
  refine ⟨?_, ?_⟩
  · rw [hr.status]; exact id
  · rw [State.bufferLegal, State.bufferLegal, hf.cfg, hf.mem]; exact id

theorem keepsLegal_bodyStart (i : Instr) (s : State) : KeepsLegal s (bodyStart i s) := by
  unfold bodyStart
  split
  · exact ⟨fun _ => reservedBitsClear_accepted, id⟩
  · exact .refl s

theorem keepsLegal_endStages {host : Bool} {r : State × Flow} {v : State} (h : v ∈ endStages host r) :
    KeepsLegal r.1 v := by
  obtain ⟨t, _ | _ | _⟩ := r
  case done =>
    cases host
    · simp [endStages] at h
    · obtain rfl : v = t.clearFlag .busy := by simpa [endStages] using h
      exact keepsLegal_clearFlag _ t
  case abandoned =>
    obtain rfl | rfl : v = t.setFlag .be ∨ v = t.raiseBusError := by simpa [endStages] using h
    · exact keepsLegal_setFlag _ t
    · exact (keepsLegal_setFlag _ t).trans (keepsLegal_clearFlag _ _)
  case waiting =>
    obtain rfl : v = t.setFlag .busy := by simpa [endStages] using h
    exact keepsLegal_setFlag _ t

theorem Reaches.keepsLegal {i : Instr} {s v : State} (h : Reaches i s v) : KeepsLegal s v := by
  have hs := keepsLegal_bodyStart i s
  obtain ⟨hr, ht, -⟩ := Prog.relates KeepsLegal.refl KeepsLegal.trans keepsLegal_line keepsLegal_send (bodyOf i)
    (bodyStart i s)
  rw [Reaches, stages_cons, List.mem_cons, List.mem_append] at h
  rcases h with rfl | rfl | h | h
  · exact hs.trans hr
  · exact hs
  · exact hs.trans (ht v h).1
  · exact (hs.trans hr).trans (keepsLegal_endStages h)

theorem fontWidth_le_of_wf {g : Config} (h : g.wf = true) : g.fontWidth ≤ 128 := by
  simp only [Config.wf, Bool.and_eq_true, decide_eq_true_eq] at h
  omega

theorem Reaches.inRange {i : Instr} {s v : State} (h : Reaches i s v) (hw : s.cfg.fontWidth ≤ 128)
    (hc : s.curCol.toNat ≤ 128) : v.curCol.toNat ≤ 128 := by
  rcases h with rfl | h
  · have hcol : (bodyStart i s).curCol = s.curCol := by unfold bodyStart; split <;> rfl
    exact (staysInRange_body i _ (by rw [(bodyStart_passes i s).cfg]; exact hw) (by rw [hcol]; exact hc)).1
  · exact stages_inRange i s hw hc v h

/-- What is legal of a state whatever operation is in progress: `State.registersLegal` without `State.startLegal`. -/
structure Legal (s : State) : Prop where
  cfg : s.cfg.wf = true
  col : s.curCol.toNat ≤ columnLength
  status : reservedBitsClear s.status = true
  buffer : s.bufferLegal

/-- What the decoder, the host and the presenter of micro-operations hold makes nothing illegal. -/
theorem Legal.withPorts {s : State} (hs : Legal s) (pending : List Instr) (rx : List Byte) (host : List HostAction) :
    Legal { s with pending := pending, rx := rx, host := host } :=
  ⟨hs.cfg, hs.col, hs.status, hs.buffer⟩

/-- The page register has 3 bits, so it is always in range (spec/10_state.md R24). -/
theorem registersLegal_iff (s : State) : s.registersLegal ↔ Legal s ∧ s.startLegal := by
  constructor
  · rintro ⟨hcfg, ⟨-, hcol⟩, hstatus, hbuffer, hstart⟩
    exact ⟨⟨hcfg, hcol, hstatus, hbuffer⟩, hstart⟩
  · rintro ⟨⟨hcfg, hcol, hstatus, hbuffer⟩, hstart⟩
    exact ⟨hcfg, ⟨Nat.le_of_lt_succ s.curPage.isLt, hcol⟩, hstatus, hbuffer, hstart⟩

theorem Reaches.legal {i : Instr} {s v : State} (h : Reaches i s v) (hs : Legal s) : Legal v :=
  ⟨by rw [h.passes.cfg]; exact hs.cfg, h.inRange (fontWidth_le_of_wf hs.cfg) hs.col, h.keepsLegal.status hs.status,
    h.keepsLegal.buffer hs.buffer⟩

/-- Wherever an instruction stands that started from a legal state, the registers are legal, and what is noted of its
start is that state's. -/
theorem goOn_registersLegal {i : Instr} {t u : State} (limit : Option Nat) (hu : exec i t = .next u) (ht : Legal t) :
    (goOn i limit t u).registersLegal := by
  obtain ⟨v, q, h, hv, hq⟩ := goOn_reaches limit hu
  obtain ⟨hcfg, hcol, hstatus, hbuffer⟩ := hv.legal ht
  rw [h, registersLegal_iff]
  refine ⟨⟨hcfg, hcol, hstatus, hbuffer⟩, fun r hr => ?_⟩
  obtain ⟨n, rfl⟩ := hq r hr
  refine ⟨ht.col, ht.status, ht.buffer.1, ?_⟩
  rw [show v.cfg = t.cfg from hv.passes.cfg]
  exact ht.buffer.2

/-- An operation in progress goes on from the legal state it started from (notes/assumptions/5.md). -/
theorem replay_legal {s : State} (hs : s.registersLegal) {r : Running} (hr : s.running = some r) (late : List BusAnswer)
    (h : List HostAction) : Legal (State.replay r late { s with host := h }) := by
  obtain ⟨hlegal, hstart⟩ := (registersLegal_iff s).1 hs
  obtain ⟨hcol, hstatus, hwf, hbelow⟩ := hstart r hr
  exact ⟨hlegal.cfg, hcol, hstatus, hwf, hbelow⟩

theorem resetInput_registersLegal {s : State} (h : s.cfg.wf = true) : s.resetInput.registersLegal :=
  ⟨h, ⟨Nat.zero_le _, Nat.zero_le _⟩, reservedBitsClear_zero, ⟨rfl, rfl⟩, nofun⟩

/-- Received bytes change STATUS to 0x80 and store their payload in MSG (spec/20_memory.md R42). -/
theorem acceptBytes_registersLegal {s : State} (hs : Legal s) (hr : s.running = none) (received : List Byte) :
    (State.acceptBytes received s).registersLegal := by
  rw [registersLegal_iff]
  refine ⟨⟨hs.cfg, hs.col, reservedBitsClear_accepted, receive_bufferLegal hs.buffer _⟩, fun r h => ?_⟩
  exact absurd (hr.symm.trans h) nofun

/-- Settles O47: whatever runs, runs from a legal state and reaches only legal ones, and what is done at the ports keeps
the registers legal. -/
theorem stepKeepsRegistersLegal : Obligations.StepKeepsRegistersLegal := by
  unfold Obligations.StepKeepsRegistersLegal
  intro s t hs hstep
  obtain ⟨hlegal, -⟩ := (registersLegal_iff s).1 hs
  cases stepsTo_of_step hstep with
  | presented _ hu => exact goOn_registersLegal _ hu (hlegal.withPorts _ _ _)
  | command _ _ _ hu => exact goOn_registersLegal _ hu (hlegal.withPorts _ _ _)
  | resumed hr hu => exact goOn_registersLegal _ hu (replay_legal hs hr _ _)
  | ports => exact hs
  | reset => exact resetInput_registersLegal hlegal.cfg
  | bytes _ hr => exact acceptBytes_registersLegal (hlegal.withPorts _ _ _) hr _

/-! ### The stages of a host operation, and BUSY -/

theorem endStages_host_ne_nil (r : State × Flow) : endStages true r ≠ [] := by
  obtain ⟨t, _ | _ | _⟩ := r <;> simp [endStages]

theorem stages_host {i : Instr} (hi : i.isHostCommand = true) (s : State) :
    stages i s = s.accept :: ((bodyOf i).trail s.accept ++ endStages true ((bodyOf i).run s.accept)) := by
  rw [stages_cons, bodyStart_host hi, hi]

theorem accept_busy (s : State) : s.accept.flag .busy = true := by
  simp [State.flag, acceptedStatus, flagBit]

theorem setFlag_busy {s : State} (h : s.flag .busy = true) (f : Flag) : (s.setFlag f).flag .busy = true := by
  have h' : s.status.getLsbD (flagBit .busy) = true := h
  simp [State.flag, h']

/-- The last lines but the very last: BE is set before BUSY is cleared (spec/60_exceptions.md R152). -/
theorem endStages_dropLast_busy {r : State × Flow} (h : r.1.flag .busy = true) {v : State}
    (hv : v ∈ (endStages true r).dropLast) : v.flag .busy = true := by
  obtain ⟨t, _ | _ | _⟩ := r
  case done => simp [endStages] at hv
  case abandoned =>
    obtain rfl : v = t.setFlag .be := by simpa [endStages] using hv
    exact setFlag_busy h _
  case waiting => simp [endStages] at hv

/-- BUSY is 1 at every stage before the last (spec/70_reset_and_hazards.md R193). -/
theorem stages_dropLast_busy {i : Instr} (hi : i.isHostCommand = true) (s : State) {v : State}
    (hv : v ∈ (stages i s).dropLast) : v.flag .busy = true := by
  obtain ⟨hend, hway⟩ := (bodyOf i).keepsBusy (accept_busy s)
  have hne := endStages_host_ne_nil ((bodyOf i).run s.accept)
  rw [stages_host hi, List.dropLast_cons_of_ne_nil (List.append_ne_nil_of_right_ne_nil _ hne),
    List.dropLast_append_of_ne_nil hne, List.mem_cons, List.mem_append] at hv
  rcases hv with rfl | hv | hv
  · exact accept_busy s
  · exact hway v hv
  · exact endStages_dropLast_busy hend hv

/-- The last stage of a host operation is where it ends. -/
theorem stages_getLast {i : Instr} (hi : i.isHostCommand = true) (s : State) :
    (stages i s).getLast? = some (endOperation ((bodyOf i).run s.accept)) := by
  have hne := endStages_host_ne_nil ((bodyOf i).run s.accept)
  have hlast := endStages_last i ((bodyOf i).run s.accept)
  rw [hi, endOf_host hi] at hlast
  rw [stages_host hi, ← List.cons_append, List.getLast?_append, hlast.resolve_left fun h => hne h.1]
  rfl

/-- Settles O38: a host operation starts accepted, its last stage is its end, and no line before that clears BUSY. -/
theorem stagesLeadFromAcceptanceToEnd : Obligations.StagesLeadFromAcceptanceToEnd := by
  unfold Obligations.StagesLeadFromAcceptanceToEnd
  intro i s hi
  refine ⟨?_, ⟨_, exec_host_eq hi s, stages_getLast hi s⟩, fun v hv => stages_dropLast_busy hi s hv⟩
  rw [stages_host hi, List.head?_cons, accept_eq]

/-! ### The ports -/

theorem portsConsistent_ended {s : State} (hp : s.pending = []) (hx : s.rx = []) (hb : s.flag .busy = false)
    (hf : s.inFlight = none) (hr : s.running = none) : s.portsConsistent := by
  simp [State.portsConsistent, hp, hx, hb, hf, hr, decode]

theorem resetInput_portsConsistent (s : State) : s.resetInput.portsConsistent :=
  portsConsistent_ended rfl rfl (by simp [State.flag, State.resetInput, State.reset]) rfl rfl

theorem portsConsistent_running {s : State} {r : Running} (hp : s.pending = []) (hx : s.rx = [])
    (hb : s.flag .busy = true) (hr : s.running = some r) (hi : r.instr.isHostCommand = true) : s.portsConsistent := by
  simp [State.portsConsistent, hp, hx, hb, hr, decode, hi]

theorem portsConsistent_receiving {s : State} (hp : s.pending = []) (hx : s.rx ≠ [])
    (hd : decode s.rx = .error .needMoreBytes) (hb : s.flag .busy = true) (hf : s.inFlight = none)
    (hr : s.running = none) : s.portsConsistent := by
  simp [State.portsConsistent, hp, hx, hd, hb, hf, hr]

/-- A stage before the last is among the stages before the last. -/
theorem mem_dropLast_of_getElem? {α : Type} {l : List α} {n : Nat} {v : α} (h : l[n]? = some v) (hn : n + 1 < l.length) :
    v ∈ l.dropLast := by
  obtain ⟨hlt, rfl⟩ := List.getElem?_eq_some_iff.1 h
  rw [List.mem_iff_getElem]
  exact ⟨n, by rw [List.length_dropLast]; omega, List.getElem_dropLast _⟩

/-- Wherever a host operation stands that started with the decoder empty and nothing unanswered, BUSY is 1 exactly if it
is still in progress (spec/10_state.md R26, spec/70_reset_and_hazards.md R193). -/
theorem goOn_portsConsistent {i : Instr} {t u : State} (limit : Option Nat) (hi : i.isHostCommand = true)
    (hp : t.pending = []) (hx : t.rx = []) (hf : t.inFlight = none) (hu : exec i t = .next u) :
    (goOn i limit t u).portsConsistent := by
  have hpass := (exec_reaches hu).passes
  have hbusy := exec_host_busy_iff hi hf hu
  rcases goOn_cases i limit t u with h | ⟨n, v, -, hv, hn, h⟩
  · by_cases hu' : u.inFlight = none
    · have hidle : u.flag .busy = false := by simpa [hu'] using hbusy
      rw [h, noteRunning_ended hu']
      exact portsConsistent_ended (hpass.pending.trans hp) (hpass.rx.trans hx) hidle hu' rfl
    · rw [h, noteRunning_waits hu']
      exact portsConsistent_running (hpass.pending.trans hp) (hpass.rx.trans hx) (hbusy.2 hu') rfl hi
  · have hv' := stages_pass i t (List.mem_of_getElem? hv)
    have hb := stages_dropLast_busy hi t (mem_dropLast_of_getElem? hv hn)
    rw [h]
    exact portsConsistent_running (hv'.pending.trans hp) (hv'.rx.trans hx) hb rfl hi

/-- Settles O48: only commands of the host run, from an empty decoder; what is done at the ports starts or discards what
BUSY stands for, or leaves it. -/
theorem stepKeepsPortsConsistent : Obligations.StepKeepsPortsConsistent := by
  unfold Obligations.StepKeepsPortsConsistent
  intro s t hs hstep
  have ⟨hp, _, hone, _, _, hhost⟩ := hs
  cases stepsTo_of_step hstep with
  | presented hp' => exact absurd (hp.symm.trans hp') nofun
  | command hf _ hi hu => exact goOn_portsConsistent _ hi hp rfl hf hu
  | resumed hr hu =>
    have hx : s.rx = [] := hone.resolve_right (by simp [hr])
    exact goOn_portsConsistent _ (hhost _ hr) hp hx rfl hu
  | ports => exact hs
  | reset => exact resetInput_portsConsistent _
  | bytes hf hr hb hd => exact portsConsistent_receiving hp hb hd (accept_busy s) hf hr

/-! ### The command stream and the registers, as the host sees them -/

/-- Settles O42: a burst that completes no command is kept in the decoder. -/
theorem incompleteCommandWaits : Obligations.IncompleteCommandWaits := by
  unfold Obligations.IncompleteCommandWaits
  intro s bytes after e hf hr hp hb hh hn hd
  have hevent : nextEvent s = .settle (State.acceptBytes (s.rx ++ bytes) { s with host := after }) := by
    rw [nextEvent_idle hf hr hp, idleEvent_bytes hb hh, fetchCommand_incomplete hh hn hd]
  exact step_settle hevent

/-- A register read that is next is served, whether the engine idles, waits or stands between two lines
(spec/70_reset_and_hazards.md R195). -/
theorem nextEvent_readReg {s : State} {a : Nat} {after : List HostAction} (hh : s.host = .readReg a :: after)
    (hs : s.pending = [] ∨ s.inFlight ≠ none ∨ s.running ≠ none) :
    nextEvent s = hostRead a { s with host := after } := by
  by_cases hf : s.inFlight = none
  · obtain hr | ⟨r, hr⟩ : s.running = none ∨ ∃ r, s.running = some r := by cases s.running <;> simp
    · rw [nextEvent_idle hf hr (by simpa [hf, hr] using hs)]
      simp only [idleEvent, hh]
    · rw [nextEvent_betweenLines hf hr]
      simp only [betweenLinesEvent, hh]
  · rw [nextEvent_waiting hf]
    simp only [busyEvent, hh]

theorem pageByte_eq (p : Page) : pageByte p = BitVec.ofNat 8 p.toNat := by
  apply BitVec.eq_of_toNat_eq; simp [pageByte]

/-- Settles O43: a read returns the register of its address, and there is none from 0x4 on. -/
theorem hostReadsRegisters : Obligations.HostReadsRegisters := by
  unfold Obligations.HostReadsRegisters
  intro s a after hh hs
  have hevent := nextEvent_readReg hh hs
  match a with
  | 0 => exact step_settle hevent
  | 1 => exact step_settle hevent
  | 2 => rw [← pageByte_eq]; exact step_settle hevent
  | 3 => exact step_settle hevent
  | a + 4 => rw [step, hevent]; rfl

/-! ### The frame of a host operation -/

theorem exec_reserved (op : Byte) (s : State) : exec (.reserved op) s = .next { s with status := 0x10 } := by
  have hstatus : (s.accept.setFlag .ill).status = 0x90 := show acceptedStatus ||| flagMask .ill = 0x90 by decide
  rw [exec_host_eq rfl, bodyOf, reservedBody_run, endOperation_done_of 0x90 0x10 hstatus (by decide)]
  simp only [State.setFlag, State.accept, State.setStatus]

/-- MSG where a host operation's body starts: with the message for PRINT, else as it was (spec/43_text.md R125). -/
theorem startOf_read {i : Instr} {s : State} {a : Nat}
    (h : ∀ payload, i = .print payload → ¬ (a < payload.length ∧ a < s.cfg.printMax)) :
    Memory.read (startOf i s).mem a = Memory.read s.mem a := by
  unfold startOf
  split
  · rename_i payload
    have hout := h payload rfl
    rw [State.afterMessage_mem]
    exact read_storePayload_outside _ _ _ _ (by rw [State.accept_cfg]; omega)
  · rfl

theorem startOf_host (i : Instr) (s : State) : (startOf i s).host = s.host ∧ (startOf i s).readLog = s.readLog := by
  unfold startOf
  split <;> simp

/-- Settles O54: what the body's effect frames, from where it starts, is what the operation does, STATUS apart. -/
theorem hostOperationFrame : Obligations.HostOperationFrame := by
  unfold Obligations.HostOperationFrame
  intro i s t hi hexec
  obtain ⟨r, hr, heffect⟩ := exec_host hi s
  obtain rfl := Host.Outcome.next.inj (hr.symm.trans hexec)
  obtain ⟨kcfg, kmem, krx, khost, klog, kpending, krunning⟩ := heffect.frame.trans (endOperation_frame r)
  obtain ⟨hcfg, hrx, hpending, -, hrunning, -⟩ := startOf_fields i s
  obtain ⟨hhost, hlog⟩ := startOf_host i s
  have hreserved : ∀ op, i = .reserved op →
      (endOperation r).curPage = s.curPage ∧ (endOperation r).curCol = s.curCol := by
    rintro op rfl
    rw [← Host.Outcome.next.inj ((exec_reserved op s).symm.trans hexec)]
    exact ⟨rfl, rfl⟩
  exact ⟨kcfg.trans hcfg, krx.trans hrx, khost.trans hhost, klog.trans hlog, kpending.trans hpending,
    krunning.trans hrunning, hreserved, fun a ha => by rw [kmem]; exact startOf_read ha⟩

/-! ### Flags within a mask -/

/-- Only bits of a mask are set. -/
def Within (mask v : Byte) : Prop := v &&& ~~~ mask = 0

theorem within_iff {mask v : Byte} : Within mask v ↔ ∀ (i : Nat) (_ : i < 8), v[i] = true → mask[i] = true := by
  rw [Within, BitVec.eq_of_getElem_eq_iff]
  simp [← Bool.not_eq_true, imp_iff_not_or]

theorem Within.or {mask v w : Byte} (hv : Within mask v) (hw : Within mask w) : Within mask (v ||| w) := by
  rw [within_iff] at *
  intro i hi h
  rw [BitVec.getElem_or, Bool.or_eq_true] at h
  exact h.elim (hv i hi) (hw i hi)

theorem Within.and {mask v : Byte} (hv : Within mask v) (w : Byte) : Within mask (v &&& w) := by
  rw [within_iff] at *
  intro i hi h
  rw [BitVec.getElem_and, Bool.and_eq_true] at h
  exact hv i hi h.1

/-- A piece that may change flags of a mask only, from a STATUS within it, ends within it. -/
theorem Effect.within {mask bound : Byte} {may : Config → Transaction → Prop} {s : State} {r : State × Flow}
    (h : Effect mask may s r) (hm : Within bound mask) (hs : Within bound s.status) : Within bound r.1.status := by
  rw [within_iff] at *
  intro i hi hr
  have hbit : (r.1.status &&& ~~~ mask)[i] = (s.status &&& ~~~ mask)[i] := by rw [h.status]
  rw [BitVec.getElem_and, BitVec.getElem_and, BitVec.getElem_not, hr, Bool.true_and] at hbit
  rcases hmask : mask[i] with _ | _
  · rw [hmask] at hbit
    exact hs i hi (by simpa using hbit.symm)
  · exact hm i hi hmask

/-- The end of a body adds BE if it was abandoned, and may set or clear BUSY (spec/60_exceptions.md R152). -/
theorem endOperation_within {bound : Byte} {r : State × Flow} (hs : Within bound r.1.status)
    (hbe : Within bound (flagMask .be)) (hbusy : Within bound (flagMask .busy)) :
    Within bound (endOperation r).status := by
  obtain ⟨t, _ | _ | _⟩ := r
  case done => exact hs.and _
  case abandoned => exact (hs.or hbe).and _
  case waiting => exact hs.or hbusy

/-! ### The flags of the host operations -/

theorem busy_within (v : Byte) : Within (v ||| 0x80) (flagMask .busy) := by
  rw [within_iff]
  intro i hi h
  rw [BitVec.getElem_or, Bool.or_eq_true]
  exact .inr h

/-- The flags that a body may change are flags of its operation. -/
theorem bodyMask_within (i : Instr) : Within (flagsOf i ||| 0x80) (bodyMask i) := by
  cases i <;> simp [Within, flagsOf, bodyMask, flagMask]

/-- A body starts with BUSY, and FO for a PRINT that is too long (spec/43_text.md R126). -/
theorem startOf_within (i : Instr) (s : State) : Within (flagsOf i ||| 0x80) (startOf i s).status := by
  unfold startOf
  split
  · rw [State.afterMessage_status]
    split <;> simp [Within, flagsOf, acceptedStatus, flagMask]
  · exact busy_within _

/-- Every host operation may set BE but a reserved opcode, which transmits nothing (spec/60_exceptions.md R157). -/
theorem be_within (i : Instr) :
    (∃ op, i = .reserved op) ∨ Within (flagsOf i ||| 0x80) (flagMask .be) := by
  cases i <;> simp [Within, flagsOf, flagMask]

/-- Settles O55: the body starts from BUSY and stays within the operation's flags, and so does its end. -/
theorem flagsArePerOperation : Obligations.FlagsArePerOperation := by
  unfold Obligations.FlagsArePerOperation
  intro i s t hi hidle hexec
  refine ⟨?_, exec_host_busy_iff hi hidle hexec⟩
  rcases be_within i with ⟨op, rfl⟩ | hbe
  · rw [← Host.Outcome.next.inj ((exec_reserved op s).symm.trans hexec)]
    simp [flagsOf]
  · obtain ⟨r, hr, heffect⟩ := exec_host hi s
    obtain rfl := Host.Outcome.next.inj (hr.symm.trans hexec)
    exact endOperation_within (heffect.within (bodyMask_within i) (startOf_within i s)) hbe (busy_within _)

/-! ### The flags before a host operation -/

/-- Settles O56: acceptance overwrites STATUS (spec/10_state.md R26), and the body starts from there. -/
theorem hostOperationIgnoresStatus : Obligations.HostOperationIgnoresStatus := by
  unfold Obligations.HostOperationIgnoresStatus
  intro i s v hi
  rw [exec_host_eq hi, exec_host_eq hi]
  rfl

end Sys2Proof.Machine
end

section
/-! PROOFS, the memory and the traces: what PRINT leaves in MSG, and that nothing sent is undone, from stage to stage of an
operation and from step to step. -/

namespace Sys2Proof.Machine

/-! ### What PRINT leaves in MSG -/

theorem exec_print_mem {s t : State} {payload : List Byte} (h : exec (.print payload) s = .next t) :
    t.mem = storePayload s.cfg.printMax 0 payload s.mem := by
  obtain ⟨r, hr, heffect⟩ := exec_host (i := .print payload) rfl s
  obtain rfl := Host.Outcome.next.inj (hr.symm.trans h)
  rw [(heffect.frame.trans (endOperation_frame r)).mem, startOf, State.afterMessage_mem]
  rfl

/-- Settles O26: the message is stored before anything is rendered, and no later line writes MSG. -/
theorem printStoresMessage : Obligations.PrintStoresMessage := by
  unfold Obligations.PrintStoresMessage
  intro s t payload hwf hexec
  rw [exec_print_mem hexec]
  refine ⟨fun j b hb hj => ?_, fun a ha => read_storePayload_outside _ _ _ _ (by omega)⟩
  obtain ⟨hlt, rfl⟩ := List.getElem?_eq_some_iff.1 hb
  simpa using read_storePayload s.cfg.printMax payload 0 hwf j hlt (by omega)

/-! ### A relation that every stage keeps -/

/-- The last lines of an instruction write STATUS alone. -/
theorem endStages_status {host : Bool} {r : State × Flow} {v : State} (h : v ∈ endStages host r) :
    ∃ w, v = { r.1 with status := w } := by
  obtain ⟨t, _ | _ | _⟩ := r
  case done =>
    cases host
    · simp [endStages] at h
    · obtain rfl : v = t.clearFlag .busy := by simpa [endStages] using h
      exact ⟨_, rfl⟩
  case abandoned =>
    obtain rfl | rfl : v = t.setFlag .be ∨ v = t.raiseBusError := by simpa [endStages] using h
    · exact ⟨_, rfl⟩
    · exact ⟨_, rfl⟩
  case waiting =>
    obtain rfl : v = t.setFlag .busy := by simpa [endStages] using h
    exact ⟨_, rfl⟩

theorem endOf_status (i : Instr) (r : State × Flow) : ∃ w, endOf i r = { r.1 with status := w } := by
  rcases endOf_mem_endStages i r with h | h
  · exact ⟨r.1.status, h⟩
  · exact endStages_status h

/-- A relation that one register write, one transmission and a write of STATUS meet holds from each stage of an instruction
to each later one, and to the end. -/
theorem stages_relate {R : State → State → Prop} (refl : ∀ s, R s s) (trans : ∀ {s t u}, R s t → R t u → R s u)
    (line : ∀ u s, R s (Update.apply u s)) (send : ∀ p s, R s (Machine.send p s).1)
    (status : ∀ s w, R s { s with status := w }) (i : Instr) (s : State) :
    (stages i s).Pairwise R ∧ ∀ v ∈ stages i s, R v (endOf i ((bodyOf i).run (bodyStart i s))) := by
  obtain ⟨hrun, hway, hpair⟩ := Prog.relates refl trans line send (bodyOf i) (bodyStart i s)
  rw [stages_cons]
  generalize (bodyOf i).run (bodyStart i s) = r at hrun hway ⊢
  have hlast : ∀ v ∈ endStages i.isHostCommand r, R r.1 v := fun v hv => by
    obtain ⟨w, rfl⟩ := endStages_status hv
    exact status _ w
  have hend : R r.1 (endOf i r) := by
    obtain ⟨w, h⟩ := endOf_status i r
    exact h ▸ status _ w
  have hlastPair : (endStages i.isHostCommand r).Pairwise R := by
    obtain ⟨t, _ | _ | _⟩ := r
    case done => cases i.isHostCommand <;> simp [endStages]
    case abandoned => exact List.pairwise_pair.2 (status (t.setFlag .be) _)
    case waiting => simp [endStages]
  have hlastEnd : ∀ v ∈ endStages i.isHostCommand r, R v (endOf i r) := fun v hv => by
    obtain ⟨w, rfl⟩ := endStages_status hv
    obtain ⟨w', h⟩ := endOf_status i r
    exact h ▸ status { r.1 with status := w } w'
  refine ⟨List.pairwise_cons.2 ⟨fun v hv => ?_, List.pairwise_append.2 ⟨hpair, hlastPair, fun v hv w hw => ?_⟩⟩,
    fun v hv => ?_⟩
  · rcases List.mem_append.1 hv with hv | hv
    · exact (hway v hv).1
    · exact trans hrun (hlast v hv)
  · exact trans (hway v hv).2 (hlast w hw)
  · rcases List.mem_cons.1 hv with rfl | hv
    · exact trans hrun hend
    · rcases List.mem_append.1 hv with hv | hv
      · exact trans (hway v hv).2 hend
      · exact hlastEnd v hv

theorem Passes.status (s : State) (w : Byte) : Passes s { s with status := w } :=
  ⟨rfl, rfl, rfl, rfl, rfl, rfl, List.prefix_rfl, List.prefix_rfl⟩

/-- Settles O40: every line only adds to the traces, and so does every run of lines from one stage to a later one. -/
theorem stagesOnlyAddToTraces : Obligations.StagesOnlyAddToTraces := by
  unfold Obligations.StagesOnlyAddToTraces
  intro i s
  have hpasses := (stages_relate Passes.refl Passes.trans Passes.line Passes.send Passes.status i s).1
  exact hpasses.imp fun h => ⟨h.wtrace, h.ttrace⟩

/-! ### Steps that do not go on with an operation -/

/-- Wherever an instruction stands, the traces and the read log are those of its start and more. -/
theorem goOn_extends {i : Instr} {t u : State} (limit : Option Nat) (hu : exec i t = .next u) :
    t.wtrace <+: (goOn i limit t u).wtrace ∧ t.ttrace <+: (goOn i limit t u).ttrace ∧
      t.readLog <+: (goOn i limit t u).readLog := by
  obtain ⟨v, q, h, hv, -⟩ := goOn_reaches limit hu
  have hpass := hv.passes
  rw [h]
  exact ⟨hpass.wtrace, hpass.ttrace, by rw [hpass.readLog]⟩

theorem hostRead_ne_run (a : Nat) (s : State) (i : Instr) (limit : Option Nat) (t : State) :
    hostRead a s ≠ .run i limit t := by
  unfold hostRead
  split <;> nofun

/-- While a transmission is unanswered nothing runs but by an answer (spec/70_reset_and_hazards.md R190). -/
theorem nextEvent_waiting_ne_run {s : State} (hf : s.inFlight ≠ none) (hh : ∀ a after, s.host ≠ .answer a :: after)
    (i : Instr) (limit : Option Nat) (t : State) : nextEvent s ≠ .run i limit t := by
  rw [nextEvent_waiting hf, busyEvent]
  split
  case h_3 => exact hostRead_ne_run _ _ _ _ _
  case h_5 a after h => exact absurd h (hh a after)
  all_goals nofun

/-- With an operation in progress the reset input runs nothing (spec/70_reset_and_hazards.md R181). -/
theorem nextEvent_reset_ne_run {s : State} (hr : s.running ≠ none) {after : List HostAction}
    (hh : s.host = .reset :: after) (i : Instr) (limit : Option Nat) (t : State) : nextEvent s ≠ .run i limit t := by
  by_cases hf : s.inFlight = none
  · obtain ⟨r, hr⟩ := Option.ne_none_iff_exists'.1 hr
    simp [nextEvent_betweenLines hf hr, betweenLinesEvent, hh]
  · exact nextEvent_waiting_ne_run hf (by simp [hh]) i limit t

/-- Settles O51: what starts only adds to the traces, what is done at the ports keeps them, and the operation in progress
does not go on at a read, at a reset, or without the answer it waits for. -/
theorem stepExtendsTraces : Obligations.StepExtendsTraces := by
  unfold Obligations.StepExtendsTraces
  intro s t hs hstep
  rcases nextEvent_cases s with ⟨i, l, more, h, -, -, -, he⟩ | ⟨i, l, h, -, -, -, -, he⟩ | ⟨h, he⟩ | ⟨h, he⟩ |
    ⟨h, a, v, -, he⟩ | ⟨h, received, -, -, -, -, -, he⟩ | ⟨r, late, h, hr, -, he⟩ | ⟨f, he⟩ | ⟨f, he⟩
  · obtain ⟨u, hu, rfl⟩ := step_of_run he hstep
    exact goOn_extends l hu
  · obtain ⟨u, hu, rfl⟩ := step_of_run he hstep
    exact goOn_extends l hu
  · rw [eq_of_settle he hstep]
    exact ⟨List.prefix_rfl, List.prefix_rfl, List.prefix_rfl⟩
  · rw [eq_of_settle he hstep]
    exact ⟨List.prefix_rfl, List.prefix_rfl, List.prefix_rfl⟩
  · rw [eq_of_settle he hstep]
    exact ⟨List.prefix_rfl, List.prefix_rfl, List.prefix_append _ _⟩
  · rw [eq_of_settle he hstep]
    exact ⟨List.prefix_rfl, List.prefix_rfl, List.prefix_rfl⟩
  · exfalso
    have hrun : s.running ≠ none := by simp [hr]
    rcases hs with hs | ⟨hf, hh⟩ | ⟨a, after, hh⟩ | ⟨after, hh⟩
    · exact hrun hs
    · exact nextEvent_waiting_ne_run hf hh _ _ _ he
    · exact hostRead_ne_run _ _ _ _ _ ((nextEvent_readReg hh (.inr (.inr hrun))).symm.trans he)
    · exact nextEvent_reset_ne_run hrun hh _ _ _ he
  · simp [step, he] at hstep
  · simp [step, he] at hstep

end Sys2Proof.Machine
end

section
/-! PROOFS, late answers: an operation that waited goes on from its start with the answers it has had, so it ends as with a
prompt answer, and it only adds to what it had sent. -/

namespace Sys2Proof.Machine

/-! ### The operation in progress, run again from its start -/

/-- What an operation in progress goes on from: its start, with what the host reads there, and with the answers it has had,
the late one, and those still to come (notes/assumptions/5.md, 6.md). -/
theorem replay_startedIn {i : Instr} {s v : State} (hf : s.inFlight = none) (hr : s.running = none) (hv : Passes s v)
    (n : Nat) (q : Option Running) (late : List BusAnswer) (next : List HostAction) (reads : List (Nat × Byte)) :
    State.replay (startedIn i s n) late { v with running := q, host := next, readLog := reads } =
      { s with
        host := next
        readLog := reads
        answers := (v.wtrace.drop s.wtrace.length).map Prod.snd ++ late ++ v.answers
        draws := v.draws } := by
  have ht : v.ttrace.take s.ttrace.length = s.ttrace := (List.prefix_iff_eq_take.1 hv.ttrace).symm
  have hw : v.wtrace.take s.wtrace.length = s.wtrace := (List.prefix_iff_eq_take.1 hv.wtrace).symm
  simp [State.replay, startedIn, hv.cfg, hv.rx, hv.pending, ht, hw, hf, hr]

/-! ### Late answers -/

theorem bodyStart_answers (i : Instr) (s : State) : (bodyStart i s).answers = s.answers ∧
    (bodyStart i s).draws = s.draws ∧ (bodyStart i s).wtrace = s.wtrace ∧ (bodyStart i s).inFlight = s.inFlight := by
  unfold bodyStart
  split <;> exact ⟨rfl, rfl, rfl, rfl⟩

/-- An answer resumes the operation that waits for it (spec/20_memory.md R44). -/
theorem nextEvent_answer {s : State} {r : Running} {a : BusAnswer} {after : List HostAction} (hf : s.inFlight ≠ none)
    (hr : s.running = some r) (hh : s.host = .answer a :: after) :
    nextEvent s = resumeRun r [a] { s with host := after } := by
  rw [nextEvent_waiting hf]
  simp only [busyEvent, hh, lateAnswer, hr]

/-- An instruction that waits after the scripted answers up to a silence has had those before it, and drew none. -/
structure WaitsAfter (past : List BusAnswer) (i : Instr) (s u : State) : Prop where
  flow : ((bodyOf i).run (bodyStart i s)).2 = .waiting
  noSilence : BusAnswer.silent ∉ past
  had : (u.wtrace.drop s.wtrace.length).map Prod.snd = past
  draws : u.draws = s.draws

theorem exec_waitsAfter {i : Instr} {s u : State} {past rest : List BusAnswer} (hf : s.inFlight = none)
    (ha : s.answers = past ++ .silent :: rest) (hu : exec i s = .next u) (hw : u.inFlight ≠ none)
    (hrest : u.answers = rest) : WaitsAfter past i s u := by
  obtain rfl := Host.Outcome.next.inj ((exec_eq i s).symm.trans hu)
  obtain ⟨hanswers, hdraws, hwtrace, hflight⟩ := bodyStart_answers i s
  have hended := ((bodyOf i).answered_on_the_way (bodyStart i s) (hflight.trans hf)).1
  obtain ⟨es, xs, hsent, -, hsilent, htaken⟩ := recorded_run (bodyOf i) (bodyStart i s)
  obtain ⟨w, hend⟩ := endOf_status i ((bodyOf i).run (bodyStart i s))
  subst hrest
  rw [hend] at hw ha ⊢
  have hflow : ((bodyOf i).run (bodyStart i s)).2 = .waiting := by_contra fun h => hw (hended h)
  rw [hflow, hanswers, hdraws, ha] at htaken
  rw [hwtrace] at hsent
  rcases htaken with ⟨hd, htaken⟩ | ⟨-, hprefix⟩
  · have hpast : past = es.map Prod.snd := by simpa [tailOf] using htaken
    exact ⟨hflow, hpast ▸ hsilent, by simp [hsent, hpast], hd⟩
  · exact absurd (hprefix.subset (by simp)) hsilent

/-- What an operation that waited goes on from is its start, with the late answer in the place of the silence. -/
theorem replay_waiting {i : Instr} {s u : State} {past rest : List BusAnswer} (hf : s.inFlight = none)
    (hr : s.running = none) (hpass : Passes s u) (hwaits : WaitsAfter past i s u) (hrest : u.answers = rest) (n : Nat)
    (q : Option Running) (a : BusAnswer) (next : List HostAction) :
    State.replay (startedIn i s n) [a] { u with running := q, host := next, readLog := u.readLog } =
      { s with answers := past ++ a :: rest, host := next } := by
  rw [replay_startedIn hf hr hpass, hwaits.had, hwaits.draws, hrest, hpass.readLog, List.append_assoc]
  rfl

/-- Settles O45: an answer makes the operation run again from its start, with the answer in the place of the silence. -/
theorem lateAnswerActsAsPrompt : Obligations.LateAnswerActsAsPrompt := by
  unfold Obligations.LateAnswerActsAsPrompt
  rintro s t u i past rest a after hf hr ha hu hw hrest rfl
  have hstart := replay_waiting hf hr (exec_reaches hu).passes (exec_waitsAfter hf ha hu hw hrest) hrest
    ((stages i s).length - 1) (some (startedIn i s ((stages i s).length - 1))) a (takeElapse after).2
  have hevent := nextEvent_answer (s := { u with
    running := some (startedIn i s ((stages i s).length - 1))
    host := .answer a :: after }) hw rfl rfl
  rw [noteRunning_waits hw]
  exact ⟨_, exec_eq i _, step_run (hevent.trans (congrArg (Event.run i _) hstart)) (exec_eq i _)⟩

/-- `t` is `s` with the answer `a` in the place of its first silence. -/
def AnsweredLate (a : BusAnswer) (s t : State) : Prop := ∃ past rest, BusAnswer.silent ∉ past ∧
  s.answers = past ++ .silent :: rest ∧ t = { s with answers := past ++ a :: rest }

/-- Two results of a piece: ended alike, and the silence is still to come; or the one waits, and the other has gone on. -/
def SameOrLater (a : BusAnswer) (r q : State × Flow) : Prop :=
  (r.2 ≠ .waiting ∧ q.2 = r.2 ∧ AnsweredLate a r.1 q.1) ∨ (r.2 = .waiting ∧ Passes r.1 q.1)

theorem Update.apply_answers (u : Update) (s : State) : (u.apply s).answers = s.answers := by cases u <;> rfl

theorem Update.apply_withAnswers (u : Update) (s : State) (l : List BusAnswer) :
    u.apply { s with answers := l } = { u.apply s with answers := l } := by cases u <;> rfl

theorem AnsweredLate.line {a : BusAnswer} {s t : State} (h : AnsweredLate a s t) (u : Update) :
    AnsweredLate a (u.apply s) (u.apply t) := by
  obtain ⟨past, rest, hp, hs, rfl⟩ := h
  exact ⟨past, rest, hp, (u.apply_answers s).trans hs, u.apply_withAnswers s _⟩

theorem AnsweredLate.send {a : BusAnswer} {s t : State} (h : AnsweredLate a s t) (p : Packet) :
    SameOrLater a (Machine.send p s) (Machine.send p t) := by
  obtain ⟨past, rest, hp, hs, rfl⟩ := h
  rcases past with _ | ⟨_ | _ | _, past⟩
  case nil =>
    have hpass := Passes.send p { s with answers := a :: rest }
    rw [send_silent hs]
    exact .inr ⟨rfl, hpass.cfg, hpass.rx, hpass.host, hpass.readLog, hpass.pending, hpass.running, hpass.ttrace,
      hpass.wtrace⟩
  case cons.ok =>
    rw [send_ok (rest := past ++ .silent :: rest) hs, send_ok (rest := past ++ a :: rest) rfl]
    exact .inl ⟨nofun, rfl, past, rest, by simpa using hp, rfl, rfl⟩
  case cons.busError =>
    rw [send_busError (rest := past ++ .silent :: rest) hs, send_busError (rest := past ++ a :: rest) rfl]
    exact .inl ⟨nofun, rfl, past, rest, by simpa using hp, rfl, rfl⟩
  case cons.silent => simp at hp

/-- Until it comes to the silence a piece does the same with the late answer, and then it goes on. -/
theorem AnsweredLate.run {a : BusAnswer} (p : Prog) :
    ∀ {s t : State}, AnsweredLate a s t → SameOrLater a (p.run s) (p.run t) := by
  induction p with
  | skip => exact fun h => .inl ⟨nofun, rfl, h⟩
  | line u => exact fun h => .inl ⟨nofun, rfl, h.line u⟩
  | send p => exact fun h => h.send p
  | look k ih =>
    intro s t h
    have hview : t.view = s.view := by obtain ⟨past, rest, -, -, rfl⟩ := h; rfl
    rw [Prog.run_look, Prog.run_look, hview]
    exact ih _ h
  | seq b c ihb ihc =>
    intro s t h
    rcases ihb h with ⟨hwait, hflow, hlate⟩ | ⟨hwait, hpass⟩
    · by_cases hd : (b.run s).2 = .done
      · have hs : b.run s = ((b.run s).1, .done) := by rw [← hd]
        have ht : b.run t = ((b.run t).1, .done) := by rw [← hd, ← hflow]
        rw [Prog.run_seq, andThen_done hs, andThen_done ht]
        exact ihc hlate
      · rw [Prog.run_seq_ended hd, Prog.run_seq_ended (hflow ▸ hd)]
        exact .inl ⟨hwait, hflow, hlate⟩
    · rw [Prog.run_seq_ended (a := b) (s := s) (by simp [hwait])]
      refine .inr ⟨hwait, hpass.trans ?_⟩
      by_cases hd : (b.run t).2 = .done
      · have ht : b.run t = ((b.run t).1, .done) := by rw [← hd]
        rw [Prog.run_seq, andThen_done ht]
        exact (c.passes _).1
      · rw [Prog.run_seq_ended hd]
        exact Passes.refl _

theorem AnsweredLate.bodyStart {a : BusAnswer} {s t : State} (h : AnsweredLate a s t) (i : Instr) :
    AnsweredLate a (bodyStart i s) (bodyStart i t) := by
  obtain ⟨past, rest, hp, hs, rfl⟩ := h
  refine ⟨past, rest, hp, (bodyStart_answers i s).1.trans hs, ?_⟩
  unfold Machine.bodyStart
  split <;> rfl

/-- Settles O46: until the silence the operation does the same with the answer, and from there it only adds. -/
theorem lateAnswerOnlyAdds : Obligations.LateAnswerOnlyAdds := by
  unfold Obligations.LateAnswerOnlyAdds
  intro s u v i past rest a hf ha hu hw hrest hv
  obtain ⟨hflow, hsilent, -, -⟩ := exec_waitsAfter hf ha hu hw hrest
  have hlate : AnsweredLate a s { s with answers := past ++ a :: rest } := ⟨past, rest, hsilent, ha, rfl⟩
  obtain ⟨hne, -⟩ | ⟨-, hpass⟩ := AnsweredLate.run (bodyOf i) (hlate.bodyStart i)
  · exact absurd hflow hne
  · obtain ⟨w, hend⟩ := endOf_status i ((bodyOf i).run (bodyStart i s))
    obtain ⟨w', hend'⟩ := endOf_status i ((bodyOf i).run (bodyStart i { s with answers := past ++ a :: rest }))
    rw [← Host.Outcome.next.inj ((exec_eq i s).symm.trans hu), ← Host.Outcome.next.inj ((exec_eq i _).symm.trans hv),
      hend, hend']
    exact ⟨hpass.wtrace, hpass.ttrace⟩

end Sys2Proof.Machine
end

section
/-! PROOFS, pauses: an operation that stands between two of its lines goes on from its start with the answers it has had, free
ones included, so it comes to where it would have come. -/

namespace Sys2Proof.Machine

/-! ### What the host does and reads -/

/-- The state with other actions of the host to come and other reads noted. -/
def State.atPorts (next : List HostAction) (reads : List (Nat × Byte)) (s : State) : State :=
  { s with host := next, readLog := reads }

theorem send_atPorts (next : List HostAction) (reads : List (Nat × Byte)) (p : Packet) (s : State) :
    Machine.send p (s.atPorts next reads) = ((Machine.send p s).1.atPorts next reads, (Machine.send p s).2) := by
  unfold Machine.send State.answer State.takeAnswer
  cases h : s.answers with
  | nil => cases hb : Config.busAnswer s.draws <;> simp [State.atPorts, h, hb, State.record, State.hold]
  | cons a rest => cases a <;> simp [State.atPorts, h, State.record, State.hold]

/-- No line reads what the host does or has read. -/
theorem Prog.atPorts (next : List HostAction) (reads : List (Nat × Byte)) (p : Prog) : ∀ s : State,
    p.run (s.atPorts next reads) = ((p.run s).1.atPorts next reads, (p.run s).2) ∧
    p.trail (s.atPorts next reads) = (p.trail s).map (State.atPorts next reads) := by
  induction p with
  | skip => exact fun s => ⟨rfl, rfl⟩
  | line u => intro s; cases u <;> exact ⟨rfl, rfl⟩
  | send p =>
    intro s
    rw [Prog.trail_send, Prog.trail_send, Prog.run_send, send_atPorts]
    exact ⟨rfl, by split <;> rfl⟩
  | look k ih => exact fun s => ih _ s
  | seq a b iha ihb =>
    intro s
    obtain ⟨hr, ht⟩ := iha s
    by_cases h : (a.run s).2 = .done
    · have hs : a.run s = ((a.run s).1, .done) := by rw [← h]
      rw [h] at hr
      obtain ⟨kr, kt⟩ := ihb (a.run s).1
      rw [Prog.trail_seq_done hs, Prog.trail_seq_done hr, Prog.run_seq, andThen_done hs, andThen_done hr, ht, kt,
        List.map_append]
      exact ⟨kr, rfl⟩
    · have h' : (a.run (s.atPorts next reads)).2 ≠ .done := by rw [hr]; exact h
      rw [Prog.trail_seq_ended h, Prog.trail_seq_ended h', Prog.run_seq_ended h, Prog.run_seq_ended h']
      exact ⟨hr, ht⟩

theorem stages_atPorts (next : List HostAction) (reads : List (Nat × Byte)) (i : Instr) (s : State) :
    stages i (s.atPorts next reads) = (stages i s).map (State.atPorts next reads) := by
  have hstart : bodyStart i (s.atPorts next reads) = (bodyStart i s).atPorts next reads := by
    unfold bodyStart; split <;> rfl
  have hlast : ∀ r : State × Flow, endStages i.isHostCommand (r.1.atPorts next reads, r.2) =
      (endStages i.isHostCommand r).map (State.atPorts next reads) := by
    rintro ⟨t, _ | _ | _⟩ <;> cases i.isHostCommand <;> rfl
  obtain ⟨hr, ht⟩ := Prog.atPorts next reads (bodyOf i) (bodyStart i s)
  rw [stages_cons, stages_cons, hstart, hr, ht, hlast, List.map_cons, List.map_append]

/-! ### Free answers and the stages -/

/-- The next `k` free answers from a counter on (spec/20_memory.md R45). -/
def freeAnswers (d k : Nat) : List BusAnswer := (List.range k).map fun j => Config.busAnswer (d + j)

theorem freeAnswers_add (d k m : Nat) : freeAnswers d (k + m) = freeAnswers d k ++ freeAnswers (d + k) m := by
  simp [freeAnswers, List.range_add, Nat.add_assoc]

theorem foresee_eq (k : Nat) (s : State) :
    s.foresee k = { s with answers := s.answers ++ freeAnswers s.draws k, draws := s.draws + k } := rfl

/-- The answers recorded from `s` to `t`, and those still scripted, are those scripted in `s` and those drawn since. -/
def Took (s t : State) : Prop := ∃ (es : List (Packet × BusAnswer)) (k : Nat), t.wtrace = s.wtrace ++ es ∧
  t.draws = s.draws + k ∧ es.map Prod.snd ++ t.answers = s.answers ++ freeAnswers s.draws k

theorem Took.refl (s : State) : Took s s := ⟨[], 0, by simp, rfl, by simp [freeAnswers]⟩

theorem Took.trans {s t u : State} (h : Took s t) (k : Took t u) : Took s u := by
  obtain ⟨es, m, hw, hd, ha⟩ := h
  obtain ⟨fs, n, kw, kd, ka⟩ := k
  refine ⟨es ++ fs, m + n, by rw [kw, hw, List.append_assoc], by rw [kd, hd, Nat.add_assoc], ?_⟩
  rw [List.map_append, List.append_assoc, ka, ← List.append_assoc, ha, hd, freeAnswers_add, List.append_assoc]

theorem takeAnswer_took (s : State) : ∃ k, s.takeAnswer.draws = s.draws + k ∧
    s.answer :: s.takeAnswer.answers = s.answers ++ freeAnswers s.draws k := by
  unfold State.answer State.takeAnswer
  cases h : s.answers with
  | nil => exact ⟨1, rfl, by simp [freeAnswers]⟩
  | cons a rest => exact ⟨0, rfl, by simp [freeAnswers]⟩

theorem send_took (p : Packet) (s : State) (h : (Machine.send p s).2 ≠ .waiting) : Took s (Machine.send p s).1 := by
  obtain ⟨k, hd, ha⟩ := takeAnswer_took s
  revert h
  unfold Machine.send
  split
  case h_1 hok => exact fun _ => ⟨[(p, .ok)], k, by simp, hd, by simpa [hok] using ha⟩
  case h_2 hbad => exact fun _ => ⟨[(p, .busError)], k, by simp, hd, by simpa [hbad] using ha⟩
  case h_3 => exact fun h => absurd rfl h

/-- A transmission that is answered is recorded, so on its way a piece records all that it takes. -/
theorem Prog.took (p : Prog) : ∀ s : State,
    ((p.run s).2 ≠ .waiting → Took s (p.run s).1) ∧ ∀ v ∈ p.trail s, Took s v := by
  induction p with
  | skip => exact fun s => ⟨fun _ => .refl s, by simp [Prog.trail]⟩
  | line u =>
    intro s
    have h : Took s (u.apply s) := ⟨[], 0, by cases u <;> simp [Update.apply], by cases u <;> rfl,
      by simp [u.apply_answers, freeAnswers]⟩
    exact ⟨fun _ => h, by simpa [Prog.trail] using h⟩
  | send p =>
    intro s
    refine ⟨send_took p s, ?_⟩
    rw [Prog.trail_send]
    split
    · simp
    · simpa using send_took p s ‹_›
  | look k ih => exact fun s => ih _ s
  | seq a b iha ihb =>
    intro s
    obtain ⟨ha, hta⟩ := iha s
    by_cases h : (a.run s).2 = .done
    · have hs : a.run s = ((a.run s).1, .done) := by rw [← h]
      have hdone := ha (by simp [h])
      obtain ⟨hb, htb⟩ := ihb (a.run s).1
      rw [Prog.trail_seq_done hs, Prog.run_seq, andThen_done hs]
      refine ⟨fun hw => hdone.trans (hb hw), fun v hv => ?_⟩
      rcases List.mem_append.1 hv with hv | hv
      · exact hta v hv
      · exact hdone.trans (htb v hv)
    · rw [Prog.trail_seq_ended h, Prog.run_seq_ended h]
      exact ⟨ha, hta⟩

/-- Of the last lines of an instruction only the abort has more than one. -/
theorem mem_endStages_dropLast {host : Bool} {r : State × Flow} {v : State} (h : v ∈ (endStages host r).dropLast) :
    r.2 = .abandoned ∧ v = r.1.setFlag .be := by
  obtain ⟨t, _ | _ | _⟩ := r
  case done => cases host <;> simp [endStages] at h
  case abandoned => exact ⟨rfl, by simpa [endStages] using h⟩
  case waiting => simp [endStages] at h

/-- A stage before the last is the start, a state after a line of the body, or the first line of the abort. -/
theorem mem_stages_dropLast {i : Instr} {s v : State} (h : v ∈ (stages i s).dropLast) :
    v = bodyStart i s ∨ v ∈ (bodyOf i).trail (bodyStart i s) ∨
      ((bodyOf i).run (bodyStart i s)).2 = .abandoned ∧ v = ((bodyOf i).run (bodyStart i s)).1.setFlag .be := by
  rw [stages_cons, ← List.cons_append, List.dropLast_append] at h
  split at h
  · rcases List.mem_cons.1 (List.dropLast_subset _ h) with h | h
    · exact .inl h
    · exact .inr (.inl h)
  · rcases List.mem_append.1 h with h | h
    · exact (List.mem_cons.1 h).imp_right .inl
    · exact .inr (.inr (mem_endStages_dropLast h))

/-- Before its last stage an instruction has recorded all the answers it took, and none is awaited. -/
theorem stage_settled {i : Instr} {s v : State} (hf : s.inFlight = none) (h : v ∈ (stages i s).dropLast) :
    Took s v ∧ v.inFlight = none := by
  obtain ⟨hanswers, hdraws, hwtrace, hflight⟩ := bodyStart_answers i s
  have hstart : Took s (bodyStart i s) := ⟨[], 0, by simp [hwtrace], hdraws, by simp [hanswers, freeAnswers]⟩
  obtain ⟨hrun, htrail⟩ := (bodyOf i).took (bodyStart i s)
  obtain ⟨hended, -, hway⟩ := (bodyOf i).answered_on_the_way (bodyStart i s) (hflight.trans hf)
  rcases mem_stages_dropLast h with rfl | h | ⟨hflow, rfl⟩
  · exact ⟨hstart, hflight.trans hf⟩
  · exact ⟨hstart.trans (htrail v h), hway v h⟩
  · exact ⟨hstart.trans (hrun (by simp [hflow])), hended (by simp [hflow])⟩

/-- Later stages, and the end, have drawn no fewer free answers. -/
theorem stages_draws_mono (i : Instr) (s : State) : (stages i s).Pairwise (fun v w => v.draws ≤ w.draws) ∧
    ∀ v ∈ stages i s, v.draws ≤ (endOf i ((bodyOf i).run (bodyStart i s))).draws :=
  stages_relate (R := fun v w => v.draws ≤ w.draws) (fun _ => Nat.le_refl _) Nat.le_trans
    (fun u s => (draws_mono (.line u) s).1) (fun p s => (draws_mono (.send p) s).1) (fun _ _ => Nat.le_refl _) i s

theorem draws_le_of_mem_drop {i : Instr} {s w : State} {n m : Nat} (hnm : n ≤ m) (hn : n < (stages i s).length)
    (hw : w ∈ (stages i s).drop m) : (stages i s)[n].draws ≤ w.draws := by
  obtain ⟨j, hj, rfl⟩ := List.mem_drop_iff_getElem.1 hw
  rcases Nat.eq_or_lt_of_le (show n ≤ m + j by omega) with h | h
  · simp only [h, Nat.le_refl]
  · exact List.pairwise_iff_getElem.1 (stages_draws_mono i s).1 _ _ hn _ h

theorem bodyStart_foresee (i : Instr) (k : Nat) (s : State) :
    bodyStart i (s.foresee k) = (bodyStart i s).foresee k := by
  unfold bodyStart
  split <;> rfl

theorem stages_foresee (i : Instr) (k : Nat) (s : State) :
    stages i (s.foresee k) = (stages i s).map fun v => v.foresee (k - (v.draws - s.draws)) := by
  obtain ⟨-, hdraws, -, -⟩ := bodyStart_answers i s
  have hlast : ∀ r : State × Flow, endStages i.isHostCommand (r.1.foresee (k - (r.1.draws - s.draws)), r.2) =
      (endStages i.isHostCommand r).map fun v => v.foresee (k - (v.draws - s.draws)) := by
    rintro ⟨t, _ | _ | _⟩ <;> cases i.isHostCommand <;> rfl
  obtain ⟨hr, ht⟩ := (bodyOf i).foresee k (bodyStart i s)
  rw [stages_cons, stages_cons, bodyStart_foresee, hr, ht, hdraws, hlast, List.map_cons, List.map_append, hdraws,
    Nat.sub_self, Nat.sub_zero]

/-- The end of an instruction that draws `k` free answers anyway does not depend on their being drawn beforehand. -/
theorem exec_foresee {i : Instr} {k : Nat} {s u : State} (hu : exec i s = .next u) (hk : k ≤ u.draws - s.draws) :
    exec i (s.foresee k) = .next u := by
  obtain ⟨-, hdraws, -, -⟩ := bodyStart_answers i s
  obtain rfl := Host.Outcome.next.inj ((exec_eq i s).symm.trans hu)
  obtain ⟨w, hend⟩ := endOf_status i ((bodyOf i).run (bodyStart i s))
  rw [exec_eq, bodyStart_foresee, ((bodyOf i).foresee k (bodyStart i s)).1, hdraws]
  rw [hend] at hk
  rw [Nat.sub_eq_zero_of_le hk, foresee_zero]

/-- What goes on stands where it stands whatever it started from, if the stages to come and what is noted are the same. -/
theorem goOn_congr {i : Instr} {limit : Option Nat} {t t' : State} (u : State)
    (hlen : (stages i t').length = (stages i t).length) (hstart : ∀ n, startedIn i t' n = startedIn i t n)
    (hdrop : ∀ n, limit = some n → (stages i t').drop n = (stages i t).drop n) :
    goOn i limit t' u = goOn i limit t u := by
  have hnote : noteRunning i t' u = noteRunning i t u := by simp only [noteRunning, hlen, hstart]
  cases limit with
  | none => exact hnote
  | some n => simp only [goOn, hdrop n rfl, hnote, hstart]

/-- What goes on beyond a stage by which the foreseen answers have been drawn. -/
theorem goOn_foresee {i : Instr} {n : Nat} {t v : State} (hv : (stages i t)[n]? = some v) (limit : Option Nat) (u : State) :
    goOn i (limit.map (n + ·)) (t.foresee (v.draws - t.draws)) u = goOn i (limit.map (n + ·)) t u := by
  refine goOn_congr u (by simp [stages_foresee]) (fun _ => rfl) fun m hm => ?_
  obtain ⟨l, -, rfl⟩ := Option.map_eq_some_iff.1 hm
  obtain ⟨hlt, rfl⟩ := List.getElem?_eq_some_iff.1 hv
  rw [stages_foresee, ← List.map_drop]
  have hdrawn : ∀ w ∈ (stages i t).drop (n + l),
      w.foresee ((stages i t)[n].draws - t.draws - (w.draws - t.draws)) = w := fun w hw => by
    have hle := draws_le_of_mem_drop (Nat.le_add_right n l) hlt hw
    rw [Nat.sub_eq_zero_of_le (Nat.sub_le_sub_right hle _), foresee_zero]
  rw [List.map_congr_left hdrawn, List.map_id']

/-! ### Going on after a pause -/

/-- An operation between two of its lines goes on, when nothing is done at the ports before (spec/70_reset_and_hazards.md R195). -/
theorem nextEvent_resumes {s : State} {r : Running} (hf : s.inFlight = none) (hr : s.running = some r)
    (hh : s.host = [] ∨ ∃ m after, s.host = .elapse m :: after) : nextEvent s = resumeRun r [] s := by
  rw [nextEvent_betweenLines hf hr, betweenLinesEvent]
  obtain hh | ⟨m, after, hh⟩ := hh <;> simp only [hh]

/-- What an operation that stands at a stage goes on from is its start, with the free answers drawn since foreseen. -/
theorem replay_paused {i : Instr} {s v : State} (hf : s.inFlight = none) (hr : s.running = none)
    (hv : v ∈ (stages i s).dropLast) (n : Nat) (q : Option Running) (next : List HostAction) (reads : List (Nat × Byte)) :
    State.replay (startedIn i s n) [] { v with running := q, host := next, readLog := reads } =
      (s.atPorts next reads).foresee (v.draws - s.draws) := by
  obtain ⟨⟨es, k, hw, hd, ha⟩, -⟩ := stage_settled hf hv
  rw [replay_startedIn hf hr (stages_pass i s (List.dropLast_subset _ hv)), foresee_eq, hw, List.drop_left,
    List.append_nil, ha, hd, Nat.add_sub_cancel_left]
  rfl

/-- Settles O41: an operation that stood at a stage runs again from its start with the answers it has had, and so to where
it would have come; a free answer it has drawn it finds foreseen. -/
theorem pauseChangesNothing : Obligations.PauseChangesNothing := by
  unfold Obligations.PauseChangesNothing
  rintro i s t v n next reads hf hr hv hn hnext rfl
  have hmem := mem_dropLast_of_getElem? hv hn
  have hevent := nextEvent_resumes (s := { v with running := some (startedIn i s n), host := next, readLog := reads })
    (stage_settled hf hmem).2 rfl hnext
  have hstart := replay_paused hf hr hmem n (some (startedIn i s n)) (takeElapse next).2 reads
  have hv' : (stages i (s.atPorts (takeElapse next).2 reads))[n]? = some (v.atPorts (takeElapse next).2 reads) := by
    rw [stages_atPorts, List.getElem?_map, hv]; rfl
  have hend := (stages_draws_mono i _).2 _ (List.mem_of_getElem? hv')
  have hexec := exec_foresee (k := v.draws - s.draws) (exec_eq i (s.atPorts (takeElapse next).2 reads))
    (Nat.sub_le_sub_right hend _)
  refine ⟨_, exec_eq i _, ?_⟩
  rw [step_run (hevent.trans (congrArg (Event.run i _) hstart)) hexec]
  exact congrArg _ (goOn_foresee hv' _ _)

end Sys2Proof.Machine
end

section
/-! PROOFS, the host command stream and the wire packet: decoder and encoder undo each other. -/

namespace Sys2Proof

/-! ### What each operand format reads -/

theorem decodeH1_eq_ok_iff {make : Byte → Instr} {bytes rest : List Byte} {i : Instr} :
    decodeH1 make bytes = .ok (i, rest) ↔ ∃ a, i = make a ∧ bytes = a :: rest := by
  cases bytes with
  | nil => simp [decodeH1]
  | cons a bytes =>
    simp only [decodeH1, Except.ok.injEq, Prod.mk.injEq, List.cons.injEq]
    exact ⟨fun ⟨hi, hr⟩ => ⟨a, hi.symm, rfl, hr⟩, fun ⟨_, hi, ha, hr⟩ => ⟨ha ▸ hi.symm, hr⟩⟩

theorem decodeH2_eq_ok_iff {make : Byte → Byte → Instr} {bytes rest : List Byte} {i : Instr} :
    decodeH2 make bytes = .ok (i, rest) ↔ ∃ a b, i = make a b ∧ bytes = a :: b :: rest := by
  match bytes with
  | [] => simp [decodeH2]
  | [_] => simp [decodeH2]
  | a :: b :: bytes =>
    simp only [decodeH2, Except.ok.injEq, Prod.mk.injEq, List.cons.injEq]
    exact ⟨fun ⟨hi, hr⟩ => ⟨a, b, hi.symm, rfl, rfl, hr⟩,
      fun ⟨_, _, hi, ha, hb, hr⟩ => ⟨ha ▸ hb ▸ hi.symm, hr⟩⟩

/-- LEN is one byte, so it counts a payload of up to 255 bytes exactly (spec/30_encoding.md R65). -/
theorem decodeHV_eq_ok_iff {make : List Byte → Instr} {bytes rest : List Byte} {i : Instr} :
    decodeHV make bytes = .ok (i, rest) ↔
      ∃ payload, payload.length ≤ 255 ∧ i = make payload ∧
        bytes = BitVec.ofNat 8 payload.length :: (payload ++ rest) := by
  constructor
  · intro h
    cases bytes with
    | nil => simp [decodeHV] at h
    | cons len bytes =>
      rw [decodeHV] at h
      split at h
      · rename_i hlen
        obtain ⟨rfl, rfl⟩ : make (bytes.take len.toNat) = i ∧ bytes.drop len.toNat = rest := by simpa using h
        have htake : (bytes.take len.toNat).length = len.toNat := List.length_take_of_le hlen
        refine ⟨_, ?_, rfl, ?_⟩
        · rw [htake]
          exact Nat.le_of_lt_succ len.isLt
        · rw [htake, BitVec.ofNat_toNat, BitVec.setWidth_eq, List.take_append_drop]
      · simp at h
  · rintro ⟨payload, hlen, rfl, rfl⟩
    have hback : (BitVec.ofNat 8 payload.length).toNat = payload.length := by simp; omega
    rw [decodeHV, hback, if_pos (by simp), List.take_left, List.drop_left]

/-! ### The opcodes -/

theorem reservedOpcode_iff (op : Byte) : reservedOpcode op = true ↔
    op ≠ 0x01 ∧ op ≠ 0x02 ∧ op ≠ 0x03 ∧ op ≠ 0x04 ∧ op ≠ 0x05 ∧ op ≠ 0x06 ∧ op ≠ 0x07 := by
  simp only [reservedOpcode, Bool.or_eq_true, beq_iff_eq, decide_eq_true_eq]
  bv_omega

/-- A reserved opcode is consumed alone (spec/30_encoding.md R64). -/
theorem decode_reserved {op : Byte} (h : reservedOpcode op = true) (rest : List Byte) :
    decode (op :: rest) = .ok (.reserved op, rest) := by
  obtain ⟨h1, h2, h3, h4, h5, h6, h7⟩ := (reservedOpcode_iff op).1 h
  rw [decode, if_neg h1, if_neg h2, if_neg h3, if_neg h4, if_neg h5, if_neg h6, if_neg h7]

/-! ### The obligations -/

/-- Settles O2, by the format of each host command: fixed bytes, one or two operands, or LEN and its payload. -/
theorem hostCommandDecodeEncode : Obligations.HostCommandDecodeEncode := by
  unfold Obligations.HostCommandDecodeEncode
  intro i rest hhost hwf
  cases i with
  | init | newLine => rfl
  | putChar a | fill a => exact decodeH1_eq_ok_iff.2 ⟨a, rfl, rfl⟩
  | setCursor a b | drawBitmap a b => exact decodeH2_eq_ok_iff.2 ⟨a, b, rfl, rfl⟩
  | print payload => exact decodeHV_eq_ok_iff.2 ⟨payload, of_decide_eq_true hwf, rfl, rfl⟩
  | reserved op => exact decode_reserved hwf rest
  | _ => exact nomatch hhost

/-- Settles O3, by the opcode: each one's format says which bytes were taken. -/
theorem hostCommandEncodeDecode : Obligations.HostCommandEncodeDecode := by
  unfold Obligations.HostCommandEncodeDecode
  intro bytes i rest h
  cases bytes with
  | nil => simp [decode] at h
  | cons op bytes =>
    rw [decode] at h
    split_ifs at h with h1 h2 h3 h4 h5 h6 h7
    · obtain ⟨rfl, rfl⟩ : Instr.init = i ∧ bytes = rest := by simpa using h
      exact ⟨rfl, rfl, h1 ▸ rfl⟩
    · obtain ⟨page, column, rfl, rfl⟩ := decodeH2_eq_ok_iff.1 h
      exact ⟨rfl, rfl, h2 ▸ rfl⟩
    · obtain ⟨rfl, rfl⟩ : Instr.newLine = i ∧ bytes = rest := by simpa using h
      exact ⟨rfl, rfl, h3 ▸ rfl⟩
    · obtain ⟨char, rfl, rfl⟩ := decodeH1_eq_ok_iff.1 h
      exact ⟨rfl, rfl, h4 ▸ rfl⟩
    · obtain ⟨payload, hlen, rfl, rfl⟩ := decodeHV_eq_ok_iff.1 h
      exact ⟨rfl, decide_eq_true hlen, h5 ▸ rfl⟩
    · obtain ⟨pattern, rfl, rfl⟩ := decodeH1_eq_ok_iff.1 h
      exact ⟨rfl, rfl, h6 ▸ rfl⟩
    · obtain ⟨page, column, rfl, rfl⟩ := decodeH2_eq_ok_iff.1 h
      exact ⟨rfl, rfl, h7 ▸ rfl⟩
    · obtain ⟨rfl, rfl⟩ : Instr.reserved op = i ∧ bytes = rest := by simpa using h
      exact ⟨rfl, (reservedOpcode_iff op).2 ⟨h1, h2, h3, h4, h5, h6, h7⟩, rfl⟩

/-- Settles O1: the bytes are the commands' encodings, which decode to them. -/
theorem opcodeMapDecodes : Obligations.OpcodeMapDecodes := by
  unfold Obligations.OpcodeMapDecodes
  have read (i : Instr) := hostCommandDecodeEncode i []
  exact ⟨read .init rfl rfl, read (.setCursor 0x02 0x0A) rfl rfl, read .newLine rfl rfl, read (.putChar 0x41) rfl rfl,
    read (.print [0x41, 0x0A, 0x42]) rfl rfl, read (.fill 0xFF) rfl rfl, read (.drawBitmap 0x01 0x00) rfl rfl,
    read (.reserved 0x00) rfl rfl, read (.reserved 0x08) rfl rfl⟩

/-- Settles O4: the kind is read from the control byte, and the marker is not that of a Command (spec/30_encoding.md R67). -/
theorem packetDecodeEncode : Obligations.PacketDecodeEncode := by
  unfold Obligations.PacketDecodeEncode
  intro marker value hmarker
  exact ⟨rfl, by rw [encodePacket, decodePacket, if_neg hmarker, if_pos rfl]⟩

end Sys2Proof
end

section
/-! PROOFS, the internal rows: packets and transactions run by themselves, and which transactions every instruction issues. -/

namespace Sys2Proof.Machine

/-! ### A packet by itself -/

theorem endMicroOp_done (s : State) : endMicroOp (s, .done) = s := rfl

theorem endMicroOp_abandoned (s : State) :
    endMicroOp (s, .abandoned) = { s with status := (s.status ||| 0x01) &&& 0x7F } := rfl

/-- A packet run by itself and answered ok. -/
theorem microOperation_send_ok (p : Packet) {s : State} {rest : List BusAnswer} (h : s.answers = .ok :: rest) :
    microOperation (.send p) s = .next (s.sent [] [(p, .ok)] rest) := by
  rw [microOperation, Prog.run_send, send_ok h, endMicroOp_done]

/-- A packet run by itself and answered BusError: the abort (spec/60_exceptions.md R152). -/
theorem microOperation_send_busError (p : Packet) {s : State} {rest : List BusAnswer} (h : s.answers = .busError :: rest) :
    microOperation (.send p) s =
      .next { s.sent [] [(p, .busError)] rest with status := (s.status ||| 0x01) &&& 0x7F } := by
  rw [microOperation, Prog.run_send, send_busError h, endMicroOp_abandoned]
  rfl

/-- Settles O8: either row is one transmission of its packet, run by itself. -/
theorem packetCompletesOrAborts : Obligations.PacketCompletesOrAborts := by
  unfold Obligations.PacketCompletesOrAborts
  intro s value rest
  exact ⟨fun h => ⟨microOperation_send_ok _ h, microOperation_send_ok _ h⟩,
    fun h => ⟨microOperation_send_busError _ h, microOperation_send_busError _ h⟩⟩

/-! ### A transaction by itself -/

/-- A transaction run by itself with every packet answered ok (spec/40_framer.md R92). -/
theorem microOperation_write_ok (t : Transaction) {s : State} {rest : List BusAnswer}
    (h : s.answersOk (packetsOf s.cfg t).length rest) :
    microOperation (write t) s = .next (s.sent [t] (answered (packetsOf s.cfg t)) rest) := by
  rw [microOperation, write_ok h, endMicroOp_done]

/-- A Command transaction of two parameters: the address only with `CMD_ADDR_FIRST` (spec/40_framer.md R92). -/
theorem packetsOf_command_pair (g : Config) (address a b : Byte) :
    packetsOf g ⟨.command, address, [a, b]⟩ =
      (if g.cmdAddrFirst then [⟨0x00, address⟩] else []) ++ [⟨0x00, a⟩, ⟨0x00, b⟩] := by
  cases h : g.cmdAddrFirst <;> simp [packetsOf, controlByte, h]

theorem packetsOf_command_pair_length (g : Config) (address a b : Byte) :
    (packetsOf g ⟨.command, address, [a, b]⟩).length = if g.cmdAddrFirst then 3 else 2 := by
  rw [packetsOf_command_pair]
  split <;> rfl

/-- A Command transaction of two parameters run by itself, every packet answered ok. -/
theorem microOperation_write_pair_ok (address a b : Byte) {s : State} {rest : List BusAnswer}
    (h : s.answersOk (if s.cfg.cmdAddrFirst then 3 else 2) rest) :
    microOperation (write ⟨.command, address, [a, b]⟩) s = .next (s.sent [⟨.command, address, [a, b]⟩]
      (answered ((if s.cfg.cmdAddrFirst then [⟨0x00, address⟩] else []) ++ [⟨0x00, a⟩, ⟨0x00, b⟩])) rest) := by
  rw [microOperation_write_ok _ (by rwa [packetsOf_command_pair_length]), packetsOf_command_pair]

/-- Settles O9: each row is one `write` of its transaction. -/
theorem windowAndPixelTransactionsComplete : Obligations.WindowAndPixelTransactionsComplete := by
  unfold Obligations.WindowAndPixelTransactionsComplete
  intro s b rest
  refine ⟨fun h => ⟨microOperation_write_pair_ok _ b _ h, microOperation_write_pair_ok _ b _ h⟩, fun h => ?_⟩
  rw [← packetsOf_pixelData]
  exact microOperation_write_ok (pixelData b) (by rwa [packetsOf_pixelData])

/-- Settles O10: each row is one `write` of the transaction of its own step. -/
theorem initStepTransactionsComplete : Obligations.InitStepTransactionsComplete := by
  unfold Obligations.InitStepTransactionsComplete
  intro s i k rest hrow hok
  have hexec : exec i s = microOperation (write (initTransaction k)) s := by
    simp only [List.mem_cons, Prod.mk.injEq, List.not_mem_nil, or_false] at hrow
    rcases hrow with ⟨rfl, rfl⟩ | ⟨rfl, rfl⟩ | ⟨rfl, rfl⟩ | ⟨rfl, rfl⟩ | ⟨rfl, rfl⟩ | ⟨rfl, rfl⟩ | ⟨rfl, rfl⟩ |
      ⟨rfl, rfl⟩ | ⟨rfl, rfl⟩ | ⟨rfl, rfl⟩ <;> rfl
  rw [hexec]
  exact microOperation_write_ok (initTransaction k) hok

/-! ### Which transactions an instruction issues -/

/-- From `s` to `t` only transactions of a kind were handed to the Framer. -/
def IssuedOnly (may : Transaction → Prop) (s t : State) : Prop := ∃ txs, t.ttrace = s.ttrace ++ txs ∧ ∀ x ∈ txs, may x

theorem send_ttrace (p : Packet) (s : State) : (send p s).1.ttrace = s.ttrace := by
  unfold send
  split <;> simp

theorem send_issuedOnly {may : Transaction → Prop} (p : Packet) (s : State) : IssuedOnly may s (send p s).1 :=
  ⟨[], by rw [send_ttrace, List.append_nil], by simp⟩

theorem write_issuedOnly {may : Transaction → Prop} {t : Transaction} (h : may t) (s : State) :
    IssuedOnly may s ((write t).run s).1 := by
  obtain ⟨txs, htrace, hmay, -⟩ := (write_effect (may := fun _ => may) (s := s) h 0).wire
  exact ⟨txs, htrace, hmay⟩

/-- An internal row issues its own transaction, a packet none (spec/30_encoding.md R69, spec/40_framer.md R92). -/
theorem internalBody_issuedOnly {i : Instr} (hi : i.isHostCommand = false) (s : State) :
    IssuedOnly (issues s.cfg i) s ((bodyOf i).run s).1 := by
  cases i with
  | write | txColumnWindow | txPageWindow | txPixelData => refine write_issuedOnly ?_ s; rfl
  | pktCommand | pktData => exact send_issuedOnly _ s
  | txInit01 | txInit02 | txInit03 | txInit04 | txInit05 | txInit06 | txInit07 | txInit08 | txInit09 | txInit10 =>
    exact write_issuedOnly ⟨_, by simp [InitSeq.steps], rfl⟩ s
  | _ => exact nomatch hi

/-- Settles O53: a host operation's body issues what its effect allows, an internal row its own transaction. -/
theorem transactionsHaveProducedShapes : Obligations.TransactionsHaveProducedShapes := by
  unfold Obligations.TransactionsHaveProducedShapes
  intro i s t hexec
  cases hi : i.isHostCommand
  case true =>
    obtain ⟨r, hr, heffect⟩ := exec_host hi s
    obtain rfl : endOperation r = t := Host.Outcome.next.inj (hr.symm.trans hexec)
    obtain ⟨hcfg, -, -, -, -, htrace, -⟩ := startOf_fields i s
    obtain ⟨txs, hissued, hmay, -⟩ := heffect.wire
    exact ⟨txs, by rw [endOperation_ttrace, hissued, htrace], by rwa [hcfg] at hmay⟩
  case false =>
    obtain rfl := Host.Outcome.next.inj ((exec_eq i s).symm.trans hexec)
    obtain ⟨w, hend⟩ := endOf_status i ((bodyOf i).run (bodyStart i s))
    rw [hend, bodyStart, hi]
    exact internalBody_issuedOnly hi s

/-! ### The instruction that a step runs -/

/-- A step that starts an instruction is its meaning, but for noting where the operation in progress stands. -/
theorem step_startRun {s t v : State} {i : Instr} (hevent : nextEvent s = startRun i v) (hrun : v.running = none)
    (ht : t = { v with host := (takeElapse v.host).2 }) :
    ∃ u, exec i t = .next u ∧ step s = .next (goOn i (takeElapse v.host).1 t u) ∧
      ((takeElapse v.host).1 = none → u.inFlight = none → step s = exec i t) := by
  subst ht
  obtain ⟨u, hu⟩ : ∃ u, exec i { v with host := (takeElapse v.host).2 } = .next u := ⟨_, exec_eq i _⟩
  have hstep := step_run hevent hu
  refine ⟨u, hu, hstep, fun hlimit hended => ?_⟩
  have hidle : u.running = none := (exec_reaches hu).passes.running.trans hrun
  rw [hstep, hlimit, goOn_none, noteRunning_ended hended, hu, ← hidle]

/-- Settles O36: a command that is complete, or a micro-operation that is presented, is what the step starts. -/
theorem stepRunsDecodedInstruction : Obligations.StepRunsDecodedInstruction := by
  unfold Obligations.StepRunsDecodedInstruction
  refine ⟨fun s t i bytes after hflight hrun hpending hbytes hhost hdecode ht => ?_,
    fun s t i more hflight hrun hpending ht => ?_⟩
  · have hevent := (nextEvent_idle hflight hrun hpending).trans
      ((idleEvent_bytes hbytes hhost).trans (fetchCommand_complete hhost hdecode))
    exact step_startRun hevent hrun ht
  · exact step_startRun (v := { s with pending := more }) (nextEvent_pending hflight hrun hpending) hrun ht

end Sys2Proof.Machine
end

section
/-! PROOFS, the Framer: the packets of a transaction, how many they are, how `write` sends them, and what the internal rows
leave alone. -/

namespace Sys2Proof.Machine

/-! ### The packets of a transaction -/

/-- The packets as spec/40_framer.md R92 gives them: the address by itself, or each parameter by itself, after the address
only with `CMD_ADDR_FIRST` and for a Command. -/
theorem packetsOf_eq (g : Config) (kind : Kind) (address : Byte) (parameters : List Byte) :
    packetsOf g ⟨kind, address, parameters⟩ =
      if parameters = [] then [⟨controlByte g kind, address⟩]
      else (if g.cmdAddrFirst = true ∧ kind = .command then [⟨controlByte g kind, address⟩] else []) ++
        parameters.map fun v => ⟨controlByte g kind, v⟩ := by
  cases parameters with
  | nil => rfl
  | cons v vs => simp [packetsOf]

theorem control_of_mem_packetsOf {g : Config} {t : Transaction} {p : Packet} (h : p ∈ packetsOf g t) :
    p.control = controlByte g t.kind := by
  obtain ⟨kind, address, parameters⟩ := t
  rw [packetsOf_eq] at h
  split at h
  case isTrue => rw [List.mem_singleton.1 h]
  case isFalse =>
    rcases List.mem_append.1 h with h | h
    · obtain ⟨-, h⟩ := List.mem_ite_nil_right.1 h
      rw [List.mem_singleton.1 h]
    · obtain ⟨v, -, rfl⟩ := List.mem_map.1 h
      rfl

/-- Settles O5: each packet, of the address or of a parameter, is made with the control byte of the kind. -/
theorem controlByteOfEveryPacket : Obligations.ControlByteOfEveryPacket := by
  unfold Obligations.ControlByteOfEveryPacket
  intro g t p hp
  rw [control_of_mem_packetsOf hp]
  rfl

/-! ### How many they are -/

/-- The count of spec/40_framer.md R93: no parameter is one packet, the address. -/
theorem packetsOf_length (g : Config) (kind : Kind) (address : Byte) (parameters : List Byte) :
    (packetsOf g ⟨kind, address, parameters⟩).length = max 1 parameters.length +
      if g.cmdAddrFirst = true ∧ kind = .command ∧ 1 ≤ parameters.length then 1 else 0 := by
  rw [packetsOf_eq]
  cases parameters with
  | nil => simp
  | cons v vs =>
    by_cases h : g.cmdAddrFirst = true ∧ kind = .command
    · simp [h, Nat.add_comm]
    · simp [h]

/-- Settles O6: with every answer ok there is one transmission a packet. -/
theorem transmissionCount : Obligations.TransmissionCount := by
  unfold Obligations.TransmissionCount
  refine ⟨rfl, fun s kind address parameters rest hok => ?_⟩
  rw [← packetsOf_length s.cfg kind address parameters] at hok ⊢
  exact ⟨_, microOperation_write_ok _ hok, rfl, by simp [State.sent, answered]⟩

/-! ### How they are sent -/

/-- A transaction run by itself whose packet `n` fails: the abort (spec/60_exceptions.md R152). -/
theorem microOperation_write_fails {t : Transaction} {s : State} {n : Nat} {rest : List BusAnswer}
    (hn : n < (packetsOf s.cfg t).length) (h : s.failsAt n rest) :
    microOperation (write t) s = .next { s.sent [t] (failedAt (packetsOf s.cfg t) n) rest with
      status := (s.status ||| 0x01) &&& 0x7F } := by
  rw [microOperation, write_fails hn h, endMicroOp_abandoned]
  rfl

/-- Settles O7: the row is one `write` of its transaction, run by itself. -/
theorem writeSendsItsPackets : Obligations.WriteSendsItsPackets := by
  unfold Obligations.WriteSendsItsPackets
  refine ⟨fun s kind address parameters rest control packets hcontrol hpackets hok => ?_,
    fun s kind address parameters n rest hn hfails => microOperation_write_fails hn hfails⟩
  obtain rfl : packets = packetsOf s.cfg ⟨kind, address, parameters⟩ := by
    rw [hpackets, hcontrol, packetsOf_eq]
    rfl
  exact microOperation_write_ok _ hok

/-! ### What the internal rows leave alone -/

/-- A piece that waits leaves its packet in flight, whatever was in flight before (spec/70_reset_and_hazards.md R190). -/
theorem Prog.inFlight_of_waiting (p : Prog) :
    ∀ s : State, (p.run s).2 = .waiting → (p.run s).1.inFlight ≠ none := by
  have hcomposes : Composes fun _ r => r.2 = Flow.waiting → r.1.inFlight ≠ none := ⟨nofun, fun _ h => h⟩
  induction p with
  | skip => exact nofun
  | line u => exact nofun
  | send p =>
    intro s
    rw [Prog.run_send]
    unfold Machine.send
    split <;> simp
  | look k ih => exact fun s => ih s.view s
  | seq a b iha ihb => exact fun s => hcomposes.andThen (iha s) fun t _ => ihb t

/-- An internal row is the Framer's `write` or one transmission, which write no engine register (spec/40_framer.md R90). -/
theorem internalBody_frame {i : Instr} (hi : i.isHostCommand = false) (s : State) :
    Frame s ((bodyOf i).run s).1 ∧ SameRegisters s ((bodyOf i).run s).1 := by
  cases i with
  | pktCommand | pktData => exact send_frame _ s
  | write | txColumnWindow | txPageWindow | txPixelData => exact write_frame _ s
  | txInit01 | txInit02 | txInit03 | txInit04 | txInit05 | txInit06 | txInit07 | txInit08 | txInit09 | txInit10 =>
    exact write_frame _ s
  | _ => exact nomatch hi

/-- An internal row is its body from the state it is run in, and then its end (notes/assumptions/11.md). -/
theorem exec_internal_eq {i : Instr} (hi : i.isHostCommand = false) (s : State) :
    exec i s = .next (endMicroOp ((bodyOf i).run s)) := by
  rw [exec_eq, endOf, bodyStart, hi]
  rfl

theorem endMicroOp_waiting (s : State) : endMicroOp (s, .waiting) = { s with status := s.status ||| 0x80 } := rfl

/-- The end of a micro-operation changes STATUS alone: by the abort, or by BUSY while a packet is in flight. -/
theorem endMicroOp_writes_status {r : State × Flow} (hwaiting : r.2 = .waiting → r.1.inFlight ≠ none) :
    ∃ v, endMicroOp r = { r.1 with status := v } ∧ (v = r.1.status ∨ v = (r.1.status ||| 0x01) &&& 0x7F ∨
      (r.1.inFlight ≠ none ∧ v = r.1.status ||| 0x80)) := by
  obtain ⟨t, _ | _ | _⟩ := r
  case done => exact ⟨_, endMicroOp_done t, .inl rfl⟩
  case abandoned => exact ⟨_, endMicroOp_abandoned t, .inr (.inl rfl)⟩
  case waiting => exact ⟨_, endMicroOp_waiting t, .inr (.inr ⟨hwaiting rfl, rfl⟩)⟩

/-- Settles O11: the body leaves every field but the traces and the bus alone, and its end writes STATUS alone. -/
theorem framerRowsFrame : Obligations.FramerRowsFrame := by
  unfold Obligations.FramerRowsFrame
  intro i s t hi hexec
  obtain rfl := Host.Outcome.next.inj ((exec_internal_eq hi s).symm.trans hexec)
  obtain ⟨⟨hcfg, hmem, hrx, hhost, hlog, hpending, hrunning⟩, hpage, hcol, hstatus⟩ := internalBody_frame hi s
  obtain ⟨v, hend, hv⟩ := endMicroOp_writes_status ((bodyOf i).inFlight_of_waiting s)
  rw [hstatus] at hv
  rw [hend]
  exact ⟨hpage, hcol, hcfg, fun a => by rw [hmem], hrx, hhost, hlog, hpending, hrunning, hv⟩

end Sys2Proof.Machine
end

section
/-! PROOFS, INIT: its body is the Cursor written to (0,0), then the ten transactions of INIT_SEQ, run to the end or to the
packet that fails. -/

namespace Sys2Proof.Machine

/-- INIT's body writes the Cursor before the first transmission (spec/41_init.md R100). -/
theorem initBody_writes (s : State) : initBody.run s =
    (forEach write (s.cfg.initSeq.steps.map initTransaction)).run { s with curPage := 0, curCol := 0 } := by
  rw [forEach_map]
  exact initBody_run s

theorem initTransactions_ne_nil (q : InitSeq) : q.steps.map initTransaction ≠ [] := List.cons_ne_nil _ _

/-- INIT with every packet answered ok. -/
theorem exec_init_ok {s : State} {rest : List BusAnswer} {txs : List Transaction}
    (htxs : txs = s.cfg.initSeq.steps.map initTransaction)
    (h : s.answersOk (txs.flatMap (packetsOf s.cfg)).length rest) :
    exec .init s = .next { s.sent txs (answered (txs.flatMap (packetsOf s.cfg))) rest with
      curPage := 0, curCol := 0, status := 0x00 } := by
  subst htxs
  have hbody := (initBody_writes s.accept).trans (writeAll_ok (initTransactions_ne_nil s.cfg.initSeq) h)
  rw [exec_host_eq rfl, bodyOf, hbody, endOperation_done_of 0x80 0x00 rfl (by decide)]
  rfl

/-- INIT whose packet `n` is the first to fail: the Cursor is (0,0) all the same (spec/41_init.md R100). -/
theorem exec_init_fails {s : State} {n : Nat} {rest : List BusAnswer} {txs : List Transaction}
    (htxs : txs = s.cfg.initSeq.steps.map initTransaction)
    (hn : n < (txs.flatMap (packetsOf s.cfg)).length) (h : s.failsAt n rest) :
    exec .init s = .next { s.sent (begunAt s.cfg txs n) (failedAt (txs.flatMap (packetsOf s.cfg)) n) rest with
      curPage := 0, curCol := 0, status := 0x01 } := by
  subst htxs
  have hbody := (initBody_writes s.accept).trans (writeAll_fails hn h)
  rw [exec_host_eq rfl, bodyOf, hbody, endOperation_abandoned_of 0x80 0x01 rfl (by decide)]
  rfl

/-- Settles O12: INIT is its body from its acceptance, and then the end or the abort. -/
theorem initRunsItsSequence : Obligations.InitRunsItsSequence := by
  unfold Obligations.InitRunsItsSequence
  exact ⟨fun rest => rfl, fun s rest txs htxs hok => ⟨by rw [htxs]; rfl, exec_init_ok htxs hok⟩,
    fun s n rest txs htxs hn hfails => exec_init_fails htxs hn hfails⟩

end Sys2Proof.Machine
end

section
/-! PROOFS, the cursor operations: SET_CURSOR and NEW_LINE are `set_cursor` and `new_line` between the acceptance and the
end of an operation; NEW_LINE again and again counts pages modulo 8. -/

namespace Sys2Proof.Machine

/-! ### SET_CURSOR -/

/-- SET_CURSOR in range, every packet answered ok (spec/42_cursor.md R110, R111). -/
theorem exec_setCursor_ok {s : State} {p c : Byte} {rest : List BusAnswer} (hin : positionInRange p c = true)
    (h : s.answersOk (windowPackets s.cfg p c).length rest) :
    exec (.setCursor p c) s =
      .next { s.sent (windowTransactions s.cfg p c) (answered (windowPackets s.cfg p c)) rest with
        curPage := byteToPage p, curCol := c, status := 0x00 } := by
  rw [exec_host_eq rfl, bodyOf, setCursor_ok (s := s.accept) hin h, endOperation_done_of 0x80 0x00 rfl (by decide)]
  rfl

/-- SET_CURSOR out of range transmits nothing (spec/42_cursor.md R110, R111). -/
theorem exec_setCursor_ignored {s : State} {p c : Byte} (hout : positionInRange p c = false) :
    exec (.setCursor p c) s = .next { s with status := 0x02 } := by
  have hstatus : (s.accept.setFlag .ign).status = 0x82 := show acceptedStatus ||| flagMask .ign = 0x82 by decide
  rw [exec_host_eq rfl, bodyOf, setCursor_outOfRange hout, endOperation_done_of 0x82 0x02 hstatus (by decide)]
  rfl

/-- SET_CURSOR in range whose packet `n` is the first to fail (spec/42_cursor.md R110, R111). -/
theorem exec_setCursor_fails {s : State} {p c : Byte} {n : Nat} {rest : List BusAnswer}
    (hin : positionInRange p c = true) (hn : n < (windowPackets s.cfg p c).length) (h : s.failsAt n rest) :
    exec (.setCursor p c) s =
      .next { s.sent (begunAt s.cfg (windowTransactions s.cfg p c) n) (failedAt (windowPackets s.cfg p c) n) rest with
        status := 0x01 } := by
  rw [exec_host_eq rfl, bodyOf, setCursor_fails (s := s.accept) hin hn h,
    endOperation_abandoned_of 0x80 0x01 rfl (by decide)]
  rfl

/-- Settles O13: SET_CURSOR is `set_cursor` from its acceptance, and then the end or the abort. -/
theorem setCursorSetsOrIgnores : Obligations.SetCursorSetsOrIgnores := by
  unfold Obligations.SetCursorSetsOrIgnores
  refine ⟨fun p c rest => rfl, fun s p c rest hp hc h => ?_,
    fun s p c hout => exec_setCursor_ignored (positionInRange_false hout),
    fun s p c n rest hp hc hn h => exec_setCursor_fails ((positionInRange_iff p c).2 ⟨hp, hc⟩) hn h⟩
  rw [← byteToPage_eq]
  exact exec_setCursor_ok ((positionInRange_iff p c).2 ⟨hp, hc⟩) h

/-! ### NEW_LINE -/

/-- NEW_LINE with every packet answered ok (spec/42_cursor.md R112, R113). -/
theorem exec_newLine_ok {s : State} {rest : List BusAnswer}
    (h : s.answersOk (windowPackets s.cfg (pageByte (s.curPage + 1)) 0).length rest) :
    exec .newLine s =
      .next { s.sent (windowTransactions s.cfg (pageByte (s.curPage + 1)) 0)
          (answered (windowPackets s.cfg (pageByte (s.curPage + 1)) 0)) rest with
        curPage := s.curPage + 1, curCol := 0, status := 0x00 } := by
  rw [exec_host_eq rfl, bodyOf, newLine_ok (s := s.accept) h, endOperation_done_of 0x80 0x00 rfl (by decide)]
  rfl

/-- NEW_LINE whose packet `n` is the first to fail: the page is already incremented (spec/42_cursor.md R112, R113). -/
theorem exec_newLine_fails {s : State} {n : Nat} {rest : List BusAnswer}
    (hn : n < (windowPackets s.cfg (pageByte (s.curPage + 1)) 0).length) (h : s.failsAt n rest) :
    exec .newLine s =
      .next { s.sent (begunAt s.cfg (windowTransactions s.cfg (pageByte (s.curPage + 1)) 0) n)
          (failedAt (windowPackets s.cfg (pageByte (s.curPage + 1)) 0) n) rest with
        curPage := s.curPage + 1, status := 0x01 } := by
  rw [exec_host_eq rfl, bodyOf, newLine_fails (s := s.accept) hn h, endOperation_abandoned_of 0x80 0x01 rfl (by decide)]
  rfl

/-- Settles O14: NEW_LINE is `new_line` from its acceptance, and then the end or the abort. -/
theorem newLineStartsTheNextPage : Obligations.NewLineStartsTheNextPage := by
  unfold Obligations.NewLineStartsTheNextPage
  refine ⟨fun rest => rfl, fun s rest page hpage h => ?_, fun s n rest page hpage hn h => ?_⟩
  · obtain rfl := hpage.trans (pageByte_next s.curPage).symm
    rw [← page_next]
    exact exec_newLine_ok h
  · obtain rfl := hpage.trans (pageByte_next s.curPage).symm
    rw [← page_next]
    exact exec_newLine_fails hn h

/-! ### NEW_LINE again and again -/

theorem execAll_cons {i : Instr} {is : List Instr} {s t : State} (h : exec i s = .next t) :
    execAll (i :: is) s = execAll is t := by
  rw [execAll, h]

/-- One of several NEW_LINE operations takes the answers to its own packets (spec/42_cursor.md R112). -/
theorem exec_newLine_advances {s : State} {more : List BusAnswer}
    (h : s.answersOk (if s.cfg.cmdAddrFirst then 6 else 4) more) :
    ∃ t, exec .newLine s = .next t ∧ t.cfg = s.cfg ∧ t.curPage = s.curPage + 1 ∧ t.curCol = 0 ∧ t.answers = more := by
  rw [← windowPackets_length s.cfg (pageByte (s.curPage + 1)) 0] at h
  exact ⟨_, exec_newLine_ok h, rfl, rfl, rfl, rfl⟩

/-- `n` NEW_LINE operations with all answers ok go `n` pages on, modulo 8, to column 0 (spec/42_cursor.md R112). -/
theorem execAll_newLine_ok {rest : List BusAnswer} (n : Nat) : ∀ {s : State},
    s.answersOk (n * if s.cfg.cmdAddrFirst then 6 else 4) rest →
    ∃ t, execAll (List.replicate n .newLine) s = .next t ∧ t.curPage = s.curPage + BitVec.ofNat 3 n ∧
      (n ≠ 0 ∨ s.curCol = 0 → t.curCol = 0) := by
  induction n with
  | zero =>
    intro s _
    exact ⟨s, rfl, (BitVec.add_zero _).symm, fun h => h.resolve_left (absurd rfl)⟩
  | succ n ih =>
    intro s h
    rw [State.answersOk, Nat.succ_mul, Nat.add_comm, replicate_ok_add] at h
    obtain ⟨t, ht, hcfg, hpage, hcol, hanswers⟩ := exec_newLine_advances h
    obtain ⟨u, hu, hpages, hcols⟩ := ih (s := t) (by rw [hcfg]; exact hanswers)
    refine ⟨u, (execAll_cons ht).trans hu, ?_, fun _ => hcols (.inr hcol)⟩
    rw [hpages, hpage, BitVec.add_assoc, Nat.add_comm n, BitVec.ofNat_add]
    rfl

/-- Settles O15: eight pages on, modulo 8, is the same page. -/
theorem newLineEightTimes : Obligations.NewLineEightTimes := by
  unfold Obligations.NewLineEightTimes
  intro s rest h
  obtain ⟨t, ht, hpage, hcol⟩ := execAll_newLine_ok 8 h
  exact ⟨t, ht, hpage.trans (BitVec.add_zero _), hcol (.inl (by decide))⟩

end Sys2Proof.Machine
end

section
/-! PROOFS, PUT_CHAR: `put_char` between the acceptance and the end of an operation, to its end or to the packet that fails,
in the pre-wrap or in a slice of the glyph. -/

namespace Sys2Proof.Machine

/-! ### STATUS at the end of PUT_CHAR -/

@[simp] theorem State.sent_status (s : State) (t : List Transaction) (e : List (Packet × BusAnswer)) (r : List BusAnswer) :
    (s.sent t e r).status = s.status := rfl

/-- PUT_CHAR whose `put_char` is complete, UG being the glyph lookup's (spec/43_text.md R121, R122). -/
theorem exec_putChar_done {b : Byte} {s t : State} (hrun : (putChar b).run s.accept = (t, .done))
    (hstatus : t.status = (s.accept.afterGlyph b).status) :
    exec (.putChar b) s = .next { t with status := if 128 ≤ b.toNat then 0x04 else 0x00 } := by
  rw [afterGlyph_eq] at hstatus
  rw [exec_host_eq rfl, bodyOf, hrun, endOperation_done_of _ _ hstatus]
  by_cases hb : 128 ≤ b.toNat <;> simp [hb, acceptedStatus]

/-- PUT_CHAR whose `put_char` is abandoned after the glyph lookup (spec/43_text.md R122, spec/60_exceptions.md R158). -/
theorem exec_putChar_abandoned {b : Byte} {s t : State} (hrun : (putChar b).run s.accept = (t, .abandoned))
    (hstatus : t.status = (s.accept.afterGlyph b).status) :
    exec (.putChar b) s = .next { t with status := if 128 ≤ b.toNat then 0x05 else 0x01 } := by
  rw [afterGlyph_eq] at hstatus
  rw [exec_host_eq rfl, bodyOf, hrun, endOperation_abandoned_of _ _ hstatus]
  by_cases hb : 128 ≤ b.toNat <;> simp [hb, acceptedStatus]

/-! ### The newline code -/

/-- Settles O16: `put_char` of the newline code is `new_line` (spec/43_text.md R120). -/
theorem putCharNewlineIsNewLine : Obligations.PutCharNewlineIsNewLine := by
  unfold Obligations.PutCharNewlineIsNewLine
  intro s
  refine ⟨?_, _, exec_host_eq rfl s⟩
  rw [exec_host_eq rfl, exec_host_eq rfl, bodyOf, bodyOf, show s.cfg.newline = s.accept.cfg.newline from rfl,
    putChar_newline]

/-! ### A glyph that fits the line -/

/-- Settles O17: no pre-wrap, and the glyph's slices are the Font Table's or blank. -/
theorem putCharFits : Obligations.PutCharFits := by
  unfold Obligations.PutCharFits
  intro s b slices rest hb hwidth hslices hfits hanswers
  obtain rfl := hslices.trans (glyphBytes_eq s.cfg b).symm
  have hrun := (putChar_fits (s := s.accept) hb hfits).trans (putGlyph_ok hwidth hanswers)
  rw [exec_putChar_done hrun rfl, ← col_add, afterGlyph_eq]
  rfl

/-! ### A glyph after a pre-wrap -/

/-- The pre-wrap, every packet answered ok, hands over to the glyph at column 0 (spec/43_text.md R120, R123). -/
theorem putChar_preWrap_ok {b : Byte} {s : State} {rest : List BusAnswer} (hb : b ≠ s.cfg.newline)
    (hwraps : 128 < s.curCol.toNat + s.cfg.fontWidth)
    (hanswers : s.answersOk (windowPackets s.cfg (pageByte (s.curPage + 1)) 0).length rest) :
    (putChar b).run s = (putGlyph b).run (((s.sent (windowTransactions s.cfg (pageByte (s.curPage + 1)) 0)
      (answered (windowPackets s.cfg (pageByte (s.curPage + 1)) 0)) rest).setPage (s.curPage + 1)).setCol 0) :=
  (putChar_wraps hb hwraps).trans (andThen_done (newLine_ok hanswers))

/-- Settles O18: the pre-wrap is one new line, and the glyph follows it from column 0. -/
theorem putCharPreWraps : Obligations.PutCharPreWraps := by
  unfold Obligations.PutCharPreWraps
  intro s b slices rest page hb hwidth hslices hwraps hpage hanswers
  obtain rfl := hslices.trans (glyphBytes_eq s.cfg b).symm
  obtain rfl := hpage.trans (pageByte_next s.curPage).symm
  rw [State.answersOk, replicate_ok_add] at hanswers
  have hrun := (putChar_preWrap_ok (s := s.accept) hb hwraps hanswers).trans (putGlyph_ok hwidth rfl)
  rw [exec_putChar_done hrun (by simp), ← page_next, afterGlyph_eq]
  simp [State.sent, State.setPage, State.setCol, State.accept, State.setStatus]

/-! ### The aborts -/

/-- Settles O19: the glyph's slices stop at the failing one, from where the glyph starts. -/
theorem putCharAbortAtSlice : Obligations.PutCharAbortAtSlice := by
  unfold Obligations.PutCharAbortAtSlice
  intro s b slices i rest page hb hi hslices hpage
  obtain rfl := hslices.trans (glyphBytes_eq s.cfg b).symm
  obtain rfl := hpage.trans (pageByte_next s.curPage).symm
  split
  next hfits =>
    intro hfails
    have hrun := (putChar_fits (s := s.accept) hb hfits).trans (putGlyph_fails hi hfails)
    rw [exec_putChar_abandoned hrun rfl, ← col_add, afterGlyph_eq]
    rfl
  next hwraps =>
    intro hfails
    rw [State.failsAt, replicate_ok_add] at hfails
    have hrun := (putChar_preWrap_ok (s := s.accept) hb (Nat.lt_of_not_le hwraps) hfails).trans (putGlyph_fails hi rfl)
    rw [exec_putChar_abandoned hrun (by simp), ← page_next, afterGlyph_eq]
    simp [State.sent, State.setPage, State.setCol, State.accept, State.setStatus]

/-- Settles O20: an aborted pre-wrap is an aborted `new_line`, and the glyph lookup is not reached
(spec/60_exceptions.md R158). -/
theorem putCharAbortInPreWrap : Obligations.PutCharAbortInPreWrap := by
  unfold Obligations.PutCharAbortInPreWrap
  intro s b n rest page hb hwraps hpage hn hfails
  obtain rfl := hpage.trans (pageByte_next s.curPage).symm
  have hrun := (putChar_wraps (s := s.accept) hb hwraps).trans (andThen_abandoned (newLine_fails hn hfails))
  rw [exec_host_eq rfl, bodyOf, hrun, endOperation_abandoned_of 0x80 0x01 rfl (by decide), ← page_next]
  rfl

end Sys2Proof.Machine
end

section
/-! PROOFS, what the lines of an operation do not read: a piece runs alike from states that none of its lines tells apart.
No line reads STATUS (spec/10_state.md R25), and no line of `put_char` reads MSG. -/

namespace Sys2Proof.Machine

/-! ### States that a piece does not tell apart -/

/-- Two results of a piece: ended alike, in states that are related. -/
def RunsAlike (R : State → State → Prop) (r q : State × Flow) : Prop := q.2 = r.2 ∧ R r.1 q.1

/-- A relation of states that every register write and every transmission keeps. -/
structure Unread (R : State → State → Prop) : Prop where
  line : ∀ {s t : State} (u : Update), R s t → R (u.apply s) (u.apply t)
  send : ∀ {s t : State} (p : Packet), R s t → RunsAlike R (send p s) (send p t)

/-- The values read in related states give the same piece, wherever a piece reads. -/
def Prog.BlindTo (R : State → State → Prop) : Prog → Prop
  | .skip | .line _ | .send _ => True
  | .seq a b => a.BlindTo R ∧ b.BlindTo R
  | .look k => (∀ s t, R s t → k s.view = k t.view) ∧ ∀ v, (k v).BlindTo R

theorem RunsAlike.andThen {R : State → State → Prop} {f g : Act} {s t : State} (hf : RunsAlike R (f s) (f t))
    (hg : ∀ {u v}, R u v → RunsAlike R (g u) (g v)) : RunsAlike R (andThen f g s) (andThen f g t) := by
  simp only [Machine.andThen]
  revert hf
  rcases f s with ⟨u, _ | _ | _⟩ <;> rcases f t with ⟨v, fl⟩ <;> rintro ⟨rfl, huv⟩
  · exact hg huv
  · exact ⟨rfl, huv⟩
  · exact ⟨rfl, huv⟩

/-- A piece runs alike from states that none of its lines tells apart. -/
theorem Prog.run_alike {R : State → State → Prop} (hR : Unread R) (p : Prog) :
    p.BlindTo R → ∀ {s t : State}, R s t → RunsAlike R (p.run s) (p.run t) := by
  induction p with
  | skip => exact fun _ _ _ h => ⟨rfl, h⟩
  | line u => exact fun _ _ _ h => ⟨rfl, hR.line u h⟩
  | send p => exact fun _ _ _ h => hR.send p h
  | seq a b iha ihb => exact fun hblind _ _ h => (iha hblind.1 h).andThen (ihb hblind.2)
  | look k ih =>
    intro hblind s t h
    rw [Prog.run_look, Prog.run_look, hblind.1 s t h]
    exact ih _ (hblind.2 _) h

theorem forEach_blindTo {R : State → State → Prop} {α : Type} {body : α → Prog} (h : ∀ a, (body a).BlindTo R)
    (l : List α) : (forEach body l).BlindTo R := by
  induction l with
  | nil => trivial
  | cons a l ih => exact ⟨h a, ih⟩

/-! ### No line reads STATUS -/

theorem State.setFlag_comm (f g : Flag) (s : State) : (s.setFlag f).setFlag g = (s.setFlag g).setFlag f := by
  simp only [State.setFlag, BitVec.or_assoc, BitVec.or_comm (flagMask f)]

theorem unread_setFlag (f : Flag) : Unread fun s t => t = s.setFlag f where
  line := by
    rintro s _ u rfl
    cases u with
    | flag g => exact State.setFlag_comm f g s
    | page | col | receive | issue => rfl
  send := by
    rintro s _ p rfl
    unfold send State.answer State.takeAnswer RunsAlike
    cases hanswers : s.answers with
    | nil => cases hbus : Config.busAnswer s.draws <;> simp [State.setFlag, hanswers, hbus, State.record, State.hold]
    | cons a rest => cases a <;> simp [State.setFlag, hanswers, State.record, State.hold]

theorem Prog.blindTo_setFlag (f : Flag) (p : Prog) : p.BlindTo fun s t => t = s.setFlag f := by
  induction p with
  | skip | line | send => trivial
  | seq a b iha ihb => exact ⟨iha, ihb⟩
  | look k ih => exact ⟨fun s t h => by rw [h]; rfl, ih⟩

/-- A flag set before a piece is set after it, and changes nothing else (spec/10_state.md R25). -/
theorem Prog.run_setFlag (f : Flag) (p : Prog) (s : State) :
    p.run (s.setFlag f) = ((p.run s).1.setFlag f, (p.run s).2) :=
  have ⟨hflow, hstate⟩ := p.run_alike (unread_setFlag f) (p.blindTo_setFlag f) (s := s) rfl
  Prod.ext hstate hflow

/-! ### `put_char` does not read MSG -/

/-- The same state but for MSG and STATUS. -/
def SameButMessage (s t : State) : Prop := ∃ m w, t = { s with mem := m, status := w }

theorem unread_message : Unread SameButMessage where
  line := by
    rintro s _ u ⟨m, w, rfl⟩
    cases u <;> exact ⟨_, _, rfl⟩
  send := by
    rintro s _ p ⟨m, w, rfl⟩
    unfold send State.answer State.takeAnswer
    cases hanswers : s.answers with
    | nil => cases hbus : Config.busAnswer s.draws <;> exact ⟨rfl, m, w, rfl⟩
    | cons a rest => cases a <;> exact ⟨rfl, m, w, rfl⟩

/-- A piece does not tell the states apart if what it reads gives the same piece whatever MSG holds. -/
theorem look_blindTo_message {k : View → Prog} (hmem : ∀ v m, k { v with mem := m } = k v)
    (hk : ∀ v, (k v).BlindTo SameButMessage) : (Prog.look k).BlindTo SameButMessage := by
  refine ⟨?_, hk⟩
  rintro s _ ⟨m, w, rfl⟩
  exact (hmem s.view m).symm

theorem write_blindTo_message (t : Transaction) : (write t).BlindTo SameButMessage :=
  ⟨trivial, look_blindTo_message (fun _ _ => rfl) fun _ => forEach_blindTo (body := .send) (fun _ => trivial) _⟩

theorem setCursor_blindTo_message (p c : Byte) : (setCursor p c).BlindTo SameButMessage := by
  unfold setCursor
  split
  · exact look_blindTo_message (fun _ _ => rfl)
      fun _ => ⟨write_blindTo_message _, write_blindTo_message _, trivial, trivial⟩
  · trivial

theorem newLine_blindTo_message : newLine.BlindTo SameButMessage :=
  ⟨look_blindTo_message (fun _ _ => rfl) fun _ => trivial,
    look_blindTo_message (fun _ _ => rfl) fun _ => setCursor_blindTo_message _ _⟩

theorem putSlice_blindTo_message (slice : Byte) : (putSlice slice).BlindTo SameButMessage :=
  ⟨write_blindTo_message _, look_blindTo_message (fun _ _ => rfl) fun _ => trivial⟩

theorem noteGlyph_blindTo_message (b : Byte) : (noteGlyph b).BlindTo SameButMessage := by
  unfold noteGlyph
  split <;> trivial

theorem putGlyph_blindTo_message (b : Byte) : (putGlyph b).BlindTo SameButMessage :=
  ⟨noteGlyph_blindTo_message b,
    look_blindTo_message (fun _ _ => rfl) fun _ => forEach_blindTo putSlice_blindTo_message _⟩

theorem putChar_blindTo_message (b : Byte) : (putChar b).BlindTo SameButMessage := by
  refine look_blindTo_message (fun _ _ => rfl) fun v => ?_
  split
  · exact newLine_blindTo_message
  · split
    · exact ⟨newLine_blindTo_message, putGlyph_blindTo_message b⟩
    · exact putGlyph_blindTo_message b

end Sys2Proof.Machine
end

section
/-! PROOFS, PRINT: it renders its message by `put_char`, byte after byte, so that it is its bytes as PUT_CHAR operations;
on one line that is one glyph after another; and FO is all that the dropped bytes of a longer message leave. -/

namespace Sys2Proof.Machine

/-! ### The message, byte after byte -/

/-- Settles O21: without a byte the loop makes no turn. -/
theorem printOfNothing : Obligations.PrintOfNothing := by
  unfold Obligations.PrintOfNothing
  intro s
  have hrun : (printBody []).run s.accept = (s.accept, .done) := by
    rw [printBody_run, renderedLength, List.length_nil, Nat.zero_min, List.range_zero, forEach_nil]
    rfl
  rw [exec_host_eq rfl, bodyOf, hrun, endOperation_done_of 0x80 0x00 rfl (by decide)]
  rfl

/-- PRINT is `put_char` of the first PRINT_MAX payload bytes, from its message received (spec/43_text.md R125). -/
theorem exec_print_eq {s : State} (hwf : Memory.wf s.mem = true) (payload : List Byte) :
    exec (.print payload) s =
      .next (endOperation ((forEach putChar (payload.take s.cfg.printMax)).run (s.accept.afterMessage payload))) := by
  rw [exec_host_eq rfl, bodyOf, printBody_eq (s := s.accept) hwf]
  rfl

/-- Settles O22: `put_char` leaves MSG alone, so each turn of the loop finds the byte received. -/
theorem printRendersPayloadInOrder : Obligations.PrintRendersPayloadInOrder := by
  unfold Obligations.PrintRendersPayloadInOrder
  intro s payload hwf
  rw [exec_print_eq hwf, printStart_eq]

/-! ### A message on one line -/

/-- The state after the glyphs of some bytes on one line: their slices sent, the column FW on for each, UG if one of them is
outside the font (spec/43_text.md R120, R122). -/
def State.afterLine (bs : List Byte) (rest : List BusAnswer) (s : State) : State :=
  { s.sent (dataTransactions (bs.flatMap (glyphBytes s.cfg)))
      (answered (dataPackets s.cfg (bs.flatMap (glyphBytes s.cfg)))) rest with
    curCol := s.curCol + BitVec.ofNat 8 (bs.length * s.cfg.fontWidth)
    status := if bs.any (fun b => 128 ≤ b.toNat) then s.status ||| 0x04 else s.status }

theorem State.afterLine_nil {s : State} (hidle : s.inFlight = none) : s.afterLine [] s.answers = s := by
  simp [State.afterLine, State.sent, dataTransactions, dataPackets, ← hidle]

@[simp] theorem State.afterLine_cfg (bs : List Byte) (rest : List BusAnswer) (s : State) :
    (s.afterLine bs rest).cfg = s.cfg := rfl

theorem State.afterLine_singleton_curCol {b : Byte} {rest : List BusAnswer} {s : State}
    (hfits : s.curCol.toNat + s.cfg.fontWidth ≤ 128) :
    (s.afterLine [b] rest).curCol.toNat = s.curCol.toNat + s.cfg.fontWidth := by
  rw [State.afterLine, List.length_singleton, Nat.one_mul, col_add, BitVec.toNat_ofNat]
  omega

theorem State.afterLine_cons (b : Byte) (bs : List Byte) (more rest : List BusAnswer) (s : State) :
    (s.afterLine [b] more).afterLine bs rest = s.afterLine (b :: bs) rest := by
  have hcol : s.curCol + BitVec.ofNat 8 s.cfg.fontWidth + BitVec.ofNat 8 (bs.length * s.cfg.fontWidth) =
      s.curCol + BitVec.ofNat 8 ((b :: bs).length * s.cfg.fontWidth) := by
    rw [List.length_cons, Nat.succ_mul, Nat.add_comm, BitVec.ofNat_add, BitVec.add_assoc]
  by_cases hb : 128 ≤ b.toNat <;>
    simp [State.afterLine, State.sent, hcol, dataTransactions, dataPackets, hb, BitVec.or_assoc]

/-- `put_char` of a glyph that fits, every packet answered ok (spec/43_text.md R120). -/
theorem putChar_afterLine {b : Byte} {s : State} {rest : List BusAnswer} (hwidth : 0 < s.cfg.fontWidth)
    (hb : b ≠ s.cfg.newline) (hfits : s.curCol.toNat + s.cfg.fontWidth ≤ 128) (hanswers : s.answersOk s.cfg.fontWidth rest) :
    (putChar b).run s = (s.afterLine [b] rest, .done) := by
  rw [putChar_fits hb hfits, putGlyph_ok hwidth hanswers, afterGlyph_eq]
  simp [State.afterLine, State.sent, State.setCol]

/-- The glyphs of bytes that fit the line one after another, every packet answered ok (spec/43_text.md R125). -/
theorem forEach_putChar_afterLine {bs : List Byte} {rest : List BusAnswer} : ∀ {s : State}, s.inFlight = none →
    0 < s.cfg.fontWidth → (∀ b ∈ bs, b ≠ s.cfg.newline) → s.curCol.toNat + bs.length * s.cfg.fontWidth ≤ 128 →
    s.answersOk (bs.length * s.cfg.fontWidth) rest → (forEach putChar bs).run s = (s.afterLine bs rest, .done) := by
  induction bs with
  | nil =>
    intro s hidle _ _ _ hanswers
    obtain rfl : s.answers = rest := by simpa [State.answersOk] using hanswers
    rw [State.afterLine_nil hidle, forEach_nil]
  | cons b bs ih =>
    intro s _ hwidth hnewline hfits hanswers
    obtain ⟨hb, hbs⟩ := List.forall_mem_cons.1 hnewline
    rw [List.length_cons, Nat.succ_mul] at hfits
    rw [State.answersOk, List.length_cons, Nat.succ_mul, Nat.add_comm, replicate_ok_add] at hanswers
    have hglyph : s.curCol.toNat + s.cfg.fontWidth ≤ 128 := by omega
    rw [forEach_cons, andThen_done (putChar_afterLine hwidth hb hglyph hanswers),
      ← State.afterLine_cons b bs (List.replicate (bs.length * s.cfg.fontWidth) .ok ++ rest)]
    refine ih rfl hwidth hbs ?_ rfl
    rw [State.afterLine_singleton_curCol hglyph, State.afterLine_cfg]
    omega

/-- Settles O23: the message is received, and its glyphs follow one another on the line. -/
theorem printOnOneLine : Obligations.PrintOnOneLine := by
  unfold Obligations.PrintOnOneLine
  intro s payload slices rest hwf hidle hslices hlength hwidth hnewline hfits hanswers
  obtain rfl : slices = payload.flatMap (glyphBytes s.cfg) := by rw [hslices, ← funext (glyphBytes_eq s.cfg)]
  have hrun : (forEach putChar payload).run (s.accept.afterMessage payload) =
      ((s.accept.afterMessage payload).afterLine payload rest, .done) := by
    rw [printStart_eq]
    exact forEach_putChar_afterLine hidle hwidth hnewline hfits hanswers
  rw [exec_print_eq hwf, List.take_of_length_le hlength, hrun, printStart_eq, if_neg (Nat.not_lt.2 hlength), ← col_add,
    endOperation_done, State.afterLine]
  cases payload.any fun b => 128 ≤ b.toNat <;> simp [State.sent]

/-! ### The message as PUT_CHAR operations -/

theorem andThen_eq_done {f g : Act} {s u : State} (h : andThen f g s = (u, .done)) :
    ∃ t, f s = (t, .done) ∧ g t = (u, .done) := by
  simp only [andThen] at h
  rcases hf : f s with ⟨t, _ | _ | _⟩ <;> rw [hf] at h
  · exact ⟨t, rfl, h⟩
  · exact nomatch h
  · exact nomatch h

/-- A body that left a state without BE, and does not wait, is complete (spec/60_exceptions.md R152). -/
theorem completed_of_endOperation {r : State × Flow} (hbe : (endOperation r).flag .be = false) (hwaits : r.2 ≠ .waiting) :
    r.2 = .done := by
  obtain ⟨t, _ | _ | _⟩ := r
  · rfl
  · simp [endOperation_abandoned, State.flag, flagBit] at hbe
  · exact absurd rfl hwaits

/-- A `put_char` inside PRINT that is complete is a PUT_CHAR operation (spec/43_text.md R121, R127). -/
theorem exec_putChar_of_run {b : Byte} {x y s : State} (hsame : SameButMessage x s) (hrun : (putChar b).run x = (y, .done)) :
    ∃ u, exec (.putChar b) s = .next u ∧ SameButMessage y u := by
  obtain ⟨m, w, rfl⟩ := hsame
  have halike := (putChar b).run_alike unread_message (putChar_blindTo_message b)
    (show SameButMessage x (State.accept { x with mem := m, status := w }) from ⟨m, acceptedStatus, rfl⟩)
  rw [hrun] at halike
  obtain ⟨hflow, m', w', hstate⟩ := halike
  refine ⟨_, exec_host_eq rfl _, m', w' &&& ~~~ flagMask .busy, ?_⟩
  rw [bodyOf, show (putChar b).run _ = (_, .done) from Prod.ext hstate hflow]
  rfl

/-- Bytes that `put_char` renders to the end are PUT_CHAR operations that all complete (spec/43_text.md R121, R127). -/
theorem execAll_putChar_of_run {bs : List Byte} {y : State} : ∀ {x s : State}, SameButMessage x s →
    (forEach putChar bs).run x = (y, .done) → ∃ u, execAll (bs.map .putChar) s = .next u ∧ SameButMessage y u := by
  induction bs with
  | nil =>
    intro x s hsame hrun
    obtain rfl : x = y := congrArg Prod.fst hrun
    exact ⟨s, rfl, hsame⟩
  | cons b bs ih =>
    intro x s hsame hrun
    obtain ⟨z, hb, hbs⟩ := andThen_eq_done hrun
    obtain ⟨v, hv, hsame'⟩ := exec_putChar_of_run hsame hb
    obtain ⟨u, hu, hsame''⟩ := ih hsame' hbs
    exact ⟨u, (execAll_cons hv).trans hu, hsame''⟩

/-- Settles O24: without BusError PRINT's loop is complete, and its turns are PUT_CHAR operations. -/
theorem printEqualsPutChars : Obligations.PrintEqualsPutChars := by
  unfold Obligations.PrintEqualsPutChars
  intro s t payload hwf hlength _ hexec hbe hanswered
  rw [exec_print_eq hwf, List.take_of_length_le hlength] at hexec
  obtain rfl := Host.Outcome.next.inj hexec
  rw [endOperation_inFlight] at hanswered
  have hdone := completed_of_endOperation hbe fun hwaits => Prog.inFlight_of_waiting _ _ hwaits hanswered
  obtain ⟨y, hrun⟩ : ∃ y, (forEach putChar payload).run (s.accept.afterMessage payload) = (y, .done) :=
    ⟨_, Prod.ext rfl hdone⟩
  have hstart : SameButMessage (s.accept.afterMessage payload) s := by
    rw [printStart_eq]
    exact ⟨s.mem, s.status, rfl⟩
  obtain ⟨u, hu, m, w, rfl⟩ := execAll_putChar_of_run hstart hrun
  rw [hrun]
  exact ⟨_, hu, rfl, rfl, rfl, rfl⟩

/-! ### A message that is too long -/

theorem State.clearFlag_setFlag_fo (s : State) : (s.setFlag .fo).clearFlag .busy = (s.clearFlag .busy).setFlag .fo := by
  simp only [State.setFlag, State.clearFlag, BitVec.and_or_distrib_right]
  rfl

/-- FO set before the end of an operation is set after it, and changes nothing else. -/
theorem endOperation_setFlag_fo (r : State × Flow) :
    endOperation (r.1.setFlag .fo, r.2) = (endOperation r).setFlag .fo := by
  obtain ⟨t, _ | _ | _⟩ := r
  case done => exact t.clearFlag_setFlag_fo
  case abandoned => exact (congrArg _ (State.setFlag_comm _ _ _)).trans (State.clearFlag_setFlag_fo _)
  case waiting => exact State.setFlag_comm _ _ _

/-- A message that is too long is received as its first PRINT_MAX bytes are, and FO (spec/43_text.md R126). -/
theorem State.afterMessage_overflow {s : State} {payload : List Byte} (hlong : s.cfg.printMax < payload.length) :
    s.afterMessage payload = (s.afterMessage (payload.take s.cfg.printMax)).setFlag .fo := by
  have hmem := storePayload_take s.cfg.printMax payload 0 s.mem
  rw [Nat.sub_zero] at hmem
  rw [State.afterMessage, State.afterMessage, if_pos hlong, if_neg (by simp), State.receive, State.receive, hmem]

/-- PRINT of a message that is too long is PRINT of its first PRINT_MAX bytes, and FO (spec/43_text.md R126). -/
theorem exec_print_overflow {s t : State} {payload : List Byte} (hlong : s.cfg.printMax < payload.length)
    (hexec : exec (.print (payload.take s.cfg.printMax)) s = .next t) : exec (.print payload) s = .next (t.setFlag .fo) := by
  have hlength : renderedLength s.cfg payload.length = renderedLength s.cfg (payload.take s.cfg.printMax).length := by
    rw [List.length_take, renderedLength, renderedLength]
    omega
  rw [exec_host_eq rfl, bodyOf, printBody_run, State.accept_cfg] at hexec ⊢
  rw [hlength, State.afterMessage_overflow (s := s.accept) hlong, State.accept_cfg, Prog.run_setFlag,
    endOperation_setFlag_fo, Host.Outcome.next.inj hexec]

/-- PRINT of a message within PRINT_MAX leaves FO clear (spec/43_text.md R125). -/
theorem exec_print_flag_fo {s t : State} {payload : List Byte} (hlength : payload.length ≤ s.cfg.printMax)
    (hexec : exec (.print payload) s = .next t) : t.flag .fo = false := by
  obtain ⟨r, hr, heffect⟩ := exec_host (i := .print payload) rfl s
  obtain rfl := Host.Outcome.next.inj (hr.symm.trans hexec)
  have hstart : (startOf (.print payload) s).status = 0x80 := by
    rw [startOf, printStart_eq, if_neg (Nat.not_lt.2 hlength)]
  have hmask : Within 0x85 (bodyMask (.print payload)) := show flagMask .ug &&& ~~~ (0x85 : Byte) = 0 by decide
  have hwithin : Within 0x85 (endOperation r).status :=
    endOperation_within (heffect.within hmask (by rw [hstart]; rfl)) rfl rfl
  exact Bool.eq_false_iff.2 fun hfo => absurd (within_iff.1 hwithin 3 (by decide) hfo) (by decide)

/-- Settles O25: the bytes beyond PRINT_MAX are neither stored nor rendered, and nothing reads FO. -/
theorem printTruncatesAndSetsOverflow : Obligations.PrintTruncatesAndSetsOverflow := by
  unfold Obligations.PrintTruncatesAndSetsOverflow
  intro s payload hlong
  have hexec := exec_host_eq (i := .print (payload.take s.cfg.printMax)) rfl s
  refine ⟨_, hexec, exec_print_flag_fo (List.length_take_le _ _) hexec, exec_print_overflow hlong hexec, fun a ha => ?_⟩
  rw [exec_print_mem hexec]
  exact read_storePayload_outside _ _ _ _ (.inr (.inl ha))

end Sys2Proof.Machine
end

section
/-! PROOFS, FILL: the windows of (0,0) and the sweep between the acceptance and the end of an operation, and how many
transactions and transmissions that is. -/

namespace Sys2Proof.Machine

/-! ### What the counts count -/

@[simp] theorem answered_length (ps : List Packet) : (answered ps).length = ps.length := List.length_map _

theorem answered_filter_ok (ps : List Packet) : (answered ps).filter (fun e => e.2 = .ok) = answered ps := by
  simp [answered]

theorem failedAt_length {ps : List Packet} {n : Nat} (hn : n < ps.length) : (failedAt ps n).length = n + 1 := by
  rw [failedAt_eq hn, List.length_append, answered_length, List.length_take_of_le (Nat.le_of_lt hn)]
  rfl

/-- Of the transmissions up to the first that fails, all but that one succeed. -/
theorem failedAt_filter_ok {ps : List Packet} {n : Nat} (hn : n < ps.length) :
    ((failedAt ps n).filter fun e => e.2 = .ok).length = n := by
  rw [failedAt_eq hn, List.filter_append, answered_filter_ok, List.length_append, answered_length,
    List.length_take_of_le (Nat.le_of_lt hn)]
  rfl

@[simp] theorem windowTransactions_filter_command (g : Config) (p c : Byte) :
    (windowTransactions g p c).filter (fun x => x.kind = .command) = windowTransactions g p c := rfl

@[simp] theorem windowTransactions_filter_data (g : Config) (p c : Byte) :
    (windowTransactions g p c).filter (fun x => x.kind = .data) = [] := rfl

@[simp] theorem windowTransactions_length (g : Config) (p c : Byte) : (windowTransactions g p c).length = 2 := rfl

@[simp] theorem dataTransactions_filter_command (l : List Byte) :
    (dataTransactions l).filter (fun x => x.kind = .command) = [] := by
  simp [dataTransactions]

@[simp] theorem dataTransactions_filter_data (l : List Byte) :
    (dataTransactions l).filter (fun x => x.kind = .data) = dataTransactions l := by
  simp [dataTransactions]

@[simp] theorem dataTransactions_length (l : List Byte) : (dataTransactions l).length = l.length := List.length_map _

/-! ### FILL -/

/-- What FILL hands to the Framer (spec/44_graphics.md R135). -/
def fillTransactions (g : Config) (pattern : Byte) : List Transaction :=
  windowTransactions g 0 0 ++ dataTransactions (List.replicate 1024 pattern)

/-- The packets of `fillTransactions`. -/
def fillPackets (g : Config) (pattern : Byte) : List Packet :=
  windowPackets g 0 0 ++ dataPackets g (List.replicate 1024 pattern)

theorem fillPackets_length (g : Config) (pattern : Byte) :
    (fillPackets g pattern).length = (windowPackets g 0 0).length + 1024 := by
  rw [fillPackets, List.length_append, dataPackets_length, List.length_replicate]

theorem fillPackets_length_eq (g : Config) (pattern : Byte) :
    (fillPackets g pattern).length = if g.cmdAddrFirst then 1030 else 1028 := by
  rw [fillPackets_length, windowPackets_length]
  split <;> rfl

theorem fillTransactions_commands (g : Config) (pattern : Byte) :
    ((fillTransactions g pattern).filter fun x => x.kind = .command).length = 2 := by
  rw [fillTransactions, List.filter_append, windowTransactions_filter_command, dataTransactions_filter_command,
    List.append_nil, windowTransactions_length]

theorem fillTransactions_data (g : Config) (pattern : Byte) :
    ((fillTransactions g pattern).filter fun x => x.kind = .data).length = 1024 := by
  rw [fillTransactions, List.filter_append, windowTransactions_filter_data, dataTransactions_filter_data,
    List.nil_append, dataTransactions_length, List.length_replicate]

/-- FILL with every packet answered ok (spec/44_graphics.md R135). -/
theorem exec_fill_ok {s : State} {pattern : Byte} {rest : List BusAnswer}
    (h : s.answersOk (fillPackets s.cfg pattern).length rest) :
    exec (.fill pattern) s =
      .next { s.sent (fillTransactions s.cfg pattern) (answered (fillPackets s.cfg pattern)) rest with
        curPage := 0, curCol := 0, status := 0x00 } := by
  rw [fillPackets_length] at h
  rw [exec_host_eq rfl, bodyOf, fillBody_ok (s := s.accept) h, endOperation_done_of 0x80 0x00 rfl (by decide)]
  rfl

/-- FILL whose packet `n` is the first to fail (spec/44_graphics.md R135, spec/60_exceptions.md R153). -/
theorem exec_fill_fails {s : State} {pattern : Byte} {n : Nat} {rest : List BusAnswer}
    (hn : n < (fillPackets s.cfg pattern).length) (h : s.failsAt n rest) :
    exec (.fill pattern) s =
      .next { s.sent (begunAt s.cfg (fillTransactions s.cfg pattern) n) (failedAt (fillPackets s.cfg pattern) n) rest with
        curPage := if n < (windowPackets s.cfg 0 0).length then s.curPage else 0,
        curCol := if n < (windowPackets s.cfg 0 0).length then s.curCol else 0,
        status := 0x01 } := by
  rw [fillPackets_length] at hn
  rw [exec_host_eq rfl, bodyOf, fillBody_fails (s := s.accept) hn h, endOperation_abandoned_of 0x80 0x01 rfl (by decide)]
  rfl

/-- Settles O27: FILL is its body from its acceptance, and then the end or the abort. -/
theorem fillSweepsTheDisplay : Obligations.FillSweepsTheDisplay := by
  unfold Obligations.FillSweepsTheDisplay
  refine ⟨fun pattern rest => rfl, fun s pattern rest h => exec_fill_ok ?_,
    fun s pattern n rest txs packets htxs hpackets hn h => ?_⟩
  · rwa [fillPackets_length]
  · subst htxs hpackets
    exact exec_fill_fails hn h

/-- Settles O28: the two window transactions are Command, the sweep is Data, and the packets up to the first that fails
are the transmissions attempted. -/
theorem fillCounts : Obligations.FillCounts := by
  unfold Obligations.FillCounts
  intro s pattern rest
  rw [← fillPackets_length_eq s.cfg pattern]
  refine ⟨fun h => ⟨_, _, _, exec_fill_ok h, rfl, rfl, fillTransactions_commands _ _, fillTransactions_data _ _,
    answered_length _⟩, fun N hpos hN h => ?_⟩
  have hn : N - 1 < (fillPackets s.cfg pattern).length := by omega
  exact ⟨_, _, exec_fill_fails hn h, rfl, by rw [failedAt_length hn]; omega, failedAt_filter_ok hn, rfl⟩

end Sys2Proof.Machine
end

section
/-! PROOFS, DRAW_BITMAP: the windows of the start, unless it is ignored, and then the rows of the Bitmap ROM, to the end or to
the packet that fails; and how many transactions and transmissions that is. -/

namespace Sys2Proof.Machine

/-! ### The rows and the Bitmap ROM -/

theorem bitmapTransactions_append (g : Config) (start : Page) (l m : List Nat) :
    bitmapTransactions g start (l ++ m) = bitmapTransactions g start l ++ bitmapTransactions g start m :=
  List.flatMap_append

theorem bitmapTransactions_packets (g : Config) (start : Page) (rows : List Nat) :
    (bitmapTransactions g start rows).flatMap (packetsOf g) = bitmapPackets g start rows := by
  induction rows with
  | nil => rfl
  | cons r rows ih =>
    rw [bitmapTransactions_cons, List.flatMap_append, lineTransactions_packets, ih, bitmapPackets_cons]

theorem linePackets_length_eq (g : Config) (r : Nat) (page : Page) :
    (linePackets g r page).length = 128 + if g.cmdAddrFirst then 6 else 4 := by
  rw [linePackets_length, windowPackets_length]

theorem bitmapPackets_length (g : Config) (start : Page) (rows : List Nat) :
    (bitmapPackets g start rows).length = rows.length * (128 + if g.cmdAddrFirst then 6 else 4) := by
  induction rows with
  | nil => rw [List.length_nil, Nat.zero_mul]; rfl
  | cons r rows ih =>
    rw [bitmapPackets_cons, List.length_append, linePackets_length_eq, ih, List.length_cons, Nat.succ_mul, Nat.add_comm]

/-- With `CMD_ADDR_FIRST = false` a row and its new line are 132 packets (spec/40_framer.md R93). -/
theorem bitmapPackets_length_of_not_cmdAddrFirst {g : Config} (hswitch : g.cmdAddrFirst = false) (start : Page) (n : Nat) :
    (bitmapPackets g start (List.range n)).length = n * 132 := by
  rw [bitmapPackets_length, hswitch, List.length_range]
  rfl

/-- Each row sends two Command transactions, those of its new line (spec/44_graphics.md R138). -/
theorem bitmapTransactions_commands (g : Config) (start : Page) (rows : List Nat) :
    ((bitmapTransactions g start rows).filter fun x => x.kind = .command).length = 2 * rows.length := by
  induction rows with
  | nil => rfl
  | cons r rows ih =>
    rw [bitmapTransactions_cons, List.filter_append, List.length_append, ih]
    simp [lineTransactions]
    omega

/-- The Data transactions of the rows are the rows' bytes, one after another (spec/44_graphics.md R138). -/
theorem bitmapTransactions_data (g : Config) (start : Page) (rows : List Nat) :
    (bitmapTransactions g start rows).filter (fun x => x.kind = .data) = dataTransactions (rows.flatMap (romRow g)) := by
  induction rows with
  | nil => rfl
  | cons r rows ih =>
    rw [bitmapTransactions_cons, List.filter_append, ih, List.flatMap_cons, ← bitmapRow_eq]
    simp [lineTransactions, dataTransactions]

/-- The first `n` rows, one after another, are the first `n * 128` bytes of the Bitmap ROM (spec/20_memory.md R41). -/
theorem romRows_eq (g : Config) (n : Nat) :
    (List.range n).flatMap (romRow g) = (List.range (n * 128)).map fun a => g.bitmap.getD a 0 := by
  induction n with
  | zero => rfl
  | succ n ih =>
    rw [List.range_succ, List.flatMap_append, ih, List.flatMap_singleton, Nat.succ_mul, List.range_add, List.map_append,
      List.map_map]
    rfl

/-- The Data transaction of column `column` of row `row` among those of the first `n` rows (spec/20_memory.md R41). -/
theorem bitmapTransactions_data_getElem? (g : Config) (start : Page) {n row column : Nat} (hrow : row < n)
    (hcolumn : column < 128) :
    ((bitmapTransactions g start (List.range n)).filter fun x => x.kind = .data)[row * 128 + column]? =
      some ⟨.data, 0x00, [g.bitmap.getD (row * 128 + column) 0]⟩ := by
  have hlt : row * 128 + column < n * 128 := by omega
  rw [bitmapTransactions_data, romRows_eq, dataTransactions, List.map_map, List.getElem?_map, List.getElem?_range hlt]
  rfl

theorem bitmapTransactions_data_length (g : Config) (start : Page) (n : Nat) :
    ((bitmapTransactions g start (List.range n)).filter fun x => x.kind = .data).length = 128 * n := by
  rw [bitmapTransactions_data, romRows_eq, dataTransactions_length, List.length_map, List.length_range, Nat.mul_comm]

/-! ### DRAW_BITMAP with every packet answered ok -/

/-- DRAW_BITMAP from a start in range (spec/44_graphics.md R138). -/
theorem exec_drawBitmap_ok {s : State} {p c : Byte} {rest : List BusAnswer} (hin : positionInRange p c = true)
    (h : s.answersOk ((windowPackets s.cfg p c).length +
      (bitmapPackets s.cfg (byteToPage p) (List.range s.cfg.bitmapRows)).length) rest) :
    exec (.drawBitmap p c) s =
      .next { s.sent (windowTransactions s.cfg p c ++ bitmapTransactions s.cfg (byteToPage p) (List.range s.cfg.bitmapRows))
          (answered (windowPackets s.cfg p c ++ bitmapPackets s.cfg (byteToPage p) (List.range s.cfg.bitmapRows))) rest with
        curPage := BitVec.ofNat 3 (((byteToPage p).toNat + s.cfg.bitmapRows) % 8),
        curCol := if s.cfg.bitmapRows = 0 then c else 0,
        status := 0x00 } := by
  rw [exec_host_eq rfl, bodyOf, drawBitmapBody_ok (s := s.accept) hin h, endOperation_done_of 0x80 0x00 rfl (by decide)]
  rfl

/-- DRAW_BITMAP from a start out of range, which sends its rows all the same (spec/44_graphics.md R138, R140). -/
theorem exec_drawBitmap_rejected {s : State} {p c : Byte} {rest : List BusAnswer} (hout : positionInRange p c = false)
    (hidle : s.cfg.bitmapRows = 0 → s.inFlight = none)
    (h : s.answersOk (bitmapPackets s.cfg s.curPage (List.range s.cfg.bitmapRows)).length rest) :
    exec (.drawBitmap p c) s =
      .next { s.sent (bitmapTransactions s.cfg s.curPage (List.range s.cfg.bitmapRows))
          (answered (bitmapPackets s.cfg s.curPage (List.range s.cfg.bitmapRows))) rest with
        curPage := BitVec.ofNat 3 ((s.curPage.toNat + s.cfg.bitmapRows) % 8),
        curCol := if s.cfg.bitmapRows = 0 then s.curCol else 0,
        status := 0x02 } := by
  have hstatus : s.accept.status ||| 0x02 = 0x82 := show acceptedStatus ||| 0x02 = 0x82 by decide
  rw [exec_host_eq rfl, bodyOf, drawBitmapBody_rejected (s := s.accept) hout h hidle,
    endOperation_done_of 0x82 0x02 hstatus (by decide)]
  rfl

/-- Without rows DRAW_BITMAP is SET_CURSOR to its start (spec/44_graphics.md R138). -/
theorem exec_drawBitmap_noRows {s : State} (p c : Byte) (hrows : s.cfg.bitmapRows = 0) :
    exec (.drawBitmap p c) s = exec (.setCursor p c) s := by
  have hcfg := (setCursor_effect p c s.accept).frame.cfg
  rw [exec_host_eq rfl, exec_host_eq rfl, bodyOf, bodyOf, drawBitmapBody_run, andThen]
  revert hcfg
  rcases (setCursor p c).run s.accept with ⟨t, _ | _ | _⟩ <;> intro hcfg
  case done =>
    have hcfg : t.cfg = s.cfg := hcfg
    simp only [hcfg, hrows, List.range_zero, forEach_nil]
  case abandoned => rfl
  case waiting => rfl

/-- Settles O29: the rows follow the start's windows, and their bytes are the Bitmap ROM's in order. -/
theorem drawBitmapCompletes : Obligations.DrawBitmapCompletes := by
  unfold Obligations.DrawBitmapCompletes
  intro s t p c rest start hp hc hstart h ht
  obtain rfl := hstart.trans (byteToPage_eq p).symm
  have hpage : (byteToPage p).toNat = p.toNat := by
    rw [byteToPage_eq, BitVec.toNat_ofNat]
    omega
  subst ht
  refine ⟨?_, fun row column hrow hcolumn => ?_⟩
  · rw [exec_drawBitmap_ok ((positionInRange_iff p c).2 ⟨hp, hc⟩) h, hpage]
  · rw [← bitmapTransactions_data_getElem? s.cfg (byteToPage p) hrow hcolumn]
    simp [State.sent]

/-- Settles O30: the rejected start sets IGN, and the rows start from the page the Cursor has. -/
theorem drawBitmapWithRejectedStart : Obligations.DrawBitmapWithRejectedStart := by
  unfold Obligations.DrawBitmapWithRejectedStart
  intro s p c rest hout hidle h
  exact exec_drawBitmap_rejected (positionInRange_false hout) (fun _ => hidle) h

/-! ### The counts of DRAW_BITMAP -/

/-- Settles O31: two Command transactions for the start, if it is accepted, and for each row; 128 Data transactions a row. -/
theorem drawBitmapCounts : Obligations.DrawBitmapCounts := by
  unfold Obligations.DrawBitmapCounts
  intro s p c rest windows hswitch hwindows h
  have hlength := (bitmapPackets_length_of_not_cmdAddrFirst hswitch · s.cfg.bitmapRows)
  have hwindow : (windowPackets s.cfg p c).length = 4 := by
    rw [windowPackets_length, hswitch]
    rfl
  split at hwindows <;> subst hwindows
  next hin =>
    refine ⟨_, _, _, exec_drawBitmap_ok ((positionInRange_iff p c).2 hin) (by rw [hwindow, hlength]; exact h), rfl, rfl,
      ?_, ?_, ?_⟩
    · rw [List.filter_append, List.length_append, bitmapTransactions_commands, List.length_range]
      rfl
    · rw [List.filter_append, List.length_append, bitmapTransactions_data_length, windowTransactions_filter_data]
      exact Nat.zero_add _
    · rw [answered_length, List.length_append, hlength, hwindow]
  next hout =>
    have hrejected : positionInRange p c = false := positionInRange_false (by omega)
    by_cases hrows : s.cfg.bitmapRows = 0
    · exact ⟨_, [], [], (exec_drawBitmap_noRows p c hrows).trans (exec_setCursor_ignored hrejected),
        (List.append_nil _).symm, (List.append_nil _).symm, by simp [hrows], by simp [hrows], by simp [hrows]⟩
    · rw [Nat.mul_zero, Nat.zero_add] at h
      refine ⟨_, _, _, exec_drawBitmap_rejected hrejected (absurd · hrows) (by rw [hlength]; exact h), rfl, rfl, ?_,
        bitmapTransactions_data_length _ _ _, ?_⟩
      · rw [bitmapTransactions_commands, List.length_range, Nat.zero_add]
      · rw [answered_length, hlength, Nat.mul_zero, Nat.zero_add]

/-! ### DRAW_BITMAP with one packet failing -/

/-- Row `r` among the first `n` rows: those before it, it, and those after it. -/
theorem range_split {r n : Nat} (hr : r < n) : ∃ after, List.range n = List.range r ++ r :: after := by
  obtain ⟨m, rfl⟩ : ∃ m, n = r + (m + 1) := ⟨n - r - 1, by omega⟩
  refine ⟨List.range' (r + 1) m, ?_⟩
  rw [List.range_add, ← List.range'_eq_map_range, List.range'_succ]

/-- A failure in packet `k` of row `r` comes after the rows before and stops in that row's line. -/
theorem bitmapPackets_failedAt (g : Config) (start : Page) {n r k : Nat} (hr : r < n)
    (hk : k < (linePackets g r (start + BitVec.ofNat 3 r)).length) :
    failedAt (bitmapPackets g start (List.range n)) ((bitmapPackets g start (List.range r)).length + k) =
      answered (bitmapPackets g start (List.range r)) ++ failedAt (linePackets g r (start + BitVec.ofNat 3 r)) k := by
  obtain ⟨after, hrange⟩ := range_split hr
  rw [hrange, bitmapPackets_append, bitmapPackets_cons,
    failedAt_append_right _ (by rw [List.length_append]; omega), failedAt_append_left _ hk]

/-- The transactions begun by then are those of the rows before, and those begun in that row's line. -/
theorem bitmapTransactions_begunAt (g : Config) (start : Page) {n r k : Nat} (hr : r < n)
    (hk : k < (linePackets g r (start + BitVec.ofNat 3 r)).length) :
    begunAt g (bitmapTransactions g start (List.range n)) ((bitmapPackets g start (List.range r)).length + k) =
      bitmapTransactions g start (List.range r) ++ begunAt g (lineTransactions g r (start + BitVec.ofNat 3 r)) k := by
  obtain ⟨after, hrange⟩ := range_split hr
  rw [hrange, bitmapTransactions_append, bitmapTransactions_cons, ← bitmapTransactions_packets, begunAt_append_right,
    begunAt_append_left _ _ (by rw [lineTransactions_packets]; exact hk)]

/-- The first `r` rows drawn from the page the Cursor has, every packet answered ok, as what is sent next sees them: it
does not tell whether anything was in flight before the rows (spec/44_graphics.md R138). -/
theorem rows_before {s : State} {more : List BusAnswer} (r : Nat)
    (h : s.answersOk (bitmapPackets s.cfg s.curPage (List.range r)).length more) :
    ∃ t, (forEach bitmapLine (List.range r)).run s = (t, .done) ∧ t.cfg = s.cfg ∧
      t.curPage = s.curPage + BitVec.ofNat 3 r ∧ t.answers = more ∧
      ∀ txs es rest, t.sent txs es rest =
        { s.sent (bitmapTransactions s.cfg s.curPage (List.range r) ++ txs)
            (answered (bitmapPackets s.cfg s.curPage (List.range r)) ++ es) rest with
          curPage := s.curPage + BitVec.ofNat 3 r, curCol := if r = 0 then s.curCol else 0 } := by
  rw [List.range_eq_range'] at h ⊢
  refine ⟨_, rows_ok r (BitVec.add_zero _).symm h, ?_⟩
  by_cases hz : r = 0
  · subst hz
    simpa [State.sent, bitmapTransactions, bitmapPackets, State.answersOk] using h
  · rw [if_neg hz, if_neg hz, Nat.zero_add]
    refine ⟨rfl, rfl, rfl, fun txs es rest => ?_⟩
    rw [← State.sent_sent (r := more)]
    rfl

/-- Rows drawn from the page the Cursor has, when packet `k` of row `r` and its new line is the first to fail: the page has
advanced by the new lines begun (spec/44_graphics.md R138, spec/60_exceptions.md R153). -/
theorem rows_fail {s : State} {n r k : Nat} {rest : List BusAnswer} (hr : r < n)
    (hk : k < (linePackets s.cfg r (s.curPage + BitVec.ofNat 3 r)).length)
    (h : s.failsAt ((bitmapPackets s.cfg s.curPage (List.range r)).length + k) rest) :
    (forEach bitmapLine (List.range n)).run s =
      ({ s.sent (begunAt s.cfg (bitmapTransactions s.cfg s.curPage (List.range n))
            ((bitmapPackets s.cfg s.curPage (List.range r)).length + k))
          (failedAt (bitmapPackets s.cfg s.curPage (List.range n))
            ((bitmapPackets s.cfg s.curPage (List.range r)).length + k)) rest with
        curPage := s.curPage + BitVec.ofNat 3 (r + if k < 128 then 0 else 1),
        curCol := if r = 0 then s.curCol else 0 }, .abandoned) := by
  obtain ⟨after, hrange⟩ := range_split hr
  rw [bitmapTransactions_begunAt _ _ hr hk, bitmapPackets_failedAt _ _ hr hk, hrange, forEach_append]
  rw [State.failsAt, replicate_ok_add] at h
  obtain ⟨t, hbefore, hcfg, hpage, hanswers, hsent⟩ := rows_before r h
  rw [← hcfg, ← hpage] at hk
  rw [andThen_done hbefore, forEach_cons, andThen_abandoned (bitmapLine_fails hk hanswers), hsent, hcfg, hpage]
  by_cases hlt : k < 128
  · rw [if_pos hlt, if_pos hlt]
    rfl
  · rw [if_neg hlt, if_neg hlt, BitVec.ofNat_add, ← BitVec.add_assoc]
    rfl

theorem page_ofNat_mod (n : Nat) : BitVec.ofNat 3 (n % 8) = BitVec.ofNat 3 n := by
  apply BitVec.eq_of_toNat_eq
  simp

/-- DRAW_BITMAP from a start in range whose packet `n` is a window packet of the start and the first to fail
(spec/44_graphics.md R138, spec/60_exceptions.md R153). -/
theorem exec_drawBitmap_fails_inStart {s : State} {p c : Byte} {n : Nat} {rest : List BusAnswer}
    (hin : positionInRange p c = true) (hn : n < (windowPackets s.cfg p c).length) (h : s.failsAt n rest) :
    exec (.drawBitmap p c) s =
      .next { s.sent (begunAt s.cfg (windowTransactions s.cfg p c) n) (failedAt (windowPackets s.cfg p c) n) rest with
        status := 0x01 } := by
  rw [exec_host_eq rfl, bodyOf, drawBitmapBody_run, andThen_abandoned (setCursor_fails (s := s.accept) hin hn h),
    endOperation_abandoned_of 0x80 0x01 rfl (by decide)]
  rfl

/-- Where the rows of DRAW_BITMAP start, when the failing packet comes `m` packets after the windows `windows` of the start:
at the start, or, if the start is ignored, where the Cursor was (spec/44_graphics.md R138, R140). -/
theorem setCursor_then_rows {s : State} {p c column : Byte} {start m : Nat} {windows : List Packet} {rest : List BusAnswer}
    (hstart : if p.toNat ≤ 7 ∧ c.toNat ≤ 126 then start = p.toNat ∧ column = c ∧ windows = windowPackets s.cfg p c
      else start = s.curPage.toNat ∧ column = s.curCol ∧ windows = [])
    (h : s.failsAt (windows.length + m) rest) :
    ∃ u, (setCursor p c).run s.accept = (u, .done) ∧ u.cfg = s.cfg ∧
      u.status = (if p.toNat ≤ 7 ∧ c.toNat ≤ 126 then 0x80 else 0x82) ∧ u.curPage = BitVec.ofNat 3 start ∧
      u.curCol = column ∧ u.wtrace = s.wtrace ++ answered windows ∧ u.failsAt m rest := by
  split at hstart <;> obtain ⟨rfl, rfl, rfl⟩ := hstart
  next hin =>
    rw [State.failsAt, replicate_ok_add] at h
    rw [if_pos hin]
    exact ⟨_, setCursor_ok (s := s.accept) ((positionInRange_iff p column).2 hin) h, rfl, rfl, byteToPage_eq p, rfl, rfl, rfl⟩
  next hout =>
    rw [List.length_nil, Nat.zero_add] at h
    rw [if_neg hout]
    exact ⟨_, setCursor_outOfRange (positionInRange_false (by omega)) _, rfl,
      show acceptedStatus ||| flagMask .ign = 0x82 by decide, by simp, rfl, (List.append_nil _).symm, h⟩

/-- Settles O32: the start's windows or the rows stop at the failing packet, and the abort keeps IGN. -/
theorem drawBitmapAbortsAtFirstBusError : Obligations.DrawBitmapAbortsAtFirstBusError := by
  unfold Obligations.DrawBitmapAbortsAtFirstBusError
  intro s p c rest hswitch
  have hlength := bitmapPackets_length_of_not_cmdAddrFirst hswitch
  refine ⟨fun n hp hc hn h => exec_drawBitmap_fails_inStart ((positionInRange_iff p c).2 ⟨hp, hc⟩)
    (by rw [windowPackets_length, hswitch]; exact hn) h, fun r k start page column windows hr hk hstart hpage h => ?_⟩
  rw [Nat.add_assoc] at h ⊢
  obtain ⟨u, hset, hcfg, hstatus, hcur, hcol, hwire, hfails⟩ := setCursor_then_rows hstart h
  have hlines := rows_fail (s := u) (k := k) hr (by rw [linePackets_length_eq, hcfg, hswitch]; exact hk)
    (by rw [hcfg, hlength]; exact hfails)
  rw [hcfg, hlength] at hlines
  refine ⟨_, by rw [exec_host_eq rfl, bodyOf, drawBitmapBody_run, andThen_done hset, hcfg, hlines, endOperation_abandoned],
    ?_, ?_, ?_, ?_⟩
  · change (u.status ||| 0x01) &&& 0x7F = _
    rw [hstatus]
    split <;> rfl
  · change u.curPage + _ = _
    rw [hcur, hpage, page_ofNat_mod, Nat.add_assoc, BitVec.ofNat_add start]
  · change (if r = 0 then u.curCol else 0) = _
    rw [hcol]
  · have hlt : r * 132 + k < (bitmapPackets s.cfg (BitVec.ofNat 3 start) (List.range s.cfg.bitmapRows)).length := by
      rw [hlength]
      omega
    change u.wtrace ++ failedAt (bitmapPackets s.cfg u.curPage _) (r * 132 + k) = _
    rw [hwire, hcur, List.append_assoc, failedAt_append_right _ hlt]

end Sys2Proof.Machine
end

section
/-! PROOFS, the reserved opcodes: each is one whole command, which sets ILL and does nothing else. -/

namespace Sys2Proof.Machine

/-- The reserved opcodes are 0x00 and those from 0x08 on (spec/30_encoding.md R64). -/
theorem reservedOpcode_iff_toNat (op : Byte) : reservedOpcode op = true ↔ op.toNat = 0 ∨ 8 ≤ op.toNat := by
  simp only [reservedOpcode, Bool.or_eq_true, beq_iff_eq, decide_eq_true_eq]

/-- Settles O33: the decoder takes no operand, and ILL is all that is left of STATUS when BUSY is cleared at the end. -/
theorem reservedOpcodeOnlySetsIllegal : Obligations.ReservedOpcodeOnlySetsIllegal := by
  unfold Obligations.ReservedOpcodeOnlySetsIllegal
  intro op hop
  exact ⟨decode_reserved ((reservedOpcode_iff_toNat op).2 hop), exec_reserved op⟩

end Sys2Proof.Machine
end

section
/-! PROOFS, reset and the ports: the reset input is served at any time and leaves what both invariants allow; a transmission
without an answer holds the engine; between two lines an operation stands at the stage that has elapsed. -/

namespace Sys2Proof.Machine

/-! ### The reset -/

/-- Settles O34: a reset is what the rule lists, field by field. -/
theorem resetState : Obligations.ResetState := by
  unfold Obligations.ResetState
  exact ⟨⟨rfl, rfl, rfl, rfl, rfl, rfl, rfl⟩, fun s => ⟨rfl, rfl, rfl, rfl, rfl, rfl, rfl, rfl, rfl⟩⟩

/-- A reset input that is next is served, whether the engine idles, waits or stands between two lines
(spec/70_reset_and_hazards.md R181, R195). -/
theorem nextEvent_reset {s : State} {after : List HostAction} (hh : s.host = .reset :: after)
    (hs : s.pending = [] ∨ s.inFlight ≠ none ∨ s.running ≠ none) :
    nextEvent s = .settle ({ s with host := after }.resetInput) := by
  by_cases hf : s.inFlight = none
  · obtain hr | ⟨r, hr⟩ := Option.eq_none_or_eq_some s.running
    · rw [nextEvent_idle hf hr (by simpa [hf, hr] using hs)]
      simp only [idleEvent, hh]
    · rw [nextEvent_betweenLines hf hr]
      simp only [betweenLinesEvent, hh]
  · rw [nextEvent_waiting hf]
    simp only [busyEvent, hh]

/-- Settles O35: the step is the reset input. -/
theorem resetInputAtAnyTime : Obligations.ResetInputAtAnyTime := by
  unfold Obligations.ResetInputAtAnyTime
  intro s after hh hs
  exact ⟨_, step_settle (nextEvent_reset hh hs), rfl, rfl, rfl, rfl, rfl, rfl, rfl, rfl, rfl, rfl, rfl, rfl⟩

/-! ### The parameters at reset are well formed -/

theorem chipFontWidth_pos : 1 ≤ Config.chipFontWidth := Nat.le_add_left 1 _

theorem chipFontWidth_le : Config.chipFontWidth ≤ 128 := Config.fontWidthOpen.isLt

theorem chip_font_getD {a : Nat} (ha : a < 128 * Config.chipFontWidth) :
    Config.chip.font.getD a 0 = Config.chipFontByte a := by
  simp [Config.chip, ha]

/-- Slice `i` of code `c` lies in the row of `c` (spec/20_memory.md R40). -/
theorem chipFontByte_row {c i : Nat} (hi : i < Config.chipFontWidth) :
    Config.chipFontByte (c * Config.chipFontWidth + i) =
      if controlCode c then 0 else Config.fontOpen (c * Config.chipFontWidth + i) := by
  have hrow : (c * Config.chipFontWidth + i) / Config.chipFontWidth = c := by
    rw [Nat.mul_comm, Nat.mul_add_div chipFontWidth_pos, Nat.div_eq_of_lt hi, Nat.add_zero]
  rw [Config.chipFontByte, hrow]

/-- The rows of the control codes are blank whatever the open bytes are (spec/92_eei_decisions.md D15). -/
theorem chip_fontBlankControls : Config.chip.fontBlankControls = true := by
  simp only [Config.fontBlankControls, List.all_eq_true, List.mem_range, Bool.or_eq_true, Bool.not_eq_true', beq_iff_eq]
  intro c hc
  rcases hcontrol : controlCode c with _ | _
  · exact .inl rfl
  · refine .inr fun i hi => ?_
    have hbound : c * Config.chipFontWidth + i < 128 * Config.chipFontWidth :=
      calc c * Config.chipFontWidth + i < (c + 1) * Config.chipFontWidth := by
            rw [Nat.succ_mul]; exact Nat.add_lt_add_left hi _
        _ ≤ 128 * Config.chipFontWidth := Nat.mul_le_mul_right _ hc
    rw [show Config.chip.fontWidth = Config.chipFontWidth from rfl, chip_font_getD hbound, chipFontByte_row hi,
      if_pos hcontrol]

/-- The open parameters meet their constraints (spec/00_scope.md R10). -/
theorem chip_wf : Config.chip.wf = true := by
  have hprint : Config.printMaxOpen.val + 1 ≤ 255 := Config.printMaxOpen.isLt
  simp only [Config.wf, Bool.and_eq_true, decide_eq_true_eq, beq_iff_eq, bne_iff_ne]
  exact ⟨⟨⟨⟨⟨⟨⟨chipFontWidth_pos, chipFontWidth_le⟩, by simp [Config.chip]⟩, chip_fontBlankControls⟩,
    Nat.le_add_left 1 _⟩, hprint⟩, by simp [Config.chip]⟩, show (0x40 : Byte) ≠ 0 by decide⟩

/-- Settles O49: a reset state is what the reset input leaves, which meets both invariants when the parameters are well
formed. -/
theorem resetMeetsInvariants : Obligations.ResetMeetsInvariants := by
  unfold Obligations.ResetMeetsInvariants
  have hreset : State.reset.resetInput = State.reset := rfl
  rw [← hreset]
  exact ⟨resetInput_registersLegal chip_wf, resetInput_portsConsistent _⟩

/-! ### What holds the engine -/

theorem step_refuse {s : State} {r : Refusal} (h : nextEvent s = .refuse r) : step s = .refused r := by
  simp only [step, h]

/-- A transmission without an answer: nothing is done but at the ports (spec/70_reset_and_hazards.md R190). -/
theorem step_waiting_silent {s : State} (hf : s.inFlight ≠ none) (hh : s.host = []) : step s = .next s :=
  step_settle (by rw [nextEvent_waiting hf]; simp only [busyEvent, hh])

theorem step_waiting_elapse {s : State} {n : Nat} {after : List HostAction} (hf : s.inFlight ≠ none)
    (hh : s.host = .elapse n :: after) : step s = .next { s with host := after } :=
  step_settle (by rw [nextEvent_waiting hf]; simp only [busyEvent, hh])

/-- A byte for CMD has no step while a body waits or stands between two lines (spec/70_reset_and_hazards.md R186). -/
theorem step_busy_cmd {s : State} {b : Byte} {after : List HostAction} (hs : s.inFlight ≠ none ∨ s.running ≠ none)
    (hh : s.host = .cmd b :: after) : step s = .refused .commandWhileBusy := by
  apply step_refuse
  by_cases hf : s.inFlight = none
  · obtain ⟨r, hr⟩ := Option.ne_none_iff_exists'.1 (hs.resolve_left (absurd hf))
    rw [nextEvent_betweenLines hf hr]
    simp only [betweenLinesEvent, hh]
  · rw [nextEvent_waiting hf]
    simp only [busyEvent, hh]

/-- A transport answers transmissions only (spec/20_memory.md R44). -/
theorem step_unsolicited {s : State} {a : BusAnswer} {after : List HostAction} (hf : s.inFlight = none)
    (hs : s.running ≠ none ∨ s.pending = []) (hh : s.host = .answer a :: after) :
    step s = .refused .unsolicitedAnswer := by
  apply step_refuse
  obtain hr | ⟨r, hr⟩ := Option.eq_none_or_eq_some s.running
  · rw [nextEvent_idle hf hr (hs.resolve_left (absurd hr))]
    simp only [idleEvent, hh]
  · rw [nextEvent_betweenLines hf hr]
    simp only [betweenLinesEvent, hh]

/-- Settles O44: what the next step does at the ports, while a transmission is unanswered and while none is. -/
theorem unansweredTransmissionHoldsTheEngine : Obligations.UnansweredTransmissionHoldsTheEngine := by
  unfold Obligations.UnansweredTransmissionHoldsTheEngine
  exact ⟨fun s hf => ⟨step_waiting_silent hf, fun n after => step_waiting_elapse hf,
      fun b after => step_busy_cmd (.inl hf)⟩,
    fun s b after hr => step_busy_cmd (.inr hr), fun s a after => step_unsolicited⟩

/-! ### Between two lines -/

/-- Settles O37: the step starts the command, which goes on for the lines that elapse and stands at the stage after them. -/
theorem operationStandsBetweenLines : Obligations.OperationStandsBetweenLines := by
  unfold Obligations.OperationStandsBetweenLines
  intro s t v i bytes n after hflight hrun hpending hbytes hhost hdecode ht hv hn
  have hevent := (nextEvent_idle hflight hrun hpending).trans
    ((idleEvent_bytes hbytes hhost).trans (fetchCommand_complete hhost hdecode))
  obtain ⟨u, -, hstep, -⟩ := step_startRun hevent hrun ht
  have hidle : t.inFlight = none := by rw [ht]; exact hflight
  have hpass := stages_pass i t (List.mem_of_getElem? hv)
  exact ⟨hstep.trans (congrArg _ (goOn_elapsed hv hn)),
    (stage_settled hidle (mem_dropLast_of_getElem? hv hn)).2, hpass.host.trans (by rw [ht])⟩

end Sys2Proof.Machine
end

section
/-! PROOFS, line by line: the stages of the cursor operations, of INIT and of the reserved opcodes. -/

namespace Sys2Proof.Machine

/-! ### What the Framer's lines leave alone -/

/-- A state on the way of two pieces is on the way of the first, or the first has ended and it is on the way of the second. -/
theorem Prog.mem_trail_seq {a b : Prog} {s v : State} (h : v ∈ (Prog.seq a b).trail s) :
    v ∈ a.trail s ∨ ∃ t, a.run s = (t, .done) ∧ v ∈ b.trail t := by
  by_cases hd : (a.run s).2 = .done
  · have hs : a.run s = ((a.run s).1, .done) := by rw [← hd]
    rw [Prog.trail_seq_done hs] at h
    exact (List.mem_append.1 h).imp_right fun h => ⟨_, hs, h⟩
  · rw [Prog.trail_seq_ended hd] at h
    exact .inl h

theorem sends_trail_sameRegisters {ps : List Packet} :
    ∀ {s v : State}, v ∈ (forEach .send ps).trail s → SameRegisters s v := by
  induction ps with
  | nil => exact nofun
  | cons p ps ih =>
    intro s v h
    have hsend := (send_frame p s).2
    rcases Prog.mem_trail_seq h with h | ⟨t, ht, h⟩
    · rw [Prog.trail_send] at h
      split at h
      · exact nomatch h
      · rwa [List.mem_singleton.1 h]
    · rw [Prog.run_send] at ht
      rw [ht] at hsend
      exact hsend.trans (ih h)

/-- No line of a transaction writes an engine register (spec/40_framer.md R90). -/
theorem write_trail_sameRegisters {t : Transaction} {s v : State} (h : v ∈ (write t).trail s) : SameRegisters s v := by
  rcases Prog.mem_trail_seq h with h | ⟨u, hu, h⟩
  · rw [List.mem_singleton.1 h]
    exact ⟨rfl, rfl, rfl⟩
  · have hregs : SameRegisters s u := by
      rw [← (Prod.mk.inj hu).1]
      exact ⟨rfl, rfl, rfl⟩
    exact hregs.trans (sends_trail_sameRegisters h)

/-! ### A body of one flag -/

/-- A host operation that only sets a flag has three stages (spec/10_state.md R26). -/
theorem stages_flag {i : Instr} {f : Flag} {v w : Byte} (hi : i.isHostCommand = true) (hbody : bodyOf i = .line (.flag f))
    (hv : acceptedStatus ||| flagMask f = v) (hw : v &&& 0x7F = w) (s : State) :
    stages i s = [{ s with status := 0x80 }, { s with status := v }, { s with status := w }] := by
  subst hv hw
  rw [stages_host hi, hbody]
  rfl

/-! ### `set_cursor` in range -/

theorem endStages_done (t : State) : endStages true (t, .done) = [endOperation (t, .done)] := rfl

theorem windowPackets_eq (g : Config) (p c : Byte) :
    windowPackets g p c = packetsOf g (columnWindow g c) ++ packetsOf g (pageWindow g p) := by
  rw [← windowTransactions_packets, windowTransactions_eq]
  simp

/-- The windows, every packet answered ok: the first ends, and from there the second (spec/42_cursor.md R110). -/
theorem windows_run_ok {p c : Byte} {s : State} {rest : List BusAnswer}
    (h : s.answersOk (windowPackets s.cfg p c).length rest) :
    ∃ t, (write (columnWindow s.cfg c)).run s = (t, .done) ∧ (write (pageWindow s.cfg p)).run t =
      (s.sent (windowTransactions s.cfg p c) (answered (windowPackets s.cfg p c)) rest, .done) := by
  rw [State.answersOk, windowPackets_eq, List.length_append, replicate_ok_add] at h
  refine ⟨_, write_ok h, ?_⟩
  rw [write_ok (rest := rest) (by rfl), State.sent_sent, State.sent_cfg, ← answered_append, ← windowPackets_eq,
    windowTransactions_eq, List.singleton_append]

/-- `set_cursor` in range, every packet answered ok: the windows, at whose lines no register is written, and then the page
before the column (spec/42_cursor.md R110). -/
theorem setCursor_trail_ok {p c : Byte} (hin : positionInRange p c = true) {s u : State} {rest : List BusAnswer}
    (h : s.answersOk (windowPackets s.cfg p c).length rest)
    (hu : u = s.sent (windowTransactions s.cfg p c) (answered (windowPackets s.cfg p c)) rest) :
    ∃ windows, (setCursor p c).trail s = windows ++ [u.setPage (byteToPage p), (u.setPage (byteToPage p)).setCol c] ∧
      ∀ v ∈ windows, SameRegisters s v := by
  obtain ⟨t, hcolumn, hpage⟩ := windows_run_ok h
  rw [← hu] at hpage
  have htrail : (setCursor p c).trail s = (write (columnWindow s.cfg c)).trail s ++
      ((write (pageWindow s.cfg p)).trail t ++ (placeCursor p c).trail u) := by
    rw [setCursor, if_pos hin, ← Prog.trail_seq_done hpage]
    exact Prog.trail_seq_done hcolumn
  refine ⟨_, htrail.trans (List.append_assoc _ _ _).symm, fun v hv => ?_⟩
  rcases List.mem_append.1 hv with hv | hv
  · exact write_trail_sameRegisters hv
  · have hregs := (write_frame (columnWindow s.cfg c) s).2
    rw [hcolumn] at hregs
    exact hregs.trans (write_trail_sameRegisters hv)

/-- SET_CURSOR in range, every packet answered ok (spec/42_cursor.md R111). -/
theorem stages_setCursor_ok {p c : Byte} (hin : positionInRange p c = true) {s u : State} {rest : List BusAnswer}
    (h : s.answersOk (windowPackets s.cfg p c).length rest)
    (hu : u = s.sent (windowTransactions s.cfg p c) (answered (windowPackets s.cfg p c)) rest) :
    ∃ before, stages (.setCursor p c) s = before ++
        [{ u with curPage := byteToPage p, status := 0x80 }, { u with curPage := byteToPage p, curCol := c, status := 0x80 },
          { u with curPage := byteToPage p, curCol := c, status := 0x00 }] ∧
      ∀ v ∈ before, SameRegisters s.accept v := by
  subst hu
  obtain ⟨windows, htrail, hregs⟩ := setCursor_trail_ok (s := s.accept) hin h rfl
  refine ⟨s.accept :: windows, ?_, List.forall_mem_cons.2 ⟨.refl _, hregs⟩⟩
  rw [stages_host rfl, bodyOf, htrail, setCursor_ok (s := s.accept) hin h, List.append_assoc, endStages_done,
    endOperation_done_of 0x80 0x00 rfl (by decide)]
  rfl

/-! ### The page first -/

/-- NEW_LINE writes the page before it transmits (spec/42_cursor.md R112). -/
theorem stages_newLine (s : State) : ∃ after, stages .newLine s =
    s.accept :: s.accept.setPage (nextPage s.curPage) :: after :=
  ⟨_, rfl⟩

/-- INIT writes the page, then the column, before it transmits (spec/41_init.md R100). -/
theorem stages_init (s : State) : ∃ after, stages .init s =
    s.accept :: s.accept.setPage 0 :: (s.accept.setPage 0).setCol 0 :: after :=
  ⟨_, rfl⟩

/-- Settles O39: the first stages of an operation are its acceptance and its first lines, and those of `set_cursor` end
with the two register writes. -/
theorem cursorStagesLineByLine : Obligations.CursorStagesLineByLine := by
  unfold Obligations.CursorStagesLineByLine
  refine ⟨fun s p c hout => ?_, fun s u p c rest hp hc h hu => ?_, fun s => ?_, fun s => ?_, fun s op => ?_⟩
  · have hbody : setCursor p c = .line (.flag .ign) := by
      rw [setCursor, if_neg (by rw [positionInRange_false hout]; decide)]
    exact stages_flag (i := .setCursor p c) rfl hbody (by decide) (by decide) s
  · obtain ⟨before, hstages, hregs⟩ := stages_setCursor_ok ((positionInRange_iff p c).2 ⟨hp, hc⟩) h hu
    rw [← byteToPage_eq]
    exact ⟨before, hstages, fun v hv => ⟨(hregs v hv).curPage, (hregs v hv).curCol, (hregs v hv).status⟩⟩
  · obtain ⟨after, hstages⟩ := stages_newLine s
    rw [hstages, ← page_next]
    rfl
  · obtain ⟨after, hstages⟩ := stages_init s
    rw [hstages]
    exact ⟨rfl, rfl⟩
  · exact stages_flag (i := .reserved op) rfl rfl (by decide) (by decide) s

end Sys2Proof.Machine
end

section
/-! PROOFS, bounds: how many transactions each piece of an operation issues and how many transmissions it makes, at most. -/

namespace Sys2Proof.Machine

/-! ### Transactions -/

/-- Transactions one after another make no more transmissions than their packets (spec/40_framer.md R93). -/
theorem writeAll_atMost {g : Config} (ts : List Transaction) : ∀ {s : State}, s.cfg = g →
    AtMost ts.length (ts.flatMap (packetsOf g)).length s ((forEach write ts).run s) := by
  induction ts with
  | nil => exact fun _ => ⟨rfl, Nat.le_refl _, Nat.le_refl _⟩
  | cons t ts ih =>
    rintro s rfl
    rw [forEach_cons, List.length_cons, List.flatMap_cons, List.length_append, Nat.add_comm ts.length]
    exact (write_atMost t s).andThen fun u hu => ih hu

/-- A piece whose start leaves the parameters and the traces alone is bounded as from before that start. -/
theorem AtMost.of_start {m n : Nat} {s t : State} {r : State × Flow} (h : AtMost m n t r) (hc : t.cfg = s.cfg)
    (ht : t.ttrace = s.ttrace) (hw : t.wtrace = s.wtrace) : AtMost m n s r :=
  ⟨h.cfg.trans hc, ht ▸ h.issued, hw ▸ h.sent⟩

/-! ### The pieces -/

/-- How many packets two windows are (spec/42_cursor.md R110). -/
def windowCount (g : Config) : Nat := if g.cmdAddrFirst then 6 else 4

theorem windowCount_of_not_cmdAddrFirst {g : Config} (h : g.cmdAddrFirst = false) : windowCount g = 4 := by
  rw [windowCount, h]
  rfl

section
variable {g : Config} {s : State} (hs : s.cfg = g)
include hs

theorem setCursor_atMost (p c : Byte) : AtMost 2 (windowCount g) s ((setCursor p c).run s) := by
  cases hin : positionInRange p c with
  | false =>
    rw [setCursor_outOfRange hin]
    exact (atMost_writes (s := s) (t := s.setFlag .ign) rfl rfl rfl).mono (Nat.zero_le _) (Nat.zero_le _)
  | true =>
    have h := writeAll_atMost (windowTransactions g p c) hs
    rw [windowTransactions_packets, windowPackets_length] at h
    rw [setCursor_windows hin, hs]
    exact h.andThen (g := (placeCursor p c).run) fun t _ => atMost_writes (s := t) rfl rfl rfl

theorem newLine_atMost : AtMost 2 (windowCount g) s (newLine.run s) := by
  rw [newLine_run]
  exact (setCursor_atMost (s := s.setPage (nextPage s.curPage)) hs _ 0).of_start rfl rfl rfl

theorem sweep_atMost (l : List Byte) : AtMost l.length l.length s ((sweep l).run s) := by
  have h := writeAll_atMost (dataTransactions l) hs
  rw [dataTransactions_packets, dataPackets_length] at h
  rw [sweep_eq]
  exact h.mono (by simp [dataTransactions]) (Nat.le_refl _)

omit hs in
theorem putSlice_atMost (b : Byte) : AtMost 1 1 s ((putSlice b).run s) := by
  have h := write_atMost (pixelData b) s
  rw [packetsOf_pixelData] at h
  rw [putSlice_run]
  exact h.andThen (g := advanceCol.run) fun t _ => atMost_writes (s := t) rfl rfl rfl

theorem putGlyph_atMost (b : Byte) : AtMost g.fontWidth g.fontWidth s ((putGlyph b).run s) := by
  have h := AtMost.forEach (l := glyphBytes g b) (body := putSlice) (fun a t _ => putSlice_atMost a) (s.afterGlyph b) rfl
  rw [glyphBytes_length, Nat.mul_one] at h
  rw [putGlyph_run, hs]
  exact h.of_start (by simp) (by simp) (by simp)

/-- `put_char` is at most one new line and one glyph (spec/43_text.md R120). -/
theorem putChar_atMost (b : Byte) :
    AtMost (2 + g.fontWidth) (windowCount g + g.fontWidth) s ((putChar b).run s) := by
  rw [putChar_run]
  split
  · exact (newLine_atMost hs).mono (Nat.le_add_right _ _) (Nat.le_add_right _ _)
  · split
    · exact (newLine_atMost hs).andThen fun t ht => putGlyph_atMost (ht.trans hs) b
    · exact (putGlyph_atMost hs b).mono (Nat.le_add_left _ _) (Nat.le_add_left _ _)

theorem printBody_atMost (payload : List Byte) :
    AtMost (min payload.length g.printMax * (2 + g.fontWidth))
      (min payload.length g.printMax * (windowCount g + g.fontWidth)) s ((printBody payload).run s) := by
  have h := AtMost.forEach (g := g) (l := List.range (renderedLength g payload.length)) (body := putStored)
    (fun j t ht => putChar_atMost ht (Memory.read t.mem j)) (s.afterMessage payload) (by simp [hs])
  rw [List.length_range, renderedLength] at h
  rw [printBody_run, hs]
  exact h.of_start (by simp) (by simp) (by simp)

theorem fillBody_atMost (b : Byte) : AtMost (2 + 1024) (windowCount g + 1024) s ((fillBody b).run s) := by
  rw [fillBody_run]
  refine (setCursor_atMost hs 0 0).andThen fun t _ => ?_
  have h := sweep_atMost (s := t) rfl (List.replicate fillCount b)
  rwa [List.length_replicate] at h

theorem bitmapLine_atMost (r : Nat) : AtMost (128 + 2) (128 + windowCount g) s ((bitmapLine r).run s) := by
  have h := sweep_atMost hs (bitmapRow g r)
  rw [bitmapRow_length] at h
  rw [bitmapLine_run, hs]
  exact h.andThen fun t ht => newLine_atMost (ht.trans hs)

theorem drawBitmapBody_atMost (p c : Byte) :
    AtMost (2 + g.bitmapRows * (128 + 2)) (windowCount g + g.bitmapRows * (128 + windowCount g)) s
      ((drawBitmapBody p c).run s) := by
  rw [drawBitmapBody_run]
  refine (setCursor_atMost hs p c).andThen fun t ht => ?_
  have h := AtMost.forEach (l := List.range g.bitmapRows) (body := bitmapLine) (fun r u hu => bitmapLine_atMost hu r) t
    (ht.trans hs)
  rw [List.length_range] at h
  rwa [ht.trans hs]

theorem initBody_atMost : AtMost 10
    ((g.initSeq.steps.map initTransaction).flatMap (packetsOf g)).length s (initBody.run s) := by
  subst hs
  rw [initBody_writes]
  exact (writeAll_atMost (s.cfg.initSeq.steps.map initTransaction) (s := { s with curPage := 0, curCol := 0 }) rfl).of_start
    rfl rfl rfl

end

/-! ### Every instruction -/

/-- Without the address in front a transaction is a packet a parameter, and at least one (spec/40_framer.md R93). -/
theorem packetsOf_length_of_not_cmdAddrFirst {g : Config} (h : g.cmdAddrFirst = false) (t : Transaction) :
    (packetsOf g t).length = max 1 t.parameters.length := by
  rw [packetsOf_length, h]
  simp

/-- At most `m` transactions issued and, with `CMD_ADDR_FIRST` false, `n` transmissions answered. -/
def Bounded (m n : Nat) (s : State) (r : State × Flow) : Prop :=
  ∃ k, AtMost m k s r ∧ (s.cfg.cmdAddrFirst = false → k = n)

theorem write_bounded (t : Transaction) (s : State) : Bounded 1 (max 1 t.parameters.length) s ((write t).run s) :=
  ⟨_, write_atMost t s, fun h => packetsOf_length_of_not_cmdAddrFirst h t⟩

/-- Every body is within the bounds of its instruction (spec/70_reset_and_hazards.md R194). -/
theorem body_bounded (i : Instr) (s : State) :
    Bounded (maxTransactions s.cfg i) (maxTransmissions s.cfg i) s ((bodyOf i).run s) := by
  cases i with
  | init =>
    refine ⟨_, initBody_atMost rfl, fun h => ?_⟩
    rw [List.length_flatMap, List.map_map]
    exact congrArg List.sum (List.map_congr_left fun k _ => packetsOf_length_of_not_cmdAddrFirst h (initTransaction k))
  | setCursor p c => exact ⟨_, setCursor_atMost rfl p c, windowCount_of_not_cmdAddrFirst⟩
  | newLine => exact ⟨_, newLine_atMost rfl, windowCount_of_not_cmdAddrFirst⟩
  | putChar b => exact ⟨_, putChar_atMost rfl b, fun h => by rw [windowCount_of_not_cmdAddrFirst h]; rfl⟩
  | print payload => exact ⟨_, printBody_atMost rfl payload, fun h => by rw [windowCount_of_not_cmdAddrFirst h]; rfl⟩
  | fill b => exact ⟨_, fillBody_atMost rfl b, fun h => by rw [windowCount_of_not_cmdAddrFirst h]; rfl⟩
  | drawBitmap p c => exact ⟨_, drawBitmapBody_atMost rfl p c, fun h => by rw [windowCount_of_not_cmdAddrFirst h]; rfl⟩
  | reserved op => exact ⟨0, atMost_writes rfl rfl rfl, fun _ => rfl⟩
  | pktCommand | pktData => exact ⟨1, send_atMost _ s, fun _ => rfl⟩
  | write | txColumnWindow | txPageWindow | txPixelData => exact write_bounded _ s
  | txInit01 | txInit02 | txInit03 | txInit04 | txInit05 | txInit06 | txInit07 | txInit08 | txInit09 | txInit10 =>
    exact write_bounded _ s

/-- Settles O57: an instruction is its body, whose end adds to no trace. -/
theorem operationsAreBounded : Obligations.OperationsAreBounded := by
  unfold Obligations.OperationsAreBounded
  intro i s
  have hstart : (bodyStart i s).cfg = s.cfg ∧ (bodyStart i s).ttrace = s.ttrace ∧ (bodyStart i s).wtrace = s.wtrace := by
    unfold bodyStart
    split <;> exact ⟨rfl, rfl, rfl⟩
  obtain ⟨hcfg, htt, hwt⟩ := hstart
  obtain ⟨n, hbody, hn⟩ := body_bounded i (bodyStart i s)
  rw [hcfg] at hbody hn
  obtain ⟨-, hissued, hsent⟩ := hbody.of_start hcfg htt hwt
  obtain ⟨w, hend⟩ := endOf_status i ((bodyOf i).run (bodyStart i s))
  refine ⟨_, exec_eq i s, ?_⟩
  rw [hend]
  exact ⟨hissued, fun h => hn h ▸ hsent⟩

end Sys2Proof.Machine
end
